-- ==== Sys2Proof/Word.lean ====
section
/-! DEFINITION. The word and byte types and the operand width of a B/W bit (00_scope.md R6, R10). -/

namespace Sys2Proof

/-- A register, an address or a word of memory: 16 bits (R6). -/
abbrev Word := BitVec 16

/-- A byte of memory: 8 bits (R41). -/
abbrev Byte := BitVec 8

/-- The B/W bit: 0 is word, 1 is byte (R62, R65). -/
inductive Width where
  | word
  | byte
deriving DecidableEq, Repr

end Sys2Proof
end

