-- ==== Sys2Proof/Syntax.lean ====
section
/-! DEFINITION. The instructions: one constructor per row of spec/opcode_table.json, their operand forms and registers (30_encoding.md R62 to R69, R78 to R80). -/

namespace Sys2Proof

/-- A register that can be read or written: r0, r1, r2, r4 to r15 (R20). r3 holds no value and every
reference to it is a constant (R25, R68), so it is no member. -/
inductive Reg where
  /-- r0 -/
  | pc
  /-- r1 -/
  | sp
  /-- r2 -/
  | sr
  | r4 | r5 | r6 | r7 | r8 | r9 | r10 | r11 | r12 | r13 | r14 | r15
deriving DecidableEq, Repr

/-- The six constants of the constant generator, each one (register, `as`) slot (R68). -/
inductive Const where
  /-- r3, `as` = 0 -/
  | zero
  /-- r3, `as` = 1 -/
  | one
  /-- r3, `as` = 2 -/
  | two
  /-- r3, `as` = 3: 0xFFFF -/
  | minusOne
  /-- r2, `as` = 2 -/
  | four
  /-- r2, `as` = 3 -/
  | eight
deriving DecidableEq, Repr

/-- A source operand: its mode by R66, with its register and its extension word. -/
inductive SrcOperand where
  /-- REG, `Rn` -/
  | reg (r : Reg)
  /-- INDEXED, `x(Rn)`; with r0 "symbolic" -/
  | indexed (r : Reg) (x : Word)
  /-- ABSOLUTE, `&addr` -/
  | absolute (x : Word)
  /-- INDIRECT, `@Rn` -/
  | indirect (r : Reg)
  /-- INDIRECT_INC, `@Rn+` -/
  | indirectInc (r : Reg)
  /-- IMMEDIATE, `#n` (R69) -/
  | immediate (x : Word)
  /-- CONST (R68) -/
  | const (c : Const)
deriving DecidableEq, Repr

/-- A destination operand of the double-operand family: its mode by R67. -/
inductive DstOperand where
  /-- REG, `Rn` -/
  | reg (r : Reg)
  /-- INDEXED, `x(Rn)`; with r0 "symbolic" -/
  | indexed (r : Reg) (x : Word)
  /-- ABSOLUTE, `&addr` -/
  | absolute (x : Word)
  /-- CONST, from r3: `ad` = 0 gives 0, `ad` = 1 gives 1 (R67) -/
  | const (c : Const)
deriving DecidableEq, Repr

/-- The instructions. `pre` is the prefix `w0[12:10]` of a single-operand word (R63), `bw` the B/W bit
(kept where it is ignored, R93), `off` the jump's `off10` (R74). -/
inductive Instr where
  -- single-operand family (R78)
  | rrc (pre : BitVec 3) (bw : Width) (src : SrcOperand)
  | swpb (pre : BitVec 3) (bw : Width) (src : SrcOperand)
  | rra (pre : BitVec 3) (bw : Width) (src : SrcOperand)
  | sxt (pre : BitVec 3) (bw : Width) (src : SrcOperand)
  | push (pre : BitVec 3) (bw : Width) (src : SrcOperand)
  | call (pre : BitVec 3) (bw : Width) (src : SrcOperand)
  | reti (pre : BitVec 3) (bw : Width) (src : SrcOperand)
  /-- single-operand opcode 7, which spells no mnemonic (R128) -/
  | reserved7 (pre : BitVec 3) (bw : Width) (src : SrcOperand)
  -- conditional-jump family (R79)
  | jne (off : BitVec 10)
  | jeq (off : BitVec 10)
  | jnc (off : BitVec 10)
  | jc (off : BitVec 10)
  | jn (off : BitVec 10)
  | jge (off : BitVec 10)
  | jl (off : BitVec 10)
  | jmp (off : BitVec 10)
  -- double-operand family (R80)
  | mov (bw : Width) (src : SrcOperand) (dst : DstOperand)
  | add (bw : Width) (src : SrcOperand) (dst : DstOperand)
  | addc (bw : Width) (src : SrcOperand) (dst : DstOperand)
  | subc (bw : Width) (src : SrcOperand) (dst : DstOperand)
  | sub (bw : Width) (src : SrcOperand) (dst : DstOperand)
  | cmp (bw : Width) (src : SrcOperand) (dst : DstOperand)
  | dadd (bw : Width) (src : SrcOperand) (dst : DstOperand)
  | bit (bw : Width) (src : SrcOperand) (dst : DstOperand)
  | bic (bw : Width) (src : SrcOperand) (dst : DstOperand)
  | bis (bw : Width) (src : SrcOperand) (dst : DstOperand)
  | xor (bw : Width) (src : SrcOperand) (dst : DstOperand)
  | and (bw : Width) (src : SrcOperand) (dst : DstOperand)
deriving DecidableEq, Repr

end Sys2Proof
end

