-- ==== Sys2Proof/WellFormed.lean ====
section
/-! DEFINITION. Which terms of Instr the encodings can spell: the (register, `as`) and (register, `ad`) slots of 30_encoding.md R66 and R67. -/

namespace Sys2Proof

/-- The slots of R66: r2 with `as` = 1 is ABSOLUTE and with `as` = 2, 3 a constant, and r0 with
`as` = 3 is IMMEDIATE, so none of these registers occurs in the mode those slots would spell. -/
def SrcOperand.wellFormed : SrcOperand → Bool
  | .reg _ => true
  | .indexed r _ => r != .sr
  | .absolute _ => true
  | .indirect r => r != .sr
  | .indirectInc r => r != .sr && r != .pc
  | .immediate _ => true
  | .const _ => true

/-- The slots of R67: r2 with `ad` = 1 is ABSOLUTE, and only r3 gives a constant, 0 or 1. -/
def DstOperand.wellFormed : DstOperand → Bool
  | .reg _ => true
  | .indexed r _ => r != .sr
  | .absolute _ => true
  | .const c => c == .zero || c == .one

/-- An instruction some words spell. -/
def Instr.wellFormed : Instr → Bool
  | .rrc _ _ src => src.wellFormed
  | .swpb _ _ src => src.wellFormed
  | .rra _ _ src => src.wellFormed
  | .sxt _ _ src => src.wellFormed
  | .push _ _ src => src.wellFormed
  | .call _ _ src => src.wellFormed
  | .reti _ _ src => src.wellFormed
  | .reserved7 _ _ src => src.wellFormed
  | .jne _ => true
  | .jeq _ => true
  | .jnc _ => true
  | .jc _ => true
  | .jn _ => true
  | .jge _ => true
  | .jl _ => true
  | .jmp _ => true
  | .mov _ src dst => src.wellFormed && dst.wellFormed
  | .add _ src dst => src.wellFormed && dst.wellFormed
  | .addc _ src dst => src.wellFormed && dst.wellFormed
  | .subc _ src dst => src.wellFormed && dst.wellFormed
  | .sub _ src dst => src.wellFormed && dst.wellFormed
  | .cmp _ src dst => src.wellFormed && dst.wellFormed
  | .dadd _ src dst => src.wellFormed && dst.wellFormed
  | .bit _ src dst => src.wellFormed && dst.wellFormed
  | .bic _ src dst => src.wellFormed && dst.wellFormed
  | .bis _ src dst => src.wellFormed && dst.wellFormed
  | .xor _ src dst => src.wellFormed && dst.wellFormed
  | .and _ src dst => src.wellFormed && dst.wellFormed

end Sys2Proof
end

