-- ==== Sys2Proof/Decode.lean ====
section
/-! DEFINITION. The decoder (30_encoding.md R60 to R77), total on any list of bytes, and after it the encoder, both from the field tables of R62, R64, R65 and R78 to R80. -/

namespace Sys2Proof

/-! ## Bytes, words and fields -/

/-- Little-endian: the byte at the lower address is the low byte (R42, R60). -/
def wordOfBytes (lo hi : Byte) : Word := hi ++ lo

/-- Bits 7:0. -/
def lowByte (w : Word) : Byte := w.extractLsb' 0 8

/-- Bits 15:8. -/
def highByte (w : Word) : Byte := w.extractLsb' 8 8

/-- `v[lo+len-1 : lo]` (R9). -/
def field (lo len : Nat) (w : Word) : BitVec len := w.extractLsb' lo len

/-- Word `k` of the supplied bytes (R60). -/
def wordAt (bytes : List Byte) (k : Nat) : Word :=
  wordOfBytes (bytes.getD (2 * k) 0#8) (bytes.getD (2 * k + 1) 0#8)

/-- The byte displacement of a jump: `(sext_10(off10) << 1) mod 2^16` (R74). -/
def jumpOffset (off : BitVec 10) : Word := (off.signExtend 16) <<< 1

/-! ## Registers, constants and operands -/

/-- The register a 4-bit field names; none for r3, the constant generator (R20, R25). -/
def regOfIndex (n : BitVec 4) : Option Reg :=
  match n.toNat with
  | 0 => some .pc
  | 1 => some .sp
  | 2 => some .sr
  | 3 => none
  | 4 => some .r4
  | 5 => some .r5
  | 6 => some .r6
  | 7 => some .r7
  | 8 => some .r8
  | 9 => some .r9
  | 10 => some .r10
  | 11 => some .r11
  | 12 => some .r12
  | 13 => some .r13
  | 14 => some .r14
  | _ => some .r15

/-- The number of a register (R20). -/
def regIndex : Reg → BitVec 4
  | .pc => 0#4
  | .sp => 1#4
  | .sr => 2#4
  | .r4 => 4#4
  | .r5 => 5#4
  | .r6 => 6#4
  | .r7 => 7#4
  | .r8 => 8#4
  | .r9 => 9#4
  | .r10 => 10#4
  | .r11 => 11#4
  | .r12 => 12#4
  | .r13 => 13#4
  | .r14 => 14#4
  | .r15 => 15#4

/-- The B/W bit: 1 is byte (R62, R65). -/
def widthOfBit (b : BitVec 1) : Width := if b = 1#1 then .byte else .word

/-- The B/W bit of a width. -/
def bitOfWidth : Width → BitVec 1
  | .word => 0#1
  | .byte => 1#1

/-- `mode_src(reg, as)` with its extension word `x`: the table of R66, with the slots of R68. -/
def srcOperand (reg : BitVec 4) (as : BitVec 2) (x : Word) : SrcOperand :=
  match regOfIndex reg with
  | none =>
    match as.toNat with
    | 0 => .const .zero
    | 1 => .const .one
    | 2 => .const .two
    | _ => .const .minusOne
  | some .sr =>
    match as.toNat with
    | 0 => .reg .sr
    | 1 => .absolute x
    | 2 => .const .four
    | _ => .const .eight
  | some r =>
    match as.toNat with
    | 0 => .reg r
    | 1 => .indexed r x
    | 2 => .indirect r
    | _ => if r = .pc then .immediate x else .indirectInc r

/-- `mode_dst(reg, ad)` with its extension word `x`: the table of R67. -/
def dstOperand (reg : BitVec 4) (ad : BitVec 1) (x : Word) : DstOperand :=
  match regOfIndex reg with
  | none => if ad = 0#1 then .const .zero else .const .one
  | some .sr => if ad = 0#1 then .reg .sr else .absolute x
  | some r => if ad = 0#1 then .reg r else .indexed r x

/-- The extension word of a source operand: INDEXED, ABSOLUTE and IMMEDIATE need one (R70). -/
def srcExt : SrcOperand → List Word
  | .reg _ => []
  | .indexed _ x => [x]
  | .absolute x => [x]
  | .indirect _ => []
  | .indirectInc _ => []
  | .immediate x => [x]
  | .const _ => []

/-- The extension word of a destination operand (R70). -/
def dstExt : DstOperand → List Word
  | .reg _ => []
  | .indexed _ x => [x]
  | .absolute x => [x]
  | .const _ => []

/-! ## The three families -/

/-- The single-operand opcodes (R78). -/
def singleOf (opc : BitVec 3) (pre : BitVec 3) (bw : Width) (src : SrcOperand) : Instr :=
  match opc.toNat with
  | 0 => .rrc pre bw src
  | 1 => .swpb pre bw src
  | 2 => .rra pre bw src
  | 3 => .sxt pre bw src
  | 4 => .push pre bw src
  | 5 => .call pre bw src
  | 6 => .reti pre bw src
  | _ => .reserved7 pre bw src

/-- The jump conditions (R79). -/
def jumpOf (cond : BitVec 3) (off : BitVec 10) : Instr :=
  match cond.toNat with
  | 0 => .jne off
  | 1 => .jeq off
  | 2 => .jnc off
  | 3 => .jc off
  | 4 => .jn off
  | 5 => .jge off
  | 6 => .jl off
  | _ => .jmp off

/-- The double-operand opcodes 4 to 15 (R80). The family's words never carry 0 to 3 (R65). -/
def doubleOf (opc : BitVec 4) (bw : Width) (src : SrcOperand) (dst : DstOperand) : Instr :=
  match opc.toNat with
  | 4 => .mov bw src dst
  | 5 => .add bw src dst
  | 6 => .addc bw src dst
  | 7 => .subc bw src dst
  | 8 => .sub bw src dst
  | 9 => .cmp bw src dst
  | 10 => .dadd bw src dst
  | 11 => .bit bw src dst
  | 12 => .bic bw src dst
  | 13 => .bis bw src dst
  | 14 => .xor bw src dst
  | _ => .and bw src dst

/-- A single-operand word (R62): prefix, opcode, B/W, `as`, register. -/
def decodeSingle (w0 w1 : Word) : Instr :=
  singleOf (field 7 3 w0) (field 10 3 w0) (widthOfBit (field 6 1 w0))
    (srcOperand (field 0 4 w0) (field 4 2 w0) w1)

/-- A jump word (R64): condition and offset. -/
def decodeJump (w0 : Word) : Instr := jumpOf (field 10 3 w0) (field 0 10 w0)

/-- A double-operand word (R65). The extension words are taken in operand order (R72). -/
def decodeDouble (w0 w1 w2 : Word) : Instr :=
  let src := srcOperand (field 8 4 w0) (field 4 2 w0) w1
  let dst := dstOperand (field 0 4 w0) (field 7 1 w0) (if srcExt src = [] then w1 else w2)
  doubleOf (field 12 4 w0) (widthOfBit (field 6 1 w0)) src dst

/-- The family by `w0[15:13]` (R61). Every first word spells a row of the table. -/
def decodeWords (w0 w1 w2 : Word) : Instr :=
  match (field 13 3 w0).toNat with
  | 0 => decodeSingle w0 w1
  | 1 => decodeJump w0
  | _ => decodeDouble w0 w1 w2

/-- The extension words of an instruction, in operand order (R72). -/
def extWords : Instr → List Word
  | .rrc _ _ src => srcExt src
  | .swpb _ _ src => srcExt src
  | .rra _ _ src => srcExt src
  | .sxt _ _ src => srcExt src
  | .push _ _ src => srcExt src
  | .call _ _ src => srcExt src
  | .reti _ _ src => srcExt src
  | .reserved7 _ _ src => srcExt src
  | .jne _ => []
  | .jeq _ => []
  | .jnc _ => []
  | .jc _ => []
  | .jn _ => []
  | .jge _ => []
  | .jl _ => []
  | .jmp _ => []
  | .mov _ src dst => srcExt src ++ dstExt dst
  | .add _ src dst => srcExt src ++ dstExt dst
  | .addc _ src dst => srcExt src ++ dstExt dst
  | .subc _ src dst => srcExt src ++ dstExt dst
  | .sub _ src dst => srcExt src ++ dstExt dst
  | .cmp _ src dst => srcExt src ++ dstExt dst
  | .dadd _ src dst => srcExt src ++ dstExt dst
  | .bit _ src dst => srcExt src ++ dstExt dst
  | .bic _ src dst => srcExt src ++ dstExt dst
  | .bis _ src dst => srcExt src ++ dstExt dst
  | .xor _ src dst => srcExt src ++ dstExt dst
  | .and _ src dst => srcExt src ++ dstExt dst

/-- The width in bytes: 2, 4 or 6 (R71). -/
def instrWidth (i : Instr) : Nat := 2 + 2 * (extWords i).length

/-- The width told by the first word alone (R71). -/
def widthOfWord (w0 : Word) : Nat := instrWidth (decodeWords w0 0#16 0#16)

/-- Why the decode port refuses its input (R76). -/
inductive DecodeError where
  /-- Fewer bytes than the instruction needs. Safe: it is the spec's own failure (R192). -/
  | tooShort
deriving DecidableEq, Repr

/-- `Decode(bytes, n)` with `n = bytes.length` (R76): a pure function of the bytes (R77) that reads
none past the width. -/
def decode (bytes : List Byte) : Except DecodeError Instr :=
  if bytes.length < 2 then .error .tooShort
  else if bytes.length < widthOfWord (wordAt bytes 0) then .error .tooShort
  else .ok (decodeWords (wordAt bytes 0) (wordAt bytes 1) (wordAt bytes 2))

/-! ## The encoder -/

/-- The constant's (register, `as`) slot (R68). -/
def constSlot : Const → BitVec 4 × BitVec 2
  | .zero => (3#4, 0#2)
  | .one => (3#4, 1#2)
  | .two => (3#4, 2#2)
  | .minusOne => (3#4, 3#2)
  | .four => (2#4, 2#2)
  | .eight => (2#4, 3#2)

/-- The (register, `as`) fields of a source operand (R66). -/
def srcFields : SrcOperand → BitVec 4 × BitVec 2
  | .reg r => (regIndex r, 0#2)
  | .indexed r _ => (regIndex r, 1#2)
  | .absolute _ => (2#4, 1#2)
  | .indirect r => (regIndex r, 2#2)
  | .indirectInc r => (regIndex r, 3#2)
  | .immediate _ => (0#4, 3#2)
  | .const c => constSlot c

/-- The (register, `ad`) fields of a destination operand (R67). -/
def dstFields : DstOperand → BitVec 4 × BitVec 1
  | .reg r => (regIndex r, 0#1)
  | .indexed r _ => (regIndex r, 1#1)
  | .absolute _ => (2#4, 1#1)
  | .const c => (3#4, if c = .zero then 0#1 else 1#1)

/-- A single-operand word (R62). -/
def singleWord (opc : BitVec 3) (pre : BitVec 3) (bw : Width) (src : SrcOperand) : Word :=
  0#3 ++ pre ++ opc ++ bitOfWidth bw ++ (srcFields src).2 ++ (srcFields src).1

/-- A jump word (R64). -/
def jumpWord (cond : BitVec 3) (off : BitVec 10) : Word := 1#3 ++ cond ++ off

/-- A double-operand word (R65). -/
def doubleWord (opc : BitVec 4) (bw : Width) (src : SrcOperand) (dst : DstOperand) : Word :=
  opc ++ (srcFields src).1 ++ (dstFields dst).2 ++ bitOfWidth bw ++ (srcFields src).2
    ++ (dstFields dst).1

/-- The first word `w0` of an instruction. -/
def firstWord : Instr → Word
  | .rrc pre bw src => singleWord 0#3 pre bw src
  | .swpb pre bw src => singleWord 1#3 pre bw src
  | .rra pre bw src => singleWord 2#3 pre bw src
  | .sxt pre bw src => singleWord 3#3 pre bw src
  | .push pre bw src => singleWord 4#3 pre bw src
  | .call pre bw src => singleWord 5#3 pre bw src
  | .reti pre bw src => singleWord 6#3 pre bw src
  | .reserved7 pre bw src => singleWord 7#3 pre bw src
  | .jne off => jumpWord 0#3 off
  | .jeq off => jumpWord 1#3 off
  | .jnc off => jumpWord 2#3 off
  | .jc off => jumpWord 3#3 off
  | .jn off => jumpWord 4#3 off
  | .jge off => jumpWord 5#3 off
  | .jl off => jumpWord 6#3 off
  | .jmp off => jumpWord 7#3 off
  | .mov bw src dst => doubleWord 4#4 bw src dst
  | .add bw src dst => doubleWord 5#4 bw src dst
  | .addc bw src dst => doubleWord 6#4 bw src dst
  | .subc bw src dst => doubleWord 7#4 bw src dst
  | .sub bw src dst => doubleWord 8#4 bw src dst
  | .cmp bw src dst => doubleWord 9#4 bw src dst
  | .dadd bw src dst => doubleWord 10#4 bw src dst
  | .bit bw src dst => doubleWord 11#4 bw src dst
  | .bic bw src dst => doubleWord 12#4 bw src dst
  | .bis bw src dst => doubleWord 13#4 bw src dst
  | .xor bw src dst => doubleWord 14#4 bw src dst
  | .and bw src dst => doubleWord 15#4 bw src dst

/-- The words of an instruction: the first word, then the extension words (R60, R72). -/
def encode (i : Instr) : List Word := firstWord i :: extWords i

/-- The bytes of a list of words as memory holds them (R42). -/
def bytesOfWords (ws : List Word) : List Byte := ws.flatMap fun w => [lowByte w, highByte w]

/-- The fixed bits of an instruction's row of spec/opcode_table.json: its mask and its match. -/
def tableRow : Instr → Word × Word
  | .rrc _ _ _ => (0xE380#16, 0x0000#16)
  | .swpb _ _ _ => (0xE380#16, 0x0080#16)
  | .rra _ _ _ => (0xE380#16, 0x0100#16)
  | .sxt _ _ _ => (0xE380#16, 0x0180#16)
  | .push _ _ _ => (0xE380#16, 0x0200#16)
  | .call _ _ _ => (0xE380#16, 0x0280#16)
  | .reti _ _ _ => (0xE380#16, 0x0300#16)
  | .reserved7 _ _ _ => (0xE380#16, 0x0380#16)
  | .jne _ => (0xFC00#16, 0x2000#16)
  | .jeq _ => (0xFC00#16, 0x2400#16)
  | .jnc _ => (0xFC00#16, 0x2800#16)
  | .jc _ => (0xFC00#16, 0x2C00#16)
  | .jn _ => (0xFC00#16, 0x3000#16)
  | .jge _ => (0xFC00#16, 0x3400#16)
  | .jl _ => (0xFC00#16, 0x3800#16)
  | .jmp _ => (0xFC00#16, 0x3C00#16)
  | .mov _ _ _ => (0xF000#16, 0x4000#16)
  | .add _ _ _ => (0xF000#16, 0x5000#16)
  | .addc _ _ _ => (0xF000#16, 0x6000#16)
  | .subc _ _ _ => (0xF000#16, 0x7000#16)
  | .sub _ _ _ => (0xF000#16, 0x8000#16)
  | .cmp _ _ _ => (0xF000#16, 0x9000#16)
  | .dadd _ _ _ => (0xF000#16, 0xA000#16)
  | .bit _ _ _ => (0xF000#16, 0xB000#16)
  | .bic _ _ _ => (0xF000#16, 0xC000#16)
  | .bis _ _ _ => (0xF000#16, 0xD000#16)
  | .xor _ _ _ => (0xF000#16, 0xE000#16)
  | .and _ _ _ => (0xF000#16, 0xF000#16)

/-! ## The table's numbering of an instruction's bits -/

/-- The longest instruction, and the fetch window: 6 bytes (R6). -/
def windowBytes : Nat := 6

/-- The six bytes of an instruction whose first `nbits` bits are `w`, bit 0 the least significant
bit of the first word, the rest zero: byte `k` is bits `8k+7..8k`. -/
def tableBytes (nbits w : Nat) : List Byte :=
  (List.range windowBytes).map fun k => BitVec.ofNat 8 ((w % 2 ^ nbits) / 2 ^ (8 * k))

/-- The instruction the decoder reads from such bits. -/
def decodeTableWord (nbits w : Nat) : Option Instr :=
  match decode (tableBytes nbits w) with
  | .ok i => some i
  | .error _ => none

end Sys2Proof
end

