-- ==== Sys2Proof/Config.lean ====
section
/-! DEFINITION. The parameters of 00_scope.md R7 with their defaults, what the environment may answer at a bound address, and the free values of the model. -/

namespace Sys2Proof

/-- `P_SOP_PREFIX` (R7, R63): whether bits 12:10 of a single-operand word are ignored or must be 0b100. -/
inductive SopPrefix where
  | ignore
  | strict
deriving DecidableEq, Repr

/-- The parameters a model takes as arguments (R7). They stand in State, and no step changes them. -/
structure Params where
  /-- `P_SOP_PREFIX` (R63, D3) -/
  sopPrefix : SopPrefix
  /-- `P_MOV_READS_DST` (R103, D10) -/
  movReadsDst : Bool
  /-- `P_FETCH_GUARD` (R45, D20) -/
  fetchGuard : Nat
  /-- `P_WORD_GUARD` (R44, D20) -/
  wordGuard : Nat
deriving DecidableEq, Repr

/-- The defaults of R7: ignore, true, 6, 4. -/
def Config.params : Params :=
  { sopPrefix := .ignore, movReadsDst := true, fetchGuard := 6, wordGuard := 4 }

/-- `P_REG_INIT`'s default (R7, R32): every register is created holding this. DESIGN CHOICE of the spec (D21), unsafe: log 1. -/
def Config.regInit : Word := 0x0000#16

/-- What a byte of the flat store reads as when no store has listed it: the content after the host's
reset-to-zero (R221, R222). It bounds no memory: a memory of any contents lists the bytes that differ, and
`State.create` takes any (log 2). -/
def Config.unlistedByte : Byte := 0x00#8

/-- A collaborator's error, which the block passes on unchanged (R191, R198). -/
inductive CollabError where
  /-- "K/V not found" -/
  | notFound
  /-- "I/O failure" -/
  | ioFailure
  /-- any other error a collaborator surfaces -/
  | other (code : Nat)
deriving DecidableEq, Repr, Inhabited

/-- What the environment answers to an access of a hooked address (R47). A hook may itself touch the memory
(R49): `touched` lists the bytes it writes, in order, before it answers. -/
inductive Answer where
  /-- The hook answers: a load takes the low bits it asks for, a store has been taken. -/
  | value (v : BitVec 48) (touched : List (Word × Byte))
  /-- The hook reports an error: a read falls back to the stored bytes, a write fails with it. -/
  | error (e : CollabError) (touched : List (Word × Byte))
  /-- The collaborator never replies (R208, 93_implementation_defined.md I13). What its hook wrote before it
  hung is admitted too, since R49 does not exclude it (log 5). -/
  | never (touched : List (Word × Byte))
deriving DecidableEq, Repr, Inhabited

/-- FREE VALUE (log 5): the `n`-th answer of the environment that State does not script. It has no
body that Lean can see, so a statement about it holds for every answer (I10, I11: "any value"). -/
opaque Config.freeAnswer : Nat → Answer

/-- FREE VALUE (log 7): the flat store's two console addresses, `n` = 0 and 1. The spec gives neither
(R46, I10), so nothing says which they are, or that they differ. -/
opaque Config.consoleAddress : Nat → Word

/-- FREE VALUE (log 7): what the `n`-th access of a console address does: what a load or a fetch reads, what
a store leaves in the bytes it covers (R46, I10: "any value"). -/
opaque Config.freeConsole : Nat → BitVec 48

end Sys2Proof
end

