-- ==== Sys2Proof/Machine/State.lean ====
section
/-! DEFINITION. The state: the register file (10_state.md), the memory and the environment behind the memory port (20_memory.md), the parameters (00_scope.md R7); the faults and refusals; and the state right after creation. -/

namespace Sys2Proof.Machine

/-- The register file (R20): r0 = PC, r1 = SP, r2 = SR, r4 to r15. r3 stores nothing (R25). -/
structure RegFile where
  /-- r0 (R21) -/
  pc : Word
  /-- r1 (R22) -/
  sp : Word
  /-- r2 (R23, R24): bit 0 C, bit 1 Z, bit 2 N, bit 4 CPUOFF, bit 8 V, the rest plain storage -/
  sr : Word
  r4 : Word
  r5 : Word
  r6 : Word
  r7 : Word
  r8 : Word
  r9 : Word
  r10 : Word
  r11 : Word
  r12 : Word
  r13 : Word
  r14 : Word
  r15 : Word
deriving DecidableEq, Repr

/-- The flat store (R41): the listed bytes, every other byte reading `Config.unlistedByte`. Its
canonical form is `Memory.wf`. -/
abbrev Memory := List Host.Cell

/-- What the block sent to a hooked address or a console address (R46, R47). -/
inductive Request where
  | load (a : Word) (w : Width)
  | store (a : Word) (w : Width) (v : Word)
  | fetch (a : Word)
deriving DecidableEq, Repr

/-- The part of `MEM` (R7) that is not the flat store's bytes. The hook tables are bound once and never
change (R47). `answers`, `asked`, `requests` (log 5) and `consoleRequests` (log 7) are the model's own. -/
structure Env where
  /-- the flat store's console addresses (R46) -/
  console : List Word
  /-- addresses with a bound read hook (R47) -/
  readHooks : List Word
  /-- addresses with a bound write hook (R47) -/
  writeHooks : List Word
  /-- whether Fetch6 consults the read hooks (R47 leaves it to `MEM`) -/
  fetchHooked : Bool
  /-- the environment's next answers, in order -/
  answers : List Answer
  /-- how many answers were drawn beyond the scripted ones -/
  asked : Nat
  /-- the requests sent to hooked addresses, oldest first -/
  requests : List Request
  /-- the accesses that hit a console address of the flat store, oldest first: what may have output a
  character (log 7) -/
  consoleRequests : List Request
deriving DecidableEq, Repr

/-- The machine's state. -/
structure State where
  /-- the register file -/
  regs : RegFile
  /-- the flat store's bytes -/
  mem : Memory
  /-- the rest of the memory port's environment -/
  env : Env
  /-- the parameters of R7 -/
  params : Params
deriving DecidableEq, Repr

/-- The fault kinds of R191, each with its info and the state it leaves (R197: nothing is undone). The
host may go on from that state (R202, R225). -/
inductive Fault where
  /-- Code 1. Raised by the decode port with too few bytes (R192); a step never reports it. Safe. -/
  | tooShort (left : State)
  /-- Code 2. Raised by a write to an operand with no location (R193); `w0` is the first word. Safe. -/
  | badOperand (w0 : Word) (left : State)
  /-- Code 3. Raised by the memory port for a word access or a fetch near the top (R194). Safe. -/
  | addressTooHigh (a : Word) (left : State)
  /-- Code 4. Raised by the memory port for an odd word access or fetch (R195). Safe. -/
  | addressUnaligned (a : Word) (left : State)
  /-- Code 5. Raised by RETI, DADD, single-operand opcode 7 and a strict-prefix violation (R196). Safe. -/
  | unsupported (w0 : Word) (left : State)
  /-- Code 6. Raised by a write hook's error, passed on unchanged (R198). Safe. -/
  | collaborator (e : CollabError) (left : State)
  /-- The model's own: the collaborator behind the bound address `a` never replies, so the step does
  not return (R208, 93_implementation_defined.md I13). A stuck state, safe: log 10. -/
  | noReply (a : Word) (left : State)
deriving DecidableEq, Repr

/-- Why an instruction has no meaning in the model. -/
inductive Refusal where
  /-- Raised by `exec` for an instruction the model does not give a meaning. Safe. No arm uses it. -/
  | notModelled (mnemonic : String)
deriving DecidableEq, Repr

/-- Every register holding `v`. -/
def RegFile.all (v : Word) : RegFile :=
  { pc := v, sp := v, sr := v, r4 := v, r5 := v, r6 := v, r7 := v, r8 := v, r9 := v, r10 := v,
    r11 := v, r12 := v, r13 := v, r14 := v, r15 := v }

/-- `MEM`'s default (R7, D31): the flat store with no hooks. Its two console addresses are free values: no
address is known to be ordinary RAM (R46, log 7). -/
def Env.flat : Env :=
  { console := [Config.consoleAddress 0, Config.consoleAddress 1], readHooks := [], writeHooks := [],
    fetchHooked := false, answers := [], asked := 0, requests := [], consoleRequests := [] }

/-- An instance as created (R32, R221): the registers hold `P_REG_INIT`, and the bytes of memory, which the
spec leaves unspecified (I9: "any value"), whatever the argument `mem` says. -/
def State.create (regInit : RegFile) (mem : Memory) (env : Env) (params : Params) : State :=
  { regs := regInit, mem := mem, env := env, params := params }

/-- The machine right after reset (R220 to R222): created with every default of R7, and its memory reset to
zero by the host, so that no byte is listed (log 2). -/
def State.reset : State := State.create (RegFile.all Config.regInit) [] Env.flat Config.params

end Sys2Proof.Machine
end

