-- ==== Sys2Proof/Machine/Ops.lean ====
section
/-! DEFINITION. The named operations: width helpers, register access, memory, the five requests of the memory port with their guards and hooks, raising a fault and re-arming after one, fetching. -/

namespace Sys2Proof.Machine

/-! ## The helpers of a width (00_scope.md R11) -/

/-- `mask(bw)` -/
def mask : Width → Word
  | .word => 0xFFFF#16
  | .byte => 0x00FF#16

/-- `msb(bw)` -/
def msb : Width → Word
  | .word => 0x8000#16
  | .byte => 0x0080#16

/-- `size(bw)`, in bytes -/
def size : Width → Word
  | .word => 2#16
  | .byte => 1#16

/-! ## Registers -/

/-- `x[i]` (R11) -/
def RegFile.get (f : RegFile) : Reg → Word
  | .pc => f.pc
  | .sp => f.sp
  | .sr => f.sr
  | .r4 => f.r4
  | .r5 => f.r5
  | .r6 => f.r6
  | .r7 => f.r7
  | .r8 => f.r8
  | .r9 => f.r9
  | .r10 => f.r10
  | .r11 => f.r11
  | .r12 => f.r12
  | .r13 => f.r13
  | .r14 => f.r14
  | .r15 => f.r15

/-- `x[i] <- v` (R11) -/
def RegFile.set (f : RegFile) (r : Reg) (v : Word) : RegFile :=
  match r with
  | .pc => { f with pc := v }
  | .sp => { f with sp := v }
  | .sr => { f with sr := v }
  | .r4 => { f with r4 := v }
  | .r5 => { f with r5 := v }
  | .r6 => { f with r6 := v }
  | .r7 => { f with r7 := v }
  | .r8 => { f with r8 := v }
  | .r9 => { f with r9 := v }
  | .r10 => { f with r10 := v }
  | .r11 => { f with r11 := v }
  | .r12 => { f with r12 := v }
  | .r13 => { f with r13 := v }
  | .r14 => { f with r14 := v }
  | .r15 => { f with r15 := v }

def State.reg (s : State) (r : Reg) : Word := s.regs.get r

def State.setReg (s : State) (r : Reg) (v : Word) : State := { s with regs := s.regs.set r v }

/-- SR bit 4, CPUOFF (R23). -/
def State.cpuOff (s : State) : Bool := s.regs.sr.getLsbD 4

/-! ## The flat store (20_memory.md R41) -/

/-- The canonical form: addresses strictly rising inside the 64 KiB space, no entry equal to what an
unlisted byte reads as. -/
abbrev Memory.wf (m : Memory) : Prop :=
  m.Pairwise (fun c d => c.1 < d.1) ∧ ∀ c ∈ m, c.1 < 65536 ∧ c.2 ≠ Config.unlistedByte

/-- The byte at `a`. -/
def Memory.read : Memory → Nat → Byte
  | [], _ => Config.unlistedByte
  | (k, v) :: rest, a => if k = a then v else Memory.read rest a

/-- Stores `b` at `a`, keeping the canonical form. -/
def Memory.write : Memory → Nat → Byte → Memory
  | [], a, b => if b = Config.unlistedByte then [] else [(a, b)]
  | (k, v) :: rest, a, b =>
    if a < k then
      if b = Config.unlistedByte then (k, v) :: rest else (a, b) :: (k, v) :: rest
    else if a = k then
      if b = Config.unlistedByte then rest else (a, b) :: rest
    else (k, v) :: Memory.write rest a b

/-- `M[a]` -/
def State.byteAt (s : State) (a : Word) : Byte := s.mem.read a.toNat

/-- `M[a] <- b` -/
def State.setByte (s : State) (a : Word) (b : Byte) : State :=
  { s with mem := s.mem.write a.toNat b }

/-- The stored bytes an access of width `w` at `a` covers, as a value (R42). -/
def State.stored (s : State) (w : Width) (a : Word) : Word :=
  match w with
  | .byte => (s.byteAt a).setWidth 16
  | .word => wordOfBytes (s.byteAt a) (s.byteAt (a + 1#16))

/-- Writes the low byte of `v` at `a` and, for a word, the high byte at `a + 1` (R42). -/
def State.putStored (s : State) (w : Width) (a : Word) (v : Word) : State :=
  match w with
  | .byte => s.setByte a (lowByte v)
  | .word => (s.setByte a (lowByte v)).setByte (a + 1#16) (highByte v)

/-- The six bytes from `a` on; addresses wrap (R10), log 9. -/
def State.windowAt (s : State) (a : Word) : List Byte :=
  (List.range windowBytes).map fun k => s.byteAt (a + BitVec.ofNat 16 k)

/-- The bytes placed in the flat store from `a` on, the way a host loads them (R222). That the host's
writes reach the stored bytes past guards, hooks and console addresses is the model's choice: log 21. -/
def placeBytes (a : Word) (bytes : List Byte) (s : State) : State :=
  match bytes with
  | [] => s
  | b :: rest => placeBytes (a + 1#16) rest (s.setByte a b)

/-! ## Outcomes inside a step -/

/-- What an operation inside a step ends with: a value and the next state, or a raised fault. -/
inductive Res (α : Type) where
  | ok (a : α) (s : State)
  | fault (f : Fault)
deriving DecidableEq, Repr

/-- Runs `g` on the value and state of a completed operation; a raised fault ends the step (R11). -/
def Res.andThen {α β : Type} (r : Res α) (g : α → State → Res β) : Res β :=
  match r with
  | .ok a s => g a s
  | .fault f => .fault f

/-- The outcome of an instruction: the state it leaves, or the fault it raised. -/
def Res.outcome (r : Res Unit) : Host.Outcome State Fault Refusal :=
  match r with
  | .ok _ s => .next s
  | .fault f => .fault f

/-! ## Faults (60_exceptions.md) -/

/-- `raise` (R11, R197, R201): the step ends at once with a fault that carries the state as it is;
nothing is undone, no vector is taken and nothing is saved. -/
def raise {α : Type} (f : State → Fault) (s : State) : Res α := .fault (f s)

/-- The state a fault leaves (R197). -/
def Fault.left : Fault → State
  | .tooShort s => s
  | .badOperand _ s => s
  | .addressTooHigh _ s => s
  | .addressUnaligned _ s => s
  | .unsupported _ s => s
  | .collaborator _ s => s
  | .noReply _ s => s

/-- The code of a fault kind (R191); none for the model's own stuck step. -/
def Fault.code : Fault → Option Nat
  | .tooShort _ => some 1
  | .badOperand _ _ => some 2
  | .addressTooHigh _ _ => some 3
  | .addressUnaligned _ _ => some 4
  | .unsupported _ _ => some 5
  | .collaborator _ _ => some 6
  | .noReply _ _ => none

/-- Continuing after a fault without reloading (R202, R225): the block steps from the state the fault
left, the PC past the faulting instruction. There is no other return from a fault. -/
def rearm (f : Fault) : State := f.left

/-! ## The memory port (20_memory.md R40) -/

/-- The guard of a word access, in R44's order; a byte access has none (R43). -/
def accessGuard (p : Params) (w : Width) (a : Word) : Option (State → Fault) :=
  match w with
  | .byte => none
  | .word =>
    if a.getLsbD 0 then some (Fault.addressUnaligned a)
    else if 0xFFFF - a.toNat < p.wordGuard then some (Fault.addressTooHigh a)
    else none

/-- The guard of a fetch, in R45's order. -/
def fetchGuardAt (p : Params) (a : Word) : Option (State → Fault) :=
  if 0xFFFF - a.toNat < p.fetchGuard then some (Fault.addressTooHigh a)
  else if a.getLsbD 0 then some (Fault.addressUnaligned a)
  else none

/-- A load at `a` has a read hook bound (R47): the access address alone is looked up. -/
def Env.hooksLoad (e : Env) (a : Word) : Bool := e.readHooks.contains a

/-- A store at `a` has a write hook bound (R47). -/
def Env.hooksStore (e : Env) (a : Word) : Bool := e.writeHooks.contains a

/-- A fetch at `a` has a read hook bound, where `MEM` says that fetches consult them (R47, log 8). -/
def Env.hooksFetch (e : Env) (a : Word) : Bool := e.fetchHooked && e.hooksLoad a

/-- One of the `n` bytes from `a` on is a console address of the flat store (R46). That every byte of an
access is looked up, and those of a fetch too, is the model's choice: log 20; so is that the hook tables do
not matter to this, a hook taking precedence only in the direction it is bound in: log 7. -/
def Env.atConsole (e : Env) (a : Word) (n : Nat) : Bool :=
  e.console.any fun c => decide ((c - a).toNat < n)

/-- Something other than the flat store's bytes answers a load: a read hook or a console address. -/
def Env.bindsLoad (e : Env) (w : Width) (a : Word) : Bool := e.hooksLoad a || e.atConsole a (size w).toNat

/-- The same of a store. -/
def Env.bindsStore (e : Env) (w : Width) (a : Word) : Bool :=
  e.hooksStore a || e.atConsole a (size w).toNat

/-- The same of a fetch: the model's choice, log 8 and log 20. -/
def Env.bindsFetch (e : Env) (a : Word) : Bool := e.hooksFetch a || e.atConsole a windowBytes

/-- Sends `q` and takes the environment's answer: the next scripted one, else a free value (log 5). -/
def Env.ask (e : Env) (q : Request) : Answer × Env :=
  match e.answers with
  | a :: rest => (a, { e with answers := rest, requests := e.requests ++ [q] })
  | [] => (Config.freeAnswer e.asked,
      { e with asked := e.asked + 1, requests := e.requests ++ [q] })

/-- The answer to `q`. -/
def State.answer (s : State) (q : Request) : Answer := (s.env.ask q).1

/-- The bytes a hook writes while it is asked, whether or not it then replies (R49). -/
def answerTouched : Answer → List (Word × Byte)
  | .value _ l => l
  | .error _ l => l
  | .never l => l

/-- The memory after those writes, in order. -/
def Memory.touch (m : Memory) (l : List (Word × Byte)) : Memory :=
  match l with
  | [] => m
  | (a, b) :: rest => Memory.touch (m.write a.toNat b) rest

/-- The state once `q` is sent and answered. No hook reaches the registers (R209). -/
def State.sent (s : State) (q : Request) : State :=
  { s with env := (s.env.ask q).2, mem := s.mem.touch (answerTouched (s.answer q)) }

/-- The state once `q` has hit a console address: `q` is logged as a possible character output. Whether loads,
stores or both trigger the output is not given (R46); that every load, store and fetch is logged alike is
the model's choice: log 7. -/
def State.hitConsole (s : State) (q : Request) : State :=
  { s with env := { s.env with consoleRequests := s.env.consoleRequests ++ [q] } }

/-- The free value of the next access of a console address (log 7). -/
def State.consoleValue (s : State) : BitVec 48 := Config.freeConsole s.env.consoleRequests.length

/-- A load of the flat store (R41): its bytes; any value if one of them is at a console address (R46). It
never faults (R43): the guard of a word has passed before. -/
def flatLoad (w : Width) (a : Word) (s : State) : Res Word :=
  if s.env.atConsole a (size w).toNat then
    .ok (s.consoleValue.setWidth 16 &&& mask w) (s.hitConsole (.load a w))
  else .ok (s.stored w a) s

/-- A store to the flat store (R41): its bytes; any value in them if one is at a console address (R46). It
never faults (R43). -/
def flatStore (w : Width) (a : Word) (v : Word) (s : State) : Res Unit :=
  if s.env.atConsole a (size w).toNat then
    .ok () ((s.hitConsole (.store a w (v &&& mask w))).putStored w a (s.consoleValue.setWidth 16))
  else .ok () (s.putStored w a v)

/-- The bytes of an answered window, the lowest address first. -/
def windowOfAnswer (v : BitVec 48) : List Byte :=
  (List.range windowBytes).map fun k => v.extractLsb' (8 * k) 8

/-- A fetch of the flat store (R41). That a window over a console address is any six bytes is the model's
choice (R46 is silent on fetches): log 20. -/
def flatFetch (a : Word) (s : State) : Res (List Byte) :=
  if s.env.atConsole a windowBytes then
    .ok (windowOfAnswer s.consoleValue) (s.hitConsole (.fetch a))
  else .ok (s.windowAt a) s

/-- LoadByte and LoadWord (R40): the guard, then the hook if one is bound, else the flat store. A read
hook's error falls back to the flat store as it is once the hook has answered (R47); that this fallback at a
console address is a console access, reading any value, is the model's choice (R46 is silent): log 7. So is
that a load of a console address with only a write hook bound stays a console access: log 7. -/
def load (w : Width) (a : Word) (s : State) : Res Word :=
  match accessGuard s.params w a with
  | some f => raise f s
  | none =>
    if s.env.hooksLoad a then
      match s.answer (.load a w) with
      | .value v _ => .ok (v.setWidth 16 &&& mask w) (s.sent (.load a w))
      | .error _ _ => flatLoad w a (s.sent (.load a w))
      | .never _ => raise (Fault.noReply a) (s.sent (.load a w))
    else flatLoad w a s

/-- StoreByte and StoreWord (R40): the guard, then the hook if one is bound, else the flat store. A write
hook replaces the store, and its error is the operation's (R47, R198). That a store to a console address with only
a read hook bound stays a console access is the model's choice (R46 names no direction): log 7. -/
def store (w : Width) (a : Word) (v : Word) (s : State) : Res Unit :=
  match accessGuard s.params w a with
  | some f => raise f s
  | none =>
    if s.env.hooksStore a then
      match s.answer (.store a w (v &&& mask w)) with
      | .value _ _ => .ok () (s.sent (.store a w (v &&& mask w)))
      | .error e _ => raise (Fault.collaborator e) (s.sent (.store a w (v &&& mask w)))
      | .never _ => raise (Fault.noReply a) (s.sent (.store a w (v &&& mask w)))
    else flatStore w a v s

/-- Fetch6 (R40, R45). A hook's error falls back as a load's does: the model's choice (log 7, log 8). -/
def fetch6 (a : Word) (s : State) : Res (List Byte) :=
  match fetchGuardAt s.params a with
  | some f => raise f s
  | none =>
    if s.env.hooksFetch a then
      match s.answer (.fetch a) with
      | .value v _ => .ok (windowOfAnswer v) (s.sent (.fetch a))
      | .error _ _ => flatFetch a (s.sent (.fetch a))
      | .never _ => raise (Fault.noReply a) (s.sent (.fetch a))
    else flatFetch a s

/-- The first half of a step (R90): fetch at the PC, decode, and advance the PC past the instruction. -/
def fetchInstr (s : State) : Res Instr :=
  (fetch6 s.regs.pc s).andThen fun bytes s1 =>
    match decode bytes with
    | .ok i => .ok i (s1.setReg .pc (s.regs.pc + BitVec.ofNat 16 (instrWidth i)))
    | .error _ => raise Fault.tooShort s1

end Sys2Proof.Machine
end

