-- ==== Sys2Proof/Machine/Flags.lean ====
section
/-! DEFINITION. The flags in SR (10_state.md R23, R27) and every result and flag computation (40_operands_and_step.md R106, R107; 41_single_operand.md; 43_double_operand.md). -/

namespace Sys2Proof.Machine

/-- C, Z, N and V. -/
structure Flags where
  c : Bool
  z : Bool
  n : Bool
  v : Bool
deriving DecidableEq, Repr

/-- C is SR bit 0, Z bit 1, N bit 2, V bit 8 (R23). -/
def flagsOf (sr : Word) : Flags :=
  { c := sr.getLsbD 0, z := sr.getLsbD 1, n := sr.getLsbD 2, v := sr.getLsbD 8 }

/-- `x` if the flag is set. -/
def flagBit (b : Bool) (x : Word) : Word := if b then x else 0#16

/-- SR with its four flags replaced and its other bits kept (R24, R27). -/
def withFlags (f : Flags) (sr : Word) : Word :=
  (sr &&& 0xFEF8#16) ||| (flagBit f.c 0x0001#16 ||| flagBit f.z 0x0002#16
    ||| flagBit f.n 0x0004#16 ||| flagBit f.v 0x0100#16)

def State.flags (s : State) : Flags := flagsOf s.regs.sr

def State.setFlags (s : State) (f : Flags) : State := s.setReg .sr (withFlags f s.regs.sr)

/-- A result and the flags after it. -/
structure Alu where
  val : Word
  flags : Flags
deriving DecidableEq, Repr

/-- The N of a result (R106). -/
def negative (r : Word) (w : Width) : Bool := r &&& msb w != 0#16

/-- The Z of a result (R106). -/
def isZero (r : Word) : Bool := r == 0#16

/-- `AddCore` (R107): the exact sum, narrowed; C the carry out, V the signed overflow. -/
def addCore (a b : Word) (cin : Bool) (w : Width) : Alu :=
  let t := a.toNat + b.toNat + cin.toNat
  let r := BitVec.ofNat 16 t &&& mask w
  { val := r,
    flags := { c := decide ((mask w).toNat < t), z := isZero r, n := negative r w,
               v := (a ^^^ r) &&& (b ^^^ r) &&& msb w != 0#16 } }

/-! ## Single-operand results: the operand `v`, the flags before -/

/-- RRC (R121): the old C enters at the top, bit 0 leaves into C. -/
def aluRrc (w : Width) (v : Word) (old : Flags) : Alu :=
  let r := (v >>> 1) ||| flagBit old.c (msb w)
  { val := r, flags := { c := v.getLsbD 0, z := isZero r, n := negative r w, v := false } }

/-- SWPB (R122): the bytes exchanged, no flag changed. -/
def aluSwpb (v : Word) (old : Flags) : Alu :=
  { val := wordOfBytes (highByte v) (lowByte v), flags := old }

/-- RRA (R123): the sign bit kept, bit 0 leaves into C. -/
def aluRra (w : Width) (v : Word) (_old : Flags) : Alu :=
  let r := (v >>> 1) ||| (v &&& msb w)
  { val := r, flags := { c := v.getLsbD 0, z := isZero r, n := negative r w, v := false } }

/-- SXT (R124): bit 7 extended over bits 15:8; C is NOT Z. -/
def aluSxt (v : Word) (_old : Flags) : Alu :=
  let r := (lowByte v).signExtend 16
  { val := r, flags := { c := !isZero r, z := isZero r, n := negative r .word, v := false } }

/-! ## Double-operand results: source `s`, destination `d`, the flags before -/

/-- MOV (R161): the source, no flag changed. -/
def aluMov (s _d : Word) (old : Flags) : Alu := { val := s, flags := old }

/-- ADD (R162) -/
def aluAdd (w : Width) (s d : Word) (_old : Flags) : Alu := addCore d s false w

/-- ADDC (R163): the C before the instruction is added. -/
def aluAddc (w : Width) (s d : Word) (old : Flags) : Alu := addCore d s old.c w

/-- SUBC (R164): `d + ~s + C`. -/
def aluSubc (w : Width) (s d : Word) (old : Flags) : Alu := addCore d (~~~s &&& mask w) old.c w

/-- SUB and CMP (R165, R166): `d + ~s + 1`. -/
def aluSub (w : Width) (s d : Word) (_old : Flags) : Alu := addCore d (~~~s &&& mask w) true w

/-- BIT and AND (R168, R172): C is NOT Z, V is 0. -/
def aluAnd (w : Width) (s d : Word) (_old : Flags) : Alu :=
  let r := s &&& d
  { val := r, flags := { c := !isZero r, z := isZero r, n := negative r w, v := false } }

/-- BIC (R169): the source inverted first, no flag changed. -/
def aluBic (w : Width) (s d : Word) (old : Flags) : Alu :=
  { val := (~~~s &&& mask w) &&& d, flags := old }

/-- BIS (R170): no flag changed. -/
def aluBis (s d : Word) (old : Flags) : Alu := { val := s ||| d, flags := old }

/-- XOR (R171): C is NOT Z, V is set when both operands are negative. -/
def aluXor (w : Width) (s d : Word) (_old : Flags) : Alu :=
  let r := s ^^^ d
  { val := r, flags := { c := !isZero r, z := isZero r, n := negative r w,
                         v := negative s w && negative d w } }

end Sys2Proof.Machine
end

