-- ==== Sys2Proof/Machine/Operands.lean ====
section
/-! DEFINITION. Where an operand is, reading it and writing it, in every addressing mode (40_operands_and_step.md R93 to R105), and the common parts of the two operand families (41_single_operand.md R120; 43_double_operand.md R160). -/

namespace Sys2Proof.Machine

/-- The location of an operand (R94). `noLoc k` is an operand that only has the value `k`. -/
inductive Loc where
  | reg (r : Reg)
  | mem (ea : Word)
  | noLoc (k : Word)
deriving DecidableEq, Repr

/-- The six constants (R68). -/
def constValue : Const → Word
  | .zero => 0x0000#16
  | .one => 0x0001#16
  | .two => 0x0002#16
  | .minusOne => 0xFFFF#16
  | .four => 0x0004#16
  | .eight => 0x0008#16

/-- Where a source operand is (R95 to R101). The PC read here is the advanced one (R91). -/
def srcLoc (o : SrcOperand) (s : State) : Loc :=
  match o with
  | .reg r => .reg r
  | .indexed r x => .mem (s.reg r + x)
  | .absolute x => .mem x
  | .indirect r => .mem (s.reg r)
  | .indirectInc r => .mem (s.reg r)
  | .immediate x => .noLoc x
  | .const c => .noLoc (constValue c)

/-- `LocateDst` (R102). -/
def locateDst (o : DstOperand) (s : State) : Loc :=
  match o with
  | .reg r => .reg r
  | .indexed r x => .mem (s.reg r + x)
  | .absolute x => .mem x
  | .const c => .noLoc (constValue c)

/-- The value at a location, `mask(w)` bits wide (R95 to R101, R103). -/
def readLoc (l : Loc) (w : Width) (s : State) : Res Word :=
  match l with
  | .reg r => .ok (s.reg r &&& mask w) s
  | .mem ea => load w ea s
  | .noLoc k => .ok (k &&& mask w) s

/-- The post-increment of `@Rn+`: 2 for a word, 1 for a byte, r1 included (R99). -/
def postIncrement (o : SrcOperand) (w : Width) (s : State) : State :=
  match o with
  | .indirectInc r => s.setReg r (s.reg r + size w)
  | .reg _ => s
  | .indexed _ _ => s
  | .absolute _ => s
  | .indirect _ => s
  | .immediate _ => s
  | .const _ => s

/-- `ReadSrc` (R94): the value, then the post-increment; a read that faults does not increment. -/
def readSrc (o : SrcOperand) (w : Width) (s : State) : Res Word :=
  (readLoc (srcLoc o s) w s).andThen fun v s1 => .ok v (postIncrement o w s1)

/-- `Write` (R104): a byte result in a register is zero-extended; an operand with no location raises
BadOperand. -/
def writeLoc (w0 : Word) (l : Loc) (w : Width) (v : Word) (s : State) : Res Unit :=
  match l with
  | .reg r => .ok () (s.setReg r (v &&& mask w))
  | .mem ea => store w ea (v &&& mask w) s
  | .noLoc _ => raise (Fault.badOperand w0) s

/-- Whether the prefix of a single-operand word is refused (R63, R120). -/
def prefixRefused (pre : BitVec 3) (p : Params) : Bool := p.sopPrefix == .strict && pre != 0b100#3

/-- The common part of the single-operand family (R120): the prefix test, then the operand. -/
def singleOperand (w0 : Word) (pre : BitVec 3) (w : Width) (o : SrcOperand) (s : State) : Res Word :=
  if prefixRefused pre s.params then raise (Fault.unsupported w0) s else readSrc o w s

/-- RRC, SWPB, RRA and SXT: the operand is read, the flags are written, and the result goes to the
location the operand was read from, which is not resolved again (R108, R120). -/
def rewriteOperand (w0 : Word) (pre : BitVec 3) (w : Width) (o : SrcOperand)
    (f : Word → Flags → Alu) (s : State) : Res Unit :=
  (singleOperand w0 pre w o s).andThen fun v s1 =>
    writeLoc w0 (srcLoc o s) w (f v s1.flags).val (s1.setFlags (f v s1.flags).flags)

/-- PUSH and CALL: SP is decremented by 2, then `v` is stored at it (R125, R126). -/
def pushValue (w : Width) (v : Word) (s : State) : Res Unit :=
  store w (s.regs.sp - 2#16) v (s.setReg .sp (s.regs.sp - 2#16))

/-- The destination's value, if the instruction reads it (R103). -/
def readDst (reads : Bool) (l : Loc) (w : Width) (s : State) : Res Word :=
  if reads then readLoc l w s else .ok 0#16 s

/-- The common part of the double-operand family (R160): source, destination location and value, flags,
then the result if the opcode writes one (R108). -/
def twoOperand (w0 : Word) (reads writes : Bool) (w : Width) (src : SrcOperand) (dst : DstOperand)
    (f : Word → Word → Flags → Alu) (s : State) : Res Unit :=
  (readSrc src w s).andThen fun v s1 =>
    (readDst reads (locateDst dst s1) w s1).andThen fun d s2 =>
      if writes then
        writeLoc w0 (locateDst dst s1) w (f v d s2.flags).val (s2.setFlags (f v d s2.flags).flags)
      else .ok () (s2.setFlags (f v d s2.flags).flags)

end Sys2Proof.Machine
end

