-- ==== Sys2Proof/Machine/DoubleOperand.lean ====
section
/-! DEFINITION. The double-operand instructions (43_double_operand.md R160 to R173). -/

namespace Sys2Proof.Machine

/-- MOV (R161): the destination is read only if `P_MOV_READS_DST` (R103). -/
def execMov (bw : Width) (src : SrcOperand) (dst : DstOperand) (s : State) :
    Host.Outcome State Fault Refusal :=
  (twoOperand (firstWord (.mov bw src dst)) s.params.movReadsDst true bw src dst aluMov s).outcome

/-- ADD (R162) -/
def execAdd (bw : Width) (src : SrcOperand) (dst : DstOperand) (s : State) :
    Host.Outcome State Fault Refusal :=
  (twoOperand (firstWord (.add bw src dst)) true true bw src dst (aluAdd bw) s).outcome

/-- ADDC (R163) -/
def execAddc (bw : Width) (src : SrcOperand) (dst : DstOperand) (s : State) :
    Host.Outcome State Fault Refusal :=
  (twoOperand (firstWord (.addc bw src dst)) true true bw src dst (aluAddc bw) s).outcome

/-- SUBC (R164) -/
def execSubc (bw : Width) (src : SrcOperand) (dst : DstOperand) (s : State) :
    Host.Outcome State Fault Refusal :=
  (twoOperand (firstWord (.subc bw src dst)) true true bw src dst (aluSubc bw) s).outcome

/-- SUB (R165) -/
def execSub (bw : Width) (src : SrcOperand) (dst : DstOperand) (s : State) :
    Host.Outcome State Fault Refusal :=
  (twoOperand (firstWord (.sub bw src dst)) true true bw src dst (aluSub bw) s).outcome

/-- CMP (R166): SUB's flags, nothing stored. -/
def execCmp (bw : Width) (src : SrcOperand) (dst : DstOperand) (s : State) :
    Host.Outcome State Fault Refusal :=
  (twoOperand (firstWord (.cmp bw src dst)) true false bw src dst (aluSub bw) s).outcome

/-- DADD (R167): unimplemented (90_conflicts.md C2); Unsupported before any operand access. -/
def execDadd (bw : Width) (src : SrcOperand) (dst : DstOperand) (s : State) :
    Host.Outcome State Fault Refusal :=
  (raise (Fault.unsupported (firstWord (.dadd bw src dst))) s : Res Unit).outcome

/-- BIT (R168): AND's flags, nothing stored. -/
def execBit (bw : Width) (src : SrcOperand) (dst : DstOperand) (s : State) :
    Host.Outcome State Fault Refusal :=
  (twoOperand (firstWord (.bit bw src dst)) true false bw src dst (aluAnd bw) s).outcome

/-- BIC (R169) -/
def execBic (bw : Width) (src : SrcOperand) (dst : DstOperand) (s : State) :
    Host.Outcome State Fault Refusal :=
  (twoOperand (firstWord (.bic bw src dst)) true true bw src dst (aluBic bw) s).outcome

/-- BIS (R170) -/
def execBis (bw : Width) (src : SrcOperand) (dst : DstOperand) (s : State) :
    Host.Outcome State Fault Refusal :=
  (twoOperand (firstWord (.bis bw src dst)) true true bw src dst aluBis s).outcome

/-- XOR (R171) -/
def execXor (bw : Width) (src : SrcOperand) (dst : DstOperand) (s : State) :
    Host.Outcome State Fault Refusal :=
  (twoOperand (firstWord (.xor bw src dst)) true true bw src dst (aluXor bw) s).outcome

/-- AND (R172) -/
def execAnd (bw : Width) (src : SrcOperand) (dst : DstOperand) (s : State) :
    Host.Outcome State Fault Refusal :=
  (twoOperand (firstWord (.and bw src dst)) true true bw src dst (aluAnd bw) s).outcome

end Sys2Proof.Machine
end

