-- ==== Sys2Proof/Machine/Jump.lean ====
section
/-! DEFINITION. The conditional jumps (42_jump.md R140 to R148). -/

namespace Sys2Proof.Machine

/-- `ExecJump` (R140): a taken jump adds its byte offset to the advanced PC. -/
def jumpIf (taken : Bool) (off : BitVec 10) (s : State) : Host.Outcome State Fault Refusal :=
  .next (if taken then s.setReg .pc (s.regs.pc + jumpOffset off) else s)

/-- JNE / JNZ (R141): Z = 0 -/
def execJne (off : BitVec 10) (s : State) : Host.Outcome State Fault Refusal :=
  jumpIf (!s.flags.z) off s

/-- JEQ / JZ (R142): Z = 1 -/
def execJeq (off : BitVec 10) (s : State) : Host.Outcome State Fault Refusal :=
  jumpIf s.flags.z off s

/-- JNC / JLO (R143): C = 0 -/
def execJnc (off : BitVec 10) (s : State) : Host.Outcome State Fault Refusal :=
  jumpIf (!s.flags.c) off s

/-- JC / JHS (R144): C = 1 -/
def execJc (off : BitVec 10) (s : State) : Host.Outcome State Fault Refusal :=
  jumpIf s.flags.c off s

/-- JN (R145): N = 1 -/
def execJn (off : BitVec 10) (s : State) : Host.Outcome State Fault Refusal :=
  jumpIf s.flags.n off s

/-- JGE (R146): N xor V = 0 -/
def execJge (off : BitVec 10) (s : State) : Host.Outcome State Fault Refusal :=
  jumpIf (!(s.flags.n ^^ s.flags.v)) off s

/-- JL (R147): N xor V = 1 -/
def execJl (off : BitVec 10) (s : State) : Host.Outcome State Fault Refusal :=
  jumpIf (s.flags.n ^^ s.flags.v) off s

/-- JMP (R148): always -/
def execJmp (off : BitVec 10) (s : State) : Host.Outcome State Fault Refusal :=
  jumpIf true off s

end Sys2Proof.Machine
end

