-- ==== Sys2Proof/Machine/SingleOperand.lean ====
section
/-! DEFINITION. The single-operand instructions (41_single_operand.md R120 to R128). -/

namespace Sys2Proof.Machine

/-- RRC (R121) -/
def execRrc (pre : BitVec 3) (bw : Width) (src : SrcOperand) (s : State) :
    Host.Outcome State Fault Refusal :=
  (rewriteOperand (firstWord (.rrc pre bw src)) pre bw src (aluRrc bw) s).outcome

/-- SWPB (R122): a word operation whatever the B/W bit is (R93). -/
def execSwpb (pre : BitVec 3) (bw : Width) (src : SrcOperand) (s : State) :
    Host.Outcome State Fault Refusal :=
  (rewriteOperand (firstWord (.swpb pre bw src)) pre .word src aluSwpb s).outcome

/-- RRA (R123; its value follows 90_conflicts.md C1) -/
def execRra (pre : BitVec 3) (bw : Width) (src : SrcOperand) (s : State) :
    Host.Outcome State Fault Refusal :=
  (rewriteOperand (firstWord (.rra pre bw src)) pre bw src (aluRra bw) s).outcome

/-- SXT (R124): a word operation whatever the B/W bit is (R93). -/
def execSxt (pre : BitVec 3) (bw : Width) (src : SrcOperand) (s : State) :
    Host.Outcome State Fault Refusal :=
  (rewriteOperand (firstWord (.sxt pre bw src)) pre .word src aluSxt s).outcome

/-- PUSH (R125): the operand is read before SP is decremented. -/
def execPush (pre : BitVec 3) (bw : Width) (src : SrcOperand) (s : State) :
    Host.Outcome State Fault Refusal :=
  ((singleOperand (firstWord (.push pre bw src)) pre bw src s).andThen fun v s1 =>
    pushValue bw v s1).outcome

/-- CALL (R126): a word operation whatever the B/W bit is (R93); the advanced PC is pushed, then the PC
takes the target. -/
def execCall (pre : BitVec 3) (bw : Width) (src : SrcOperand) (s : State) :
    Host.Outcome State Fault Refusal :=
  ((singleOperand (firstWord (.call pre bw src)) pre .word src s).andThen fun v s1 =>
    (pushValue .word s1.regs.pc s1).andThen fun _ s2 => .ok () (s2.setReg .pc v)).outcome

/-- RETI (R127): unimplemented; Unsupported before any operand access. -/
def execReti (pre : BitVec 3) (bw : Width) (src : SrcOperand) (s : State) :
    Host.Outcome State Fault Refusal :=
  (raise (Fault.unsupported (firstWord (.reti pre bw src))) s : Res Unit).outcome

/-- Single-operand opcode 7 (R128): reserved; Unsupported before any operand access. -/
def execReserved7 (pre : BitVec 3) (bw : Width) (src : SrcOperand) (s : State) :
    Host.Outcome State Fault Refusal :=
  (raise (Fault.unsupported (firstWord (.reserved7 pre bw src))) s : Res Unit).outcome

end Sys2Proof.Machine
end

