-- ==== Sys2Proof/Machine/Dispatch.lean ====
section
/-! DEFINITION. `Execute` (40_operands_and_step.md R92): one arm per instruction, each calling its meaning. -/

namespace Sys2Proof.Machine

def exec (i : Instr) (s : State) : Host.Outcome State Fault Refusal :=
  match i with
  -- single-operand family
  | .rrc pre bw src => Sys2Proof.Machine.execRrc pre bw src s
  | .swpb pre bw src => Sys2Proof.Machine.execSwpb pre bw src s
  | .rra pre bw src => Sys2Proof.Machine.execRra pre bw src s
  | .sxt pre bw src => Sys2Proof.Machine.execSxt pre bw src s
  | .push pre bw src => Sys2Proof.Machine.execPush pre bw src s
  | .call pre bw src => Sys2Proof.Machine.execCall pre bw src s
  | .reti pre bw src => Sys2Proof.Machine.execReti pre bw src s
  | .reserved7 pre bw src => Sys2Proof.Machine.execReserved7 pre bw src s
  -- conditional-jump family
  | .jne off => Sys2Proof.Machine.execJne off s
  | .jeq off => Sys2Proof.Machine.execJeq off s
  | .jnc off => Sys2Proof.Machine.execJnc off s
  | .jc off => Sys2Proof.Machine.execJc off s
  | .jn off => Sys2Proof.Machine.execJn off s
  | .jge off => Sys2Proof.Machine.execJge off s
  | .jl off => Sys2Proof.Machine.execJl off s
  | .jmp off => Sys2Proof.Machine.execJmp off s
  -- double-operand family
  | .mov bw src dst => Sys2Proof.Machine.execMov bw src dst s
  | .add bw src dst => Sys2Proof.Machine.execAdd bw src dst s
  | .addc bw src dst => Sys2Proof.Machine.execAddc bw src dst s
  | .subc bw src dst => Sys2Proof.Machine.execSubc bw src dst s
  | .sub bw src dst => Sys2Proof.Machine.execSub bw src dst s
  | .cmp bw src dst => Sys2Proof.Machine.execCmp bw src dst s
  | .dadd bw src dst => Sys2Proof.Machine.execDadd bw src dst s
  | .bit bw src dst => Sys2Proof.Machine.execBit bw src dst s
  | .bic bw src dst => Sys2Proof.Machine.execBic bw src dst s
  | .bis bw src dst => Sys2Proof.Machine.execBis bw src dst s
  | .xor bw src dst => Sys2Proof.Machine.execXor bw src dst s
  | .and bw src dst => Sys2Proof.Machine.execAnd bw src dst s

end Sys2Proof.Machine
end

