-- ==== Sys2Proof/Machine/Step.lean ====
section
/-! DEFINITION. One step of the block (40_operands_and_step.md R90), and the state in which the next step runs a given instruction. -/

namespace Sys2Proof.Machine

/-- `Step()` (R90): fetch, decode, advance the PC, execute. A next state whose CPUOFF is 1 is the status
Halted (R109, R199): the block holds no halted state, and the next step runs normally. -/
def step (s : State) : Host.Outcome State Fault Refusal :=
  match fetchInstr s with
  | .ok i s1 => exec i s1
  | .fault f => .fault f

/-- `s` with the instruction whose first `nbits` bits are `w` stored at the PC, the rest of its six bytes
zero. A program is loaded from outside the machine; this stands for that load (log 11), into a machine whose
window no hook and no console address answers (log 19). -/
def State.withFetchWord (s : State) (nbits w : Nat) : State :=
  placeBytes s.regs.pc (tableBytes nbits w)
    { s with env := { s.env with console := [], fetchHooked := false } }

end Sys2Proof.Machine
end

