-- ==== Sys2Proof/Machine/HostPort.lean ====
section
/-! DEFINITION. What the host sees and does between steps: the step status (60_exceptions.md R190), the register port (00_scope.md R8), the host's memory operations (20_memory.md R40; 70_reset_and_hazards.md R222) and the host's reset (R221, R224). -/

namespace Sys2Proof.Machine

/-- The status a step ends with (R190). -/
inductive Status where
  | ok
  | halted
  | fault (f : Fault)
  /-- the model's refusal of an instruction it gives no meaning; no arm of `exec` answers it -/
  | refused (r : Refusal)
deriving DecidableEq, Repr

/-- The code of a status (R191): Halted is code 0 of this type and no fault; a fault has its kind's code. The
spec numbers no other status. -/
def Status.code : Status → Option Nat
  | .ok => none
  | .halted => some 0
  | .fault f => f.code
  | .refused _ => none

/-- The status of an outcome: Halted is the level of SR[4] after a completed instruction (R109, R199). -/
def statusOf (o : Host.Outcome State Fault Refusal) : Status :=
  match o with
  | .next t => if t.cpuOff then .halted else .ok
  | .fault f => .fault f
  | .refused r => .refused r

/-- The status of the next step. -/
def stepStatus (s : State) : Status := statusOf (step s)

/-- "get full register file": r3 has no value to give (R25). -/
def registerFile (s : State) : RegFile := s.regs

/-- "set full register file": sixteen values, the one for r3 ignored (R25). -/
def setRegisterFile (x : Vector Word 16) (s : State) : State :=
  { s with regs := { pc := x[0], sp := x[1], sr := x[2], r4 := x[4], r5 := x[5], r6 := x[6],
                     r7 := x[7], r8 := x[8], r9 := x[9], r10 := x[10], r11 := x[11], r12 := x[12],
                     r13 := x[13], r14 := x[14], r15 := x[15] } }

/-- "reset-to-zero" of the memory (R222): the stored bytes; no hook and no console address takes part, the
model's choice (log 21). -/
def resetMemory (s : State) : State := { s with mem := [] }

/-- The data bytes of an image record, written sequentially from the base address (R222): into the stored
bytes, past guards, hooks and console addresses, the model's choice (log 21); past 0xFFFF on to 0x0000
(log 9). -/
def loadImage (base : Word) (bytes : List Byte) (s : State) : State := placeBytes base bytes s

/-- "bulk range read" (R40): the stored bytes, past guards, hooks and console addresses, the model's choice
(log 21); past 0xFFFF on to 0x0000 (log 9). -/
def readRange (a : Word) (n : Nat) (s : State) : List Byte :=
  (List.range n).map fun k => s.byteAt (a + BitVec.ofNat 16 k)

/-- The host's reset of an instance (R220, R221, R224): memory to zero, the image, the registers. -/
def hostReset (x : Vector Word 16) (base : Word) (image : List Byte) (s : State) : State :=
  setRegisterFile x (loadImage base image (resetMemory s))

/-- The decode port on the bytes of memory from `a` on, as the disassembler uses it (R8, R192): fewer
than six bytes are supplied near the top of the space. It reads the stored bytes, as `readRange` does, the
model's choice (log 21). -/
def decodeAt (a : Word) (s : State) : Except DecodeError Instr :=
  decode (readRange a (min windowBytes (65536 - a.toNat)) s)

end Sys2Proof.Machine
end

