-- ==== Sys2Proof/Machine/Actor.lean ====
section
/-! DEFINITION. The host contract: the per-instance actor around the block (60_exceptions.md R205 to R208). It stands outside the block (00_scope.md R5) and changes nothing in it but through steps and the host's ports. -/

namespace Sys2Proof.Machine

/-- The run states (R205). -/
inductive RunState where
  | stopped
  | running
  | fault
  | stepping
deriving DecidableEq, Repr

/-- The breakpoint kinds (R207). -/
inductive BreakKind where
  | stop
  | step
  | trace
deriving DecidableEq, Repr

/-- The control messages of R205, and the host's accesses to the block, all of which go through the mailbox
(R205, R208). -/
inductive Message where
  | boot
  | continueRun
  | stepOnce
  | stopRun
  | setRegisters (x : Vector Word 16)
  | zeroMemory
  | image (base : Word) (bytes : List Byte)
  | setBreakpoint (a : Word) (k : BreakKind)
  | clearBreakpoint (a : Word)
  /-- read the register file (R8) -/
  | getRegisters
  /-- read `n` bytes of memory from `a` on (R40) -/
  | readMemory (a : Word) (n : Nat)
  /-- decode the instruction at `a`, for the disassembler (R8, R192) -/
  | disassemble (a : Word)
deriving DecidableEq, Repr

/-- The answer to a read. -/
inductive Reply where
  | registers (f : RegFile)
  | bytes (l : List Byte)
  | instr (i : Instr)
  /-- the decode port's fault (R192), "handled as data" -/
  | tooShort
deriving DecidableEq, Repr

/-- One instance (R205, R207). `frozen`: a collaborator never replied, so the instance is frozen
indefinitely (R208). `replies`: the answers to the reads serviced so far, oldest first. -/
structure Actor where
  cpu : State
  run : RunState
  breakpoints : List (Word × BreakKind)
  mailbox : List Message
  lastFault : Option Fault
  frozen : Bool
  replies : List Reply
deriving DecidableEq, Repr

/-- Whether a fault is the step that does not return. -/
def Fault.hangs : Fault → Bool
  | .noReply _ _ => true
  | .tooShort _ => false
  | .badOperand _ _ => false
  | .addressTooHigh _ _ => false
  | .addressUnaligned _ _ => false
  | .unsupported _ _ => false
  | .collaborator _ _ => false

/-- One step of the block, as the actor takes it (R206): a fault enters the Fault state, Halted stops
free-running (the run state is the host's choice: log 13). A step that does not return freezes the
instance (R208); that it then stands at Fault with `lastFault` set is the model's choice, since the spec
gives a frozen instance no run state: log 10. -/
def Actor.blockStep (x : Actor) : Actor :=
  match step x.cpu with
  | .next t => { x with cpu := t, run := if t.cpuOff then .stopped else x.run }
  | .fault f => { x with cpu := f.left, run := .fault, lastFault := some f, frozen := f.hangs }
  | .refused _ => { x with run := .fault }

/-- The breakpoint at the current, not yet executed PC (R207). -/
def Actor.breakpoint (x : Actor) : Option BreakKind := x.breakpoints.lookup x.cpu.regs.pc

/-- Suspends, unless the step faulted. -/
def Actor.suspend (x : Actor) : Actor :=
  match x.run with
  | .fault => x
  | .stopped => x
  | .running => { x with run := .stopped }
  | .stepping => { x with run := .stopped }

/-- One step with its breakpoint looked up before it (R207): a Stop breakpoint suspends before the
instruction, a Step breakpoint after it, Trace does nothing. -/
def Actor.runStep (x : Actor) : Actor :=
  match x.breakpoint with
  | some .stop => { x with run := .stopped }
  | some .step => x.blockStep.suspend
  | some .trace => x.blockStep
  | none => x.blockStep

/-- The decode port's answer as data (R192). -/
def Reply.ofDecode (r : Except DecodeError Instr) : Reply :=
  match r with
  | .ok i => .instr i
  | .error _ => .tooShort

/-- Puts a reply behind the earlier ones. -/
def Actor.reply (x : Actor) (r : Reply) : Actor := { x with replies := x.replies ++ [r] }

/-- Servicing one message (R205): boot runs, continue runs with one step first, step takes one step and
stops, stop stops. The step of continue and of step looks its breakpoint up like any other (R207, log 13).
The spec does not say which request re-arms a faulted instance (R202): that boot, continue and step each
do, going on directly from Fault, is the model's choice (log 13). The host's accesses change or read the
block between steps (R208); reads answer in every run state (R202). -/
def Actor.service (m : Message) (x : Actor) : Actor :=
  match m with
  | .boot => { x with run := .running }
  | .continueRun => Actor.runStep { x with run := .running }
  | .stepOnce => (Actor.runStep { x with run := .stepping }).suspend
  | .stopRun => { x with run := .stopped }
  | .setRegisters r => { x with cpu := setRegisterFile r x.cpu }
  | .zeroMemory => { x with cpu := resetMemory x.cpu }
  | .image a bytes => { x with cpu := loadImage a bytes x.cpu }
  | .setBreakpoint a k => { x with breakpoints := (a, k) :: x.breakpoints.filter (·.1 != a) }
  | .clearBreakpoint a => { x with breakpoints := x.breakpoints.filter (·.1 != a) }
  | .getRegisters => x.reply (.registers (registerFile x.cpu))
  | .readMemory a n => x.reply (.bytes (readRange a n x.cpu))
  | .disassemble a => x.reply (Reply.ofDecode (decodeAt a x.cpu))

/-- One turn of the actor (R205): a waiting message first, else exactly one step while Running. -/
def Actor.turn (x : Actor) : Actor :=
  if x.frozen then x else
    match x.mailbox with
    | m :: rest => Actor.service m { x with mailbox := rest }
    | [] =>
      match x.run with
      | .running => x.runStep
      | .stopped => x
      | .fault => x
      | .stepping => x

/-- An instance on first lookup (R220): created, stopped, with no breakpoint (log 13). -/
def Actor.create (s : State) : Actor :=
  { cpu := s, run := .stopped, breakpoints := [], mailbox := [], lastFault := none, frozen := false,
    replies := [] }

end Sys2Proof.Machine
end

