-- ==== Sys2Proof/Safety.lean ====
section
/-! DEFINITION. The words the statements use: accesses and operands that need no answer from the environment and meet the guards, what they read and leave, and the invariant of every step. -/

namespace Sys2Proof.Machine

/-- An access of width `w` at `a` that the memory port answers from the flat store: the guard lets it
pass (R43, R44) and nothing is bound at `a` for it (R46, R47). -/
def PlainLoad (w : Width) (a : Word) (s : State) : Prop :=
  (w = .word → a.getLsbD 0 = false ∧ ¬ 0xFFFF - a.toNat < s.params.wordGuard)
    ∧ s.env.bindsLoad w a = false

/-- The same of a store. -/
def PlainStore (w : Width) (a : Word) (s : State) : Prop :=
  (w = .word → a.getLsbD 0 = false ∧ ¬ 0xFFFF - a.toNat < s.params.wordGuard)
    ∧ s.env.bindsStore w a = false

/-- A location that can be read without the environment. -/
def Readable (l : Loc) (w : Width) (s : State) : Prop :=
  match l with
  | .reg _ => True
  | .mem ea => PlainLoad w ea s
  | .noLoc _ => True

/-- A location that can be written without the environment; an operand with no location cannot (R104). -/
def Writable (l : Loc) (w : Width) (s : State) : Prop :=
  match l with
  | .reg _ => True
  | .mem ea => PlainStore w ea s
  | .noLoc _ => False

/-- What a readable location holds, `mask(w)` bits wide. -/
def valueAt (l : Loc) (w : Width) (s : State) : Word :=
  match l with
  | .reg r => s.reg r &&& mask w
  | .mem ea => s.stored w ea
  | .noLoc k => k &&& mask w

/-- The state with `v` stored at a writable location: a register takes it zero-extended, memory takes
`size(w)` bytes at the address. -/
def putAt (l : Loc) (w : Width) (v : Word) (s : State) : State :=
  match l with
  | .reg r => s.setReg r (v &&& mask w)
  | .mem ea => s.putStored w ea v
  | .noLoc _ => s

/-- The value of a source operand that is readable without the environment. -/
def srcValue (w : Width) (src : SrcOperand) (s : State) : Word := valueAt (srcLoc src s) w s

/-- Where a double-operand instruction's destination is: found after the source's post-increment (R102). -/
def dstLoc (w : Width) (src : SrcOperand) (dst : DstOperand) (s : State) : Loc :=
  locateDst dst (postIncrement src w s)

/-- The value the destination holds before the instruction writes it. -/
def dstValue (w : Width) (src : SrcOperand) (dst : DstOperand) (s : State) : Word :=
  valueAt (dstLoc w src dst s) w (postIncrement src w s)

/-- The source can be read without the environment. -/
def SrcReady (w : Width) (src : SrcOperand) (s : State) : Prop := Readable (srcLoc src s) w s

/-- Both operands of a double-operand instruction can be read without the environment. -/
def BothReady (w : Width) (src : SrcOperand) (dst : DstOperand) (s : State) : Prop :=
  SrcReady w src s ∧ Readable (dstLoc w src dst s) w (postIncrement src w s)

/-- The destination can be written without the environment. -/
def DstWritable (w : Width) (src : SrcOperand) (dst : DstOperand) (s : State) : Prop :=
  Writable (dstLoc w src dst s) w (postIncrement src w s)

/-- Address `b` is one of the bytes an access of width `w` at `a` covers. -/
def Covers (w : Width) (a b : Word) : Prop :=
  match w with
  | .byte => b = a
  | .word => b = a ∨ b = a + 1#16

/-- The signed view of a value of width `w` (R173). -/
def signedAt (w : Width) (v : Word) : Int :=
  match w with
  | .byte => (lowByte v).toInt
  | .word => v.toInt

/-- The number of bits of a width. -/
def bitsOf : Width → Nat
  | .word => 16
  | .byte => 8

/-- An exact integer narrowed to a width, modulo `2^bits` (R173). -/
def narrow (w : Width) (x : Int) : Word := BitVec.ofNat 16 (x % 2 ^ bitsOf w).toNat

/-- An exact integer outside the signed range of a width. -/
def outOfRange (w : Width) (x : Int) : Bool :=
  decide (x < -(2 ^ (bitsOf w - 1)) ∨ 2 ^ (bitsOf w - 1) ≤ x)

/-- The most significant bit of a value of a width. -/
def topBit (w : Width) (v : Word) : Bool := v.getLsbD (bitsOf w - 1)

/-- The eight single-operand instructions of one encoding (R78). -/
def singleForms (pre : BitVec 3) (bw : Width) (src : SrcOperand) : List Instr :=
  [.rrc pre bw src, .swpb pre bw src, .rra pre bw src, .sxt pre bw src, .push pre bw src,
   .call pre bw src, .reti pre bw src, .reserved7 pre bw src]

/-- The double-operand instructions that write a result, but MOV (R160). -/
def computingForms (bw : Width) (src : SrcOperand) (dst : DstOperand) : List Instr :=
  [.add bw src dst, .addc bw src dst, .subc bw src dst, .sub bw src dst, .bic bw src dst,
   .bis bw src dst, .xor bw src dst, .and bw src dst]

/-- The single-operand instructions that write their operand back, each with its effective width
(R93, R120). -/
def rewritingForms (pre : BitVec 3) (bw : Width) (src : SrcOperand) : List (Instr × Width) :=
  [(.rrc pre bw src, bw), (.swpb pre bw src, .word), (.rra pre bw src, bw), (.sxt pre bw src, .word)]

/-- The double-operand instructions that write a result (R160), each with its computation of the result and
the flags. -/
def writingComputations (bw : Width) (src : SrcOperand) (dst : DstOperand) :
    List (Instr × (Word → Word → Flags → Alu)) :=
  [(.mov bw src dst, aluMov), (.add bw src dst, aluAdd bw), (.addc bw src dst, aluAddc bw),
   (.subc bw src dst, aluSubc bw), (.sub bw src dst, aluSub bw), (.bic bw src dst, aluBic bw),
   (.bis bw src dst, aluBis), (.xor bw src dst, aluXor bw), (.and bw src dst, aluAnd bw)]

/-- The single-operand instructions that write their operand back, each with its effective width and its
computation of the result and the flags. -/
def rewritingComputations (pre : BitVec 3) (bw : Width) (src : SrcOperand) :
    List (Instr × Width × (Word → Flags → Alu)) :=
  [(.rrc pre bw src, bw, aluRrc bw), (.swpb pre bw src, .word, aluSwpb),
   (.rra pre bw src, bw, aluRra bw), (.sxt pre bw src, .word, aluSxt)]

/-- The single-operand instructions that read their operand, each with its effective width. -/
def readingForms (pre : BitVec 3) (bw : Width) (src : SrcOperand) : List (Instr × Width) :=
  rewritingForms pre bw src ++ [(.push pre bw src, bw), (.call pre bw src, .word)]

/-- The register a source operand names directly. -/
def srcRegister : SrcOperand → Option Reg
  | .reg r => some r
  | .indexed _ _ => none
  | .absolute _ => none
  | .indirect _ => none
  | .indirectInc _ => none
  | .immediate _ => none
  | .const _ => none

/-- The register a destination operand names directly. -/
def dstRegister : DstOperand → Option Reg
  | .reg r => some r
  | .indexed _ _ => none
  | .absolute _ => none
  | .const _ => none

/-- The register an instruction writes its result to, if its destination is one (R112, R120, R160). -/
def destRegister : Instr → Option Reg
  | .rrc _ _ src => srcRegister src
  | .swpb _ _ src => srcRegister src
  | .rra _ _ src => srcRegister src
  | .sxt _ _ src => srcRegister src
  | .push _ _ _ => none
  | .call _ _ _ => none
  | .reti _ _ _ => none
  | .reserved7 _ _ _ => none
  | .jne _ => none
  | .jeq _ => none
  | .jnc _ => none
  | .jc _ => none
  | .jn _ => none
  | .jge _ => none
  | .jl _ => none
  | .jmp _ => none
  | .mov _ _ dst => dstRegister dst
  | .add _ _ dst => dstRegister dst
  | .addc _ _ dst => dstRegister dst
  | .subc _ _ dst => dstRegister dst
  | .sub _ _ dst => dstRegister dst
  | .cmp _ _ _ => none
  | .dadd _ _ _ => none
  | .bit _ _ _ => none
  | .bic _ _ dst => dstRegister dst
  | .bis _ _ dst => dstRegister dst
  | .xor _ _ dst => dstRegister dst
  | .and _ _ dst => dstRegister dst

/-- What `@Rn+` adds to register `r` (R99). -/
def incrementOf (src : SrcOperand) (w : Width) (r : Reg) : Word :=
  if src = .indirectInc r then size w else 0#16

/-- What an instruction's post-increment adds to register `r`, at its effective width (R93, R99). -/
def postIncrementOf (i : Instr) (r : Reg) : Word :=
  match i with
  | .rrc _ bw src => incrementOf src bw r
  | .swpb _ _ src => incrementOf src .word r
  | .rra _ bw src => incrementOf src bw r
  | .sxt _ _ src => incrementOf src .word r
  | .push _ bw src => incrementOf src bw r
  | .call _ _ src => incrementOf src .word r
  | .reti _ _ _ => 0#16
  | .reserved7 _ _ _ => 0#16
  | .jne _ => 0#16
  | .jeq _ => 0#16
  | .jnc _ => 0#16
  | .jc _ => 0#16
  | .jn _ => 0#16
  | .jge _ => 0#16
  | .jl _ => 0#16
  | .jmp _ => 0#16
  | .mov bw src _ => incrementOf src bw r
  | .add bw src _ => incrementOf src bw r
  | .addc bw src _ => incrementOf src bw r
  | .subc bw src _ => incrementOf src bw r
  | .sub bw src _ => incrementOf src bw r
  | .cmp bw src _ => incrementOf src bw r
  | .dadd _ _ _ => 0#16
  | .bit bw src _ => incrementOf src bw r
  | .bic bw src _ => incrementOf src bw r
  | .bis bw src _ => incrementOf src bw r
  | .xor bw src _ => incrementOf src bw r
  | .and bw src _ => incrementOf src bw r

/-- PUSH and CALL. -/
def isStackInstr : Instr → Bool
  | .rrc _ _ _ => false
  | .swpb _ _ _ => false
  | .rra _ _ _ => false
  | .sxt _ _ _ => false
  | .push _ _ _ => true
  | .call _ _ _ => true
  | .reti _ _ _ => false
  | .reserved7 _ _ _ => false
  | .jne _ => false
  | .jeq _ => false
  | .jnc _ => false
  | .jc _ => false
  | .jn _ => false
  | .jge _ => false
  | .jl _ => false
  | .jmp _ => false
  | .mov _ _ _ => false
  | .add _ _ _ => false
  | .addc _ _ _ => false
  | .subc _ _ _ => false
  | .sub _ _ _ => false
  | .cmp _ _ _ => false
  | .dadd _ _ _ => false
  | .bit _ _ _ => false
  | .bic _ _ _ => false
  | .bis _ _ _ => false
  | .xor _ _ _ => false
  | .and _ _ _ => false

/-- A single-operand word whose prefix the parameters accept (R63). -/
def PrefixOk (pre : BitVec 3) (s : State) : Prop := s.params.sopPrefix = .ignore ∨ pre = 0b100#3

/-- The invariant of the machine: the flat store is in canonical form, no address has two hooks of one
direction, and there are at most two console addresses (R41, R46, R47). -/
def State.Inv (s : State) : Prop :=
  Memory.wf s.mem ∧ s.env.readHooks.Nodup ∧ s.env.writeHooks.Nodup ∧ s.env.console.length ≤ 2

/-- Sending `q` to a hook: one request is added, the answer is the next scripted one or else the next free
value, and memory takes the bytes the answer lists; nothing else changes (R47, R49, log 5). -/
def AsksOnce (q : Request) (s : State) : Prop :=
  (∀ x rest, s.env.answers = x :: rest → s.answer q = x
      ∧ s.sent q = { s with mem := s.mem.touch (answerTouched x),
                            env := { s.env with answers := rest,
                                                requests := s.env.requests ++ [q] } })
    ∧ (s.env.answers = [] → s.answer q = Config.freeAnswer s.env.asked
      ∧ s.sent q = { s with mem := s.mem.touch (answerTouched (Config.freeAnswer s.env.asked)),
                            env := { s.env with asked := s.env.asked + 1,
                                                requests := s.env.requests ++ [q] } })

/-- The bindings of the environment and the parameters are those of `s` (R7, R47). -/
def SameBindings (s t : State) : Prop :=
  t.env.console = s.env.console ∧ t.env.readHooks = s.env.readHooks
    ∧ t.env.writeHooks = s.env.writeHooks ∧ t.env.fetchHooked = s.env.fetchHooked
    ∧ t.params = s.params

end Sys2Proof.Machine
end

