-- ==== Sys2Proof/Certificates/Slice0/Obligations.lean ====
section
/-! DEFINITION. The statements for the provers. Each docstring names the rule of spec/ it formalises; where that rule is marked there as the spec's own decision (D<n>) or as general knowledge, the docstring says so. -/

open Sys2Proof Sys2Proof.Machine

/-! ## Encoding -/

/-- Decoding what the encoder writes gives the instruction back, whatever bytes follow (R60 to R72, R76).
Field positions, numbers, slots and extension order are the spec's own D1, D2, D5, D6 (log 12). -/
def Obligations.DecodingAnEncodedInstructionGivesItBack : Prop :=
  ∀ (i : Instr) (rest : List Byte), i.wellFormed →
    decode (bytesOfWords (encode i) ++ rest) = .ok i

/-- Whatever the decoder accepts is well formed, and encodes to exactly the bytes it was read from
(R71, R76). On the spec's own D1, D2, D5, D6 (log 12). -/
def Obligations.EncodingADecodedInstructionGivesItsBytesBack : Prop :=
  ∀ (bytes : List Byte) (i : Instr), decode bytes = .ok i →
    i.wellFormed ∧ bytesOfWords (encode i) = bytes.take (instrWidth i)
      ∧ (bytesOfWords (encode i)).length = instrWidth i

/-- Every first word has the fixed bits of its instruction's row of spec/opcode_table.json and of no other
row (R61, R78 to R80). The numbers are the spec's own D2 (log 12). -/
def Obligations.EveryFirstWordMatchesOneTableRow : Prop :=
  ∀ (w0 w1 w2 : Word) (j : Instr),
    w0 &&& (tableRow (decodeWords w0 w1 w2)).1 = (tableRow (decodeWords w0 w1 w2)).2
      ∧ (w0 &&& (tableRow j).1 = (tableRow j).2 →
          tableRow j = tableRow (decodeWords w0 w1 w2))

/-- The width of an instruction, from the fields of its first word alone (R70, R71, by the slots of R66 and
R67). A source needs a word in INDEXED and ABSOLUTE (`as` = 1, not r3) and in IMMEDIATE (`as` = 3, r0);
a destination in INDEXED and ABSOLUTE (`ad` = 1, not r3). On the spec's own D1, D5 (log 12). -/
def Obligations.TheFirstWordTellsTheWidth : Prop :=
  ∀ (w0 w1 w2 : Word),
    let needsSrc (reg : BitVec 4) (as : BitVec 2) : Nat :=
      if (as = 1#2 ∧ reg ≠ 3#4) ∨ (as = 3#2 ∧ reg = 0#4) then 1 else 0
    let needsDst (reg : BitVec 4) (ad : BitVec 1) : Nat := if ad = 1#1 ∧ reg ≠ 3#4 then 1 else 0
    (w0.extractLsb' 13 3 = 0#3 → instrWidth (decodeWords w0 w1 w2)
        = 2 + 2 * needsSrc (w0.extractLsb' 0 4) (w0.extractLsb' 4 2))
      ∧ (w0.extractLsb' 13 3 = 1#3 → instrWidth (decodeWords w0 w1 w2) = 2)
      ∧ (w0.extractLsb' 13 3 ≠ 0#3 → w0.extractLsb' 13 3 ≠ 1#3 →
          instrWidth (decodeWords w0 w1 w2)
            = 2 + 2 * needsSrc (w0.extractLsb' 8 4) (w0.extractLsb' 4 2)
              + 2 * needsDst (w0.extractLsb' 0 4) (w0.extractLsb' 7 1))

/-- The decode port fails, with TooShort, exactly when bytes are missing (R76; D27). -/
def Obligations.DecodingFailsExactlyWhenBytesAreMissing : Prop :=
  ∀ (bytes : List Byte) (e : DecodeError), decode bytes = .error e ↔
    bytes.length < 2 ∨ bytes.length
      < instrWidth (decodeWords (wordAt bytes 0) (wordAt bytes 1) (wordAt bytes 2))

/-- Words written out from the tables of R62 to R68, R72, R74 and R78 to R80 decode to what they spell
(vectors E1, E2, E3, E5, E12, E14, E16 and V18 of 95_test_vectors.md). The field positions, the opcode
numbers, the constant destination of 0x43B3 and the order of the extension words are the spec's own choice:
D1, D2, D5, D6 (log 12). -/
def Obligations.WordsOfTheSpecDecode : Prop :=
  decodeWords 0x4035#16 0x1234#16 0#16 = .mov .word (.immediate 0x1234#16) (.reg .r5)
    ∧ decodeWords 0x40B5#16 0x1234#16 0x0004#16
        = .mov .word (.immediate 0x1234#16) (.indexed .r5 0x0004#16)
    ∧ decodeWords 0x4292#16 0x0200#16 0x0202#16
        = .mov .word (.absolute 0x0200#16) (.absolute 0x0202#16)
    ∧ decodeWords 0x43B3#16 0#16 0#16 = .mov .word (.const .minusOne) (.const .one)
    ∧ decodeWords 0x1292#16 0x0200#16 0#16 = .call 0b100#3 .word (.absolute 0x0200#16)
    ∧ decodeWords 0x0000#16 0#16 0#16 = .rrc 0b000#3 .word (.reg .pc)
    ∧ decodeWords 0x3E00#16 0#16 0#16 = .jmp 0x200#10
    ∧ decodeWords 0x11F7#16 0#16 0#16 = .sxt 0b100#3 .byte (.indirectInc .r7)

/-! ## The step -/

/-- A step runs the decoded instruction (R90): a fetch's fault ends it; else the PC is advanced past the
decoded instruction and that instruction is executed; where neither a hook nor a console address answers the
fetch, the instruction is the one the stored bytes spell; the status of a completed step is Halted exactly
when SR[4] is 1 (R109; its level check is the spec's D15). -/
def Obligations.AStepRunsTheDecodedInstruction : Prop :=
  ∀ (s : State),
    (∀ f, fetch6 s.regs.pc s = .fault f → step s = .fault f)
      ∧ (∀ bytes s1 i, fetch6 s.regs.pc s = .ok bytes s1 → decode bytes = .ok i →
          step s = exec i (s1.setReg .pc (s.regs.pc + BitVec.ofNat 16 (instrWidth i))))
      ∧ (∀ i, fetchGuardAt s.params s.regs.pc = none → s.env.bindsFetch s.regs.pc = false →
          decode (s.windowAt s.regs.pc) = .ok i →
          step s = exec i (s.setReg .pc (s.regs.pc + BitVec.ofNat 16 (instrWidth i))))
      ∧ (∀ t, step s = .next t →
          stepStatus s = if t.regs.sr.getLsbD 4 then .halted else .ok)

/-- Every step completes or faults: no instruction is refused and TooShort never reaches a step (R190,
R191, R192); with no hook bound, console addresses or not (R43, R46), the fault is BadOperand,
AddressTooHigh, AddressUnaligned or Unsupported. On the spec's own D25, D27. That a step whose collaborator
never replies, which does not return (R208, I13), is the fault noReply is the model's choice: log 10. -/
def Obligations.EveryStepCompletesOrFaults : Prop :=
  ∀ (s : State),
    ((∃ t, step s = .next t) ∨ ∃ f, step s = .fault f ∧ f.code ≠ some 1)
      ∧ (s.env.readHooks = [] → s.env.writeHooks = [] →
          ∀ f, step s = .fault f → f.code ∈ [some 2, some 3, some 4, some 5])

/-- The fetch guards in their order (R45): within `P_FETCH_GUARD` of 0xFFFF the step faults AddressTooHigh,
odd or not; else at an odd PC it faults AddressUnaligned; the state is left as it was. On the spec's own
D20. -/
def Obligations.TheFetchGuardsStopAStep : Prop :=
  ∀ (s : State),
    (0xFFFF - s.regs.pc.toNat < s.params.fetchGuard →
        step s = .fault (.addressTooHigh s.regs.pc s))
      ∧ (¬ 0xFFFF - s.regs.pc.toNat < s.params.fetchGuard → s.regs.pc.getLsbD 0 = true →
        step s = .fault (.addressUnaligned s.regs.pc s))

/-- What a faulting step leaves (R90, R197): no byte of memory changed unless a hook was asked, whose own
writes stay (R49); a fault of the fetch left every register, a fault of Execute left the PC advanced by the
width. On the spec's own D13. -/
def Obligations.AFaultingStepStoresNothingAndKeepsItsPc : Prop :=
  ∀ (s : State) (f : Fault), step s = .fault f →
    (f.left.env.requests = s.env.requests → ∀ a, f.left.byteAt a = s.byteAt a)
      ∧ ((fetch6 s.regs.pc s = .fault f ∧ f.left.regs = s.regs)
        ∨ ∃ i t, fetchInstr s = .ok i t
            ∧ f.left.regs.pc = s.regs.pc + BitVec.ofNat 16 (instrWidth i))

/-! ## Double-operand results -/

/-- MOV (R161): the source goes to the destination and no flag changes; the destination is read first only
if `P_MOV_READS_DST` (R103). That no flag changes is the spec's D11. -/
def Obligations.MovCopiesTheSource : Prop :=
  ∀ (w : Width) (src : SrcOperand) (dst : DstOperand) (s : State),
    SrcReady w src s →
    (s.params.movReadsDst = true → BothReady w src dst s) →
    DstWritable w src dst s →
    exec (.mov w src dst) s =
      .next (putAt (dstLoc w src dst s) w (srcValue w src s) (postIncrement src w s))

/-- ADD (R162, R107): the sum modulo the width; C the carry out, V when the signed sum is out of range. The
flag rule is the spec's D11. -/
def Obligations.AddStoresTheSum : Prop :=
  ∀ (w : Width) (src : SrcOperand) (dst : DstOperand) (s : State),
    BothReady w src dst s → DstWritable w src dst s →
    let a := srcValue w src s
    let d := dstValue w src dst s
    let r := narrow w (d.toNat + a.toNat)
    exec (.add w src dst) s =
      .next (putAt (dstLoc w src dst s) w r ((postIncrement src w s).setFlags
        { c := decide (2 ^ bitsOf w ≤ d.toNat + a.toNat), z := r == 0#16, n := topBit w r,
          v := outOfRange w (signedAt w d + signedAt w a) }))

/-- ADDC (R163, R107): the sum with the C before the instruction. The flag rule is the spec's D11. -/
def Obligations.AddcAddsTheCarry : Prop :=
  ∀ (w : Width) (src : SrcOperand) (dst : DstOperand) (s : State),
    src.wellFormed → BothReady w src dst s → DstWritable w src dst s →
    let a := srcValue w src s
    let d := dstValue w src dst s
    let k := (s.regs.sr.getLsbD 0).toNat
    let r := narrow w (d.toNat + a.toNat + k)
    exec (.addc w src dst) s =
      .next (putAt (dstLoc w src dst s) w r ((postIncrement src w s).setFlags
        { c := decide (2 ^ bitsOf w ≤ d.toNat + a.toNat + k), z := r == 0#16, n := topBit w r,
          v := outOfRange w (signedAt w d + signedAt w a + k) }))

/-- SUBC (R164, R107): dst − src − 1 + C; C is 1 when no borrow occurs. The flag rule and the NOT-borrow
carry are the spec's D11, D12. -/
def Obligations.SubcSubtractsTheBorrow : Prop :=
  ∀ (w : Width) (src : SrcOperand) (dst : DstOperand) (s : State),
    src.wellFormed → BothReady w src dst s → DstWritable w src dst s →
    let a := srcValue w src s
    let d := dstValue w src dst s
    let k := (s.regs.sr.getLsbD 0).toNat
    let r := narrow w ((d.toNat : Int) - a.toNat - 1 + k)
    exec (.subc w src dst) s =
      .next (putAt (dstLoc w src dst s) w r ((postIncrement src w s).setFlags
        { c := decide (a.toNat + 1 ≤ d.toNat + k), z := r == 0#16, n := topBit w r,
          v := outOfRange w (signedAt w d - signedAt w a - 1 + k) }))

/-- SUB (R165, R107): dst − src; C is 1 exactly when dst ≥ src unsigned. The flag rule and the NOT-borrow
carry are the spec's D11, D12. -/
def Obligations.SubStoresTheDifference : Prop :=
  ∀ (w : Width) (src : SrcOperand) (dst : DstOperand) (s : State),
    BothReady w src dst s → DstWritable w src dst s →
    let a := srcValue w src s
    let d := dstValue w src dst s
    let r := narrow w ((d.toNat : Int) - a.toNat)
    exec (.sub w src dst) s =
      .next (putAt (dstLoc w src dst s) w r ((postIncrement src w s).setFlags
        { c := decide (a.toNat ≤ d.toNat), z := r == 0#16, n := topBit w r,
          v := outOfRange w (signedAt w d - signedAt w a) }))

/-- CMP (R166): exactly the flags of SUB, and nothing stored: Z when the operands are equal, C when dst ≥
src unsigned. On the spec's own D11, D12. -/
def Obligations.CmpOnlySetsTheFlagsOfSub : Prop :=
  ∀ (w : Width) (src : SrcOperand) (dst : DstOperand) (s : State),
    BothReady w src dst s →
    let a := srcValue w src s
    let d := dstValue w src dst s
    exec (.cmp w src dst) s =
      .next ((postIncrement src w s).setFlags
        { c := decide (a.toNat ≤ d.toNat), z := decide (a = d),
          n := topBit w (narrow w ((d.toNat : Int) - a.toNat)),
          v := outOfRange w (signedAt w d - signedAt w a) })

/-- BIT and AND (R168, R172): the flags of the conjunction, C = NOT Z, V = 0; AND stores it, BIT does not.
On the spec's own D11. -/
def Obligations.BitTestsAndAndStoresTheConjunction : Prop :=
  ∀ (w : Width) (src : SrcOperand) (dst : DstOperand) (s : State),
    BothReady w src dst s →
    let r := srcValue w src s &&& dstValue w src dst s
    let t := (postIncrement src w s).setFlags
      { c := r != 0#16, z := r == 0#16, n := topBit w r, v := false }
    exec (.bit w src dst) s = .next t
      ∧ (DstWritable w src dst s →
          exec (.and w src dst) s = .next (putAt (dstLoc w src dst s) w r t))

/-- BIC and BIS (R169, R170): the source's bits cleared, or set, in the destination; no flag changes. On
the spec's own D11. -/
def Obligations.BicClearsAndBisSetsBits : Prop :=
  ∀ (w : Width) (src : SrcOperand) (dst : DstOperand) (s : State),
    BothReady w src dst s → DstWritable w src dst s →
    exec (.bic w src dst) s =
        .next (putAt (dstLoc w src dst s) w (dstValue w src dst s &&& ~~~ srcValue w src s)
          (postIncrement src w s))
      ∧ exec (.bis w src dst) s =
        .next (putAt (dstLoc w src dst s) w (dstValue w src dst s ||| srcValue w src s)
          (postIncrement src w s))

/-- XOR (R171): C = NOT Z, V is 1 exactly when both operands are negative. On the spec's own D11. -/
def Obligations.XorStoresTheExclusiveOr : Prop :=
  ∀ (w : Width) (src : SrcOperand) (dst : DstOperand) (s : State),
    BothReady w src dst s → DstWritable w src dst s →
    let a := srcValue w src s
    let d := dstValue w src dst s
    exec (.xor w src dst) s =
      .next (putAt (dstLoc w src dst s) w (a ^^^ d) ((postIncrement src w s).setFlags
        { c := decide (a ≠ d), z := decide (a = d), n := topBit w a ^^ topBit w d,
          v := decide (signedAt w a < 0 ∧ signedAt w d < 0) }))

/-! ## Single-operand results -/

/-- RRC (R121): the operand halved with the old C as its new top bit; C is the old bit 0, V is 0. That N, Z
and V are so is the spec's D11. -/
def Obligations.RrcRotatesThroughTheCarry : Prop :=
  ∀ (pre : BitVec 3) (w : Width) (src : SrcOperand) (s : State),
    src.wellFormed → PrefixOk pre s → SrcReady w src s → Writable (srcLoc src s) w s →
    let v := srcValue w src s
    let c := s.regs.sr.getLsbD 0
    let r := BitVec.ofNat 16 (v.toNat / 2 + if c then 2 ^ (bitsOf w - 1) else 0)
    exec (.rrc pre w src) s =
      .next (putAt (srcLoc src s) w r ((postIncrement src w s).setFlags
        { c := v.getLsbD 0, z := r == 0#16, n := c, v := false }))

/-- RRA (R123): the signed operand halved, rounding down; C is the old bit 0, N the old sign, V is 0. The
value follows 90_conflicts.md C1; N, Z and V are the spec's D11. -/
def Obligations.RraHalvesTheSignedOperand : Prop :=
  ∀ (pre : BitVec 3) (w : Width) (src : SrcOperand) (s : State),
    PrefixOk pre s → SrcReady w src s → Writable (srcLoc src s) w s →
    let v := srcValue w src s
    let r := narrow w (signedAt w v / 2)
    exec (.rra pre w src) s =
      .next (putAt (srcLoc src s) w r ((postIncrement src w s).setFlags
        { c := v.getLsbD 0, z := decide (v.toNat < 2), n := topBit w v, v := false }))

/-- SWPB (R122): the bytes of a word exchanged, whatever the B/W bit is; no flag changes. On the spec's own
D11, D34. -/
def Obligations.SwpbExchangesTheBytes : Prop :=
  ∀ (pre : BitVec 3) (bw : Width) (src : SrcOperand) (s : State),
    PrefixOk pre s → SrcReady .word src s → Writable (srcLoc src s) .word s →
    let v := srcValue .word src s
    exec (.swpb pre bw src) s =
      .next (putAt (srcLoc src s) .word (BitVec.ofNat 16 (v.toNat % 256 * 256 + v.toNat / 256))
        (postIncrement src .word s))

/-- SXT (R124): the signed low byte as a word, whatever the B/W bit is; C is 1 exactly when the result is
not 0, V is 0. That N, Z and V are so is the spec's D11. -/
def Obligations.SxtExtendsTheLowByte : Prop :=
  ∀ (pre : BitVec 3) (bw : Width) (src : SrcOperand) (s : State),
    PrefixOk pre s → SrcReady .word src s → Writable (srcLoc src s) .word s →
    let v := srcValue .word src s
    exec (.sxt pre bw src) s =
      .next (putAt (srcLoc src s) .word (narrow .word (signedAt .byte v))
        ((postIncrement src .word s).setFlags
          { c := decide (v.toNat % 256 ≠ 0), z := decide (v.toNat % 256 = 0), n := v.getLsbD 7,
            v := false }))

/-- PUSH (R125): the operand, read first, is stored at SP − 2, one byte or two, and SP goes down by 2; no
flag changes. On the spec's own D17 (and D11 for the flags). -/
def Obligations.PushStoresBelowTheStackPointer : Prop :=
  ∀ (pre : BitVec 3) (w : Width) (src : SrcOperand) (s : State),
    PrefixOk pre s → SrcReady w src s →
    let s1 := postIncrement src w s
    PlainStore w (s1.regs.sp - 2#16) s →
    exec (.push pre w src) s =
      .next ((s1.setReg .sp (s1.regs.sp - 2#16)).putStored w (s1.regs.sp - 2#16) (srcValue w src s))

/-- CALL (R126): the target is read as a word, the advanced PC is stored at SP − 2, SP goes down by 2 and
the PC takes the target; no flag changes. On the spec's own D18 (and D11 for the flags). -/
def Obligations.CallPushesTheReturnAddressAndJumps : Prop :=
  ∀ (pre : BitVec 3) (bw : Width) (src : SrcOperand) (s : State),
    src.wellFormed → PrefixOk pre s → SrcReady .word src s →
    let s1 := postIncrement src .word s
    PlainStore .word (s1.regs.sp - 2#16) s →
    exec (.call pre bw src) s =
      .next (((s1.setReg .sp (s1.regs.sp - 2#16)).putStored .word (s1.regs.sp - 2#16)
        s.regs.pc).setReg .pc (srcValue .word src s))

/-! ## Jumps -/

/-- JNE and JEQ (R141, R142): the word, the condition on Z, the target from the advanced PC, nothing else
changed. -/
def Obligations.JneAndJeqFollowZero : Prop :=
  ∀ (off : BitVec 10) (x y : Word) (s : State),
    decodeWords (0x2000#16 ||| off.setWidth 16) x y = .jne off
      ∧ decodeWords (0x2400#16 ||| off.setWidth 16) x y = .jeq off
      ∧ exec (.jne off) s = .next (if s.regs.sr.getLsbD 1 = false
          then s.setReg .pc (s.regs.pc + BitVec.ofInt 16 (2 * off.toInt)) else s)
      ∧ exec (.jeq off) s = .next (if s.regs.sr.getLsbD 1 = true
          then s.setReg .pc (s.regs.pc + BitVec.ofInt 16 (2 * off.toInt)) else s)

/-- JNC and JC (R143, R144): the word, the condition on C, the target from the advanced PC, nothing else
changed. What C says after a subtraction is the spec's D12 and is no part of this. -/
def Obligations.JncAndJcFollowCarry : Prop :=
  ∀ (off : BitVec 10) (x y : Word) (s : State),
    decodeWords (0x2800#16 ||| off.setWidth 16) x y = .jnc off
      ∧ decodeWords (0x2C00#16 ||| off.setWidth 16) x y = .jc off
      ∧ exec (.jnc off) s = .next (if s.regs.sr.getLsbD 0 = false
          then s.setReg .pc (s.regs.pc + BitVec.ofInt 16 (2 * off.toInt)) else s)
      ∧ exec (.jc off) s = .next (if s.regs.sr.getLsbD 0 = true
          then s.setReg .pc (s.regs.pc + BitVec.ofInt 16 (2 * off.toInt)) else s)

/-- JN, JGE and JL (R145, R146, R147): the word, the condition on N and V, the target from the advanced PC,
nothing else changed. -/
def Obligations.JnJgeAndJlFollowTheSign : Prop :=
  ∀ (off : BitVec 10) (x y : Word) (s : State),
    decodeWords (0x3000#16 ||| off.setWidth 16) x y = .jn off
      ∧ decodeWords (0x3400#16 ||| off.setWidth 16) x y = .jge off
      ∧ decodeWords (0x3800#16 ||| off.setWidth 16) x y = .jl off
      ∧ exec (.jn off) s = .next (if s.regs.sr.getLsbD 2 = true
          then s.setReg .pc (s.regs.pc + BitVec.ofInt 16 (2 * off.toInt)) else s)
      ∧ exec (.jge off) s = .next (if s.regs.sr.getLsbD 2 = s.regs.sr.getLsbD 8
          then s.setReg .pc (s.regs.pc + BitVec.ofInt 16 (2 * off.toInt)) else s)
      ∧ exec (.jl off) s = .next (if s.regs.sr.getLsbD 2 ≠ s.regs.sr.getLsbD 8
          then s.setReg .pc (s.regs.pc + BitVec.ofInt 16 (2 * off.toInt)) else s)

/-- JMP (R148): the word, always taken, the target from the advanced PC, nothing else changed; and `JMP $`
(0x3FFF) at a fetchable PC where nothing is bound leaves the state as it is, with status Ok unless CPUOFF is
set. -/
def Obligations.JmpAlwaysJumps : Prop :=
  ∀ (off : BitVec 10) (x y : Word) (s : State),
    decodeWords (0x3C00#16 ||| off.setWidth 16) x y = .jmp off
      ∧ exec (.jmp off) s = .next (s.setReg .pc (s.regs.pc + BitVec.ofInt 16 (2 * off.toInt)))
      ∧ (fetchGuardAt s.params s.regs.pc = none → s.env.bindsFetch s.regs.pc = false →
          s.byteAt s.regs.pc = 0xFF#8 → s.byteAt (s.regs.pc + 1#16) = 0x3F#8 →
          step s = .next s ∧ (s.regs.sr.getLsbD 4 = false → stepStatus s = .ok))

/-! ## Where instructions stop -/

/-- RETI, DADD and single-operand opcode 7 always raise Unsupported with their first word, before any
operand access: the state left is the one found (R127, R128, R167). That opcode 7 raises it, and that it
comes before any access, are the spec's own D4 and D16. -/
def Obligations.UnimplementedInstructionsRaiseUnsupported : Prop :=
  ∀ (pre : BitVec 3) (bw : Width) (src : SrcOperand) (dst : DstOperand) (s : State),
    exec (.reti pre bw src) s = .fault (.unsupported (firstWord (.reti pre bw src)) s)
      ∧ exec (.reserved7 pre bw src) s = .fault (.unsupported (firstWord (.reserved7 pre bw src)) s)
      ∧ exec (.dadd bw src dst) s = .fault (.unsupported (firstWord (.dadd bw src dst)) s)

/-- With `P_SOP_PREFIX = strict`, a single-operand word whose bits 12:10 are not 0b100 raises Unsupported
before any operand access (R63, R120, R196). On the spec's own D3, D16. -/
def Obligations.AStrictPrefixViolationRaisesUnsupported : Prop :=
  ∀ (pre : BitVec 3) (bw : Width) (src : SrcOperand) (s : State),
    s.params.sopPrefix = .strict → pre ≠ 0b100#3 →
    ∀ i ∈ singleForms pre bw src,
      (firstWord i).extractLsb' 10 3 = pre ∧ exec i s = .fault (.unsupported (firstWord i) s)

/-- Writing an operand that has no location raises BadOperand with the first word, the post-increment and
the computed flags kept, nothing stored (R104, R108, R193, R197): a constant destination of the nine writing
instructions, a constant or immediate operand of RRC, SWPB, RRA and SXT. On the spec's own D13, D14. -/
def Obligations.WritingAConstantRaisesBadOperand : Prop :=
  (∀ (w : Width) (src : SrcOperand) (c : Const) (s : State), SrcReady w src s →
    let s1 := postIncrement src w s
    ∀ p ∈ writingComputations w src (.const c),
      exec p.1 s = .fault (.badOperand (firstWord p.1)
        (s1.setFlags (p.2 (srcValue w src s) (constValue c &&& mask w) s1.flags).flags)))
    ∧ ∀ (pre : BitVec 3) (bw : Width) (src : SrcOperand) (k : Word) (s : State),
        PrefixOk pre s → srcLoc src s = .noLoc k →
        ∀ p ∈ rewritingComputations pre bw src,
          exec p.1 s = .fault (.badOperand (firstWord p.1)
            (s.setFlags (p.2.2 (k &&& mask p.2.1) s.flags).flags))

/-- A word-sized source operand at an odd address raises AddressUnaligned, else one within `P_WORD_GUARD` of
0xFFFF raises AddressTooHigh, with nothing changed (R44, R99, R197, R200). On the spec's own D13, D20. -/
def Obligations.ABadSourceAddressFaultsFirst : Prop :=
  ∀ (pre : BitVec 3) (bw : Width) (src : SrcOperand) (dst : DstOperand) (s : State) (a : Word),
    srcLoc src s = .mem a →
    ∀ i, (PrefixOk pre s ∧ (i, Width.word) ∈ readingForms pre bw src)
        ∨ i ∈ [.mov .word src dst, .cmp .word src dst, .bit .word src dst]
            ++ computingForms .word src dst →
      (a.getLsbD 0 = true → exec i s = .fault (.addressUnaligned a s))
        ∧ (a.getLsbD 0 = false → 0xFFFF - a.toNat < s.params.wordGuard →
            exec i s = .fault (.addressTooHigh a s))

/-- A word-sized destination at an odd address, or within `P_WORD_GUARD` of 0xFFFF, faults at its read, the
source's post-increment kept and no flag written (R44, R103, R197, R200); MOV, which may not read it,
faults the same at its store. On the spec's own D9, D10, D13, D20. -/
def Obligations.ABadDestinationAddressKeepsThePostIncrement : Prop :=
  ∀ (src : SrcOperand) (dst : DstOperand) (s : State) (a : Word),
    SrcReady .word src s → dstLoc .word src dst s = .mem a →
    ∀ i ∈ [.mov .word src dst, .cmp .word src dst, .bit .word src dst]
        ++ computingForms .word src dst,
      (a.getLsbD 0 = true →
          exec i s = .fault (.addressUnaligned a (postIncrement src .word s)))
        ∧ (a.getLsbD 0 = false → 0xFFFF - a.toNat < s.params.wordGuard →
          exec i s = .fault (.addressTooHigh a (postIncrement src .word s)))

/-- A word pushed to an odd SP, or to one within `P_WORD_GUARD` of 0xFFFF, faults with SP left decremented
(R125, R126, R197). On the spec's own D13, D17, D18, D20. -/
def Obligations.ABadStackAddressLeavesTheStackPointerMoved : Prop :=
  ∀ (pre : BitVec 3) (bw : Width) (src : SrcOperand) (s : State),
    PrefixOk pre s → SrcReady .word src s →
    let s1 := postIncrement src .word s
    let a := s1.regs.sp - 2#16
    ∀ i ∈ [Instr.push pre .word src, .call pre bw src],
      (a.getLsbD 0 = true → exec i s = .fault (.addressUnaligned a (s1.setReg .sp a)))
        ∧ (a.getLsbD 0 = false → 0xFFFF - a.toNat < s.params.wordGuard →
            exec i s = .fault (.addressTooHigh a (s1.setReg .sp a)))

/-! ## Frames -/

/-- The frame of the writing double-operand instructions, in every state (R26, R27, R99, R104): only the
destination register, the post-incremented register and the flags change, and only the destination's
bytes, unless a hook was asked, which may write memory itself (R49). -/
def Obligations.WritingDoubleOperandFrame : Prop :=
  ∀ (w : Width) (src : SrcOperand) (dst : DstOperand) (s t : State),
    ∀ i ∈ Instr.mov w src dst :: computingForms w src dst, exec i s = .next t →
      (∀ r, r ≠ .sr → dst ≠ .reg r → src ≠ .indirectInc r → t.reg r = s.reg r)
        ∧ (∀ r, r ≠ .sr → dst ≠ .reg r → src = .indirectInc r → t.reg r = s.reg r + size w)
        ∧ (dst ≠ .reg .sr → src ≠ .indirectInc .sr → ∀ k, k ∉ [0, 1, 2, 8] →
            t.regs.sr.getLsbD k = s.regs.sr.getLsbD k)
        ∧ (t.env.requests = s.env.requests →
            (∀ a, dstLoc w src dst s = .mem a → ∀ b, ¬ Covers w a b → t.byteAt b = s.byteAt b)
              ∧ ((∀ a, dstLoc w src dst s ≠ .mem a) → ∀ b, t.byteAt b = s.byteAt b))

/-- The frame of CMP and BIT, in every state (R27, R99, R166, R168): only the post-incremented register and
the flags change, and no byte unless a hook was asked (R49). -/
def Obligations.ComparingDoubleOperandFrame : Prop :=
  ∀ (w : Width) (src : SrcOperand) (dst : DstOperand) (s t : State),
    ∀ i ∈ [Instr.cmp w src dst, .bit w src dst], exec i s = .next t →
      (∀ r, r ≠ .sr → src ≠ .indirectInc r → t.reg r = s.reg r)
        ∧ (∀ r, r ≠ .sr → src = .indirectInc r → t.reg r = s.reg r + size w)
        ∧ (src ≠ .indirectInc .sr → ∀ k, k ∉ [0, 1, 2, 8] →
            t.regs.sr.getLsbD k = s.regs.sr.getLsbD k)
        ∧ (t.env.requests = s.env.requests → ∀ b, t.byteAt b = s.byteAt b)

/-- The frame of RRC, SWPB, RRA and SXT, in every state (R27, R93, R99, R120): only the operand's register,
the post-incremented register and the flags change, and only the operand's bytes, at the address before the
increment, unless a hook was asked (R49). -/
def Obligations.RewritingSingleOperandFrame : Prop :=
  ∀ (pre : BitVec 3) (bw : Width) (src : SrcOperand) (s t : State),
    ∀ p ∈ rewritingForms pre bw src, exec p.1 s = .next t →
      (∀ r, r ≠ .sr → src ≠ .reg r → src ≠ .indirectInc r → t.reg r = s.reg r)
        ∧ (∀ r, r ≠ .sr → src = .indirectInc r → t.reg r = s.reg r + size p.2)
        ∧ (src ≠ .reg .sr → src ≠ .indirectInc .sr → ∀ k, k ∉ [0, 1, 2, 8] →
            t.regs.sr.getLsbD k = s.regs.sr.getLsbD k)
        ∧ (t.env.requests = s.env.requests →
            (∀ a, srcLoc src s = .mem a → ∀ b, ¬ Covers p.2 a b → t.byteAt b = s.byteAt b)
              ∧ ((∀ a, srcLoc src s ≠ .mem a) → ∀ b, t.byteAt b = s.byteAt b))

/-- The frame of PUSH and CALL, in every state (R22, R27, R125, R126): only SP, the post-incremented register
and CALL's PC change, SR is kept whole, and only the bytes at SP − 2, unless a hook was asked (R49). -/
def Obligations.StackInstructionFrame : Prop :=
  ∀ (pre : BitVec 3) (bw : Width) (src : SrcOperand) (s t : State),
    ∀ p ∈ [(Instr.push pre bw src, bw), (.call pre bw src, .word)], exec p.1 s = .next t →
      t.regs.sp = (postIncrement src p.2 s).regs.sp - 2#16
        ∧ (∀ r, r ≠ .sp → src ≠ .indirectInc r → (p.1 = .push pre bw src ∨ r ≠ .pc) →
            t.reg r = s.reg r)
        ∧ (∀ r, r ≠ .sp → src = .indirectInc r → (p.1 = .push pre bw src ∨ r ≠ .pc) →
            t.reg r = s.reg r + size p.2)
        ∧ (t.env.requests = s.env.requests →
            ∀ b, ¬ Covers p.2 ((postIncrement src p.2 s).regs.sp - 2#16) b → t.byteAt b = s.byteAt b)

/-- MOV, BIC, BIS, SWPB, PUSH, CALL and the jumps change no bit of SR unless SR is their destination, in
every state (R27). That they change no flag is the spec's D11. -/
def Obligations.SomeInstructionsChangeNoFlag : Prop :=
  ∀ (pre : BitVec 3) (w : Width) (src : SrcOperand) (dst : DstOperand) (off : BitVec 10) (s t : State),
    src.wellFormed →
    ∀ i, (i ∈ [.mov w src dst, .bic w src dst, .bis w src dst] ∧ dst ≠ .reg .sr)
        ∨ (i = .swpb pre w src ∧ src ≠ .reg .sr)
        ∨ i ∈ [.push pre w src, .call pre w src, .jne off, .jeq off, .jnc off, .jc off, .jn off,
            .jge off, .jl off, .jmp off] →
      exec i s = .next t → t.regs.sr = s.regs.sr

/-- SP, for every instruction in every state (R22): PUSH and CALL take 2 off, `@r1+` adds 1 or 2, and nothing
else changes it unless r1 is the destination. That a byte `@r1+` adds 1 is the spec's D8. -/
def Obligations.TheStackPointerChangesOnlyAsSaid : Prop :=
  ∀ (i : Instr) (s t : State), exec i s = .next t → destRegister i ≠ some .sp →
    t.regs.sp = s.regs.sp + postIncrementOf i .sp - (if isStackInstr i then 2#16 else 0#16)

/-- r4 to r15, for every instruction in every state (R26): each changes only as the destination or by the
post-increment of `@Rn+`. -/
def Obligations.AGeneralRegisterChangesOnlyAsSaid : Prop :=
  ∀ (i : Instr) (s t : State) (r : Reg), exec i s = .next t → r ∉ [.pc, .sp, .sr] →
    destRegister i ≠ some r → t.reg r = s.reg r + postIncrementOf i r

/-- CPUOFF and the unnamed bits of SR, for every well-formed instruction in every state (R23, R24): they
change only when SR is the destination. That the unnamed bits are plain storage is the spec's D22. -/
def Obligations.ControlBitsChangeOnlyWhenSrIsTheDestination : Prop :=
  ∀ (i : Instr) (s t : State) (k : Nat), i.wellFormed → exec i s = .next t →
    destRegister i ≠ some .sr → k ∉ [0, 1, 2, 8] →
    t.regs.sr.getLsbD k = s.regs.sr.getLsbD k

/-- Byte mode (R105): what a byte-mode instruction leaves in its destination register is at most 0xFF, in
every state. -/
def Obligations.ByteResultsFitInAByte : Prop :=
  ∀ (pre : BitVec 3) (src : SrcOperand) (r : Reg) (s t : State),
    ∀ i ∈ [Instr.rrc pre .byte (.reg r), .rra pre .byte (.reg r), .mov .byte src (.reg r)]
        ++ computingForms .byte src (.reg r),
      exec i s = .next t → (t.reg r).toNat ≤ 0xFF

/-- After CMP (R166): JC is taken exactly when dst ≥ src unsigned, JGE exactly when dst ≥ src signed, JEQ
exactly when they are equal; JNC, JL and JNE exactly when not. On the spec's own D11, D12. -/
def Obligations.JumpsAfterCmpCompareTheOperands : Prop :=
  ∀ (w : Width) (src : SrcOperand) (dst : DstOperand) (off : BitVec 10) (s : State),
    BothReady w src dst s →
    ∃ t, exec (.cmp w src dst) s = .next t ∧
      let a := srcValue w src s
      let d := dstValue w src dst s
      let jumped := t.setReg .pc (t.regs.pc + jumpOffset off)
      exec (.jc off) t = .next (if a.toNat ≤ d.toNat then jumped else t)
        ∧ exec (.jnc off) t = .next (if a.toNat ≤ d.toNat then t else jumped)
        ∧ exec (.jge off) t = .next (if signedAt w a ≤ signedAt w d then jumped else t)
        ∧ exec (.jl off) t = .next (if signedAt w a ≤ signedAt w d then t else jumped)
        ∧ exec (.jeq off) t = .next (if a = d then jumped else t)
        ∧ exec (.jne off) t = .next (if a = d then t else jumped)

/-- Where nothing is bound, both settings of `P_MOV_READS_DST` end the same way (R103; 92_eei_decisions.md
D10): the same next state but for the parameter itself, or the same kind of fault leaving the same state. -/
def Obligations.WhetherMovReadsItsDestinationIsInvisible : Prop :=
  ∀ (w : Width) (src : SrcOperand) (dst : DstOperand) (s : State),
    (∀ a, s.env.bindsLoad w a = false ∧ s.env.bindsStore w a = false) →
    let set (b : Bool) (x : State) : State := { x with params := { x.params with movReadsDst := b } }
    (∀ t, exec (.mov w src dst) (set true s) = .next t →
        exec (.mov w src dst) (set false s) = .next (set false t))
      ∧ ∀ f, exec (.mov w src dst) (set true s) = .fault f →
          ∃ g, exec (.mov w src dst) (set false s) = .fault g ∧ g.code = f.code
            ∧ g.left = set false f.left

/-! ## Memory -/

/-- A load returns the last store (R42, R51): a stored value reads back at its width, a word's bytes lie low
byte first, no other byte changes and no register. The data byte order is the spec's D19. -/
def Obligations.ALoadReturnsTheLastStore : Prop :=
  ∀ (w : Width) (a v : Word) (s : State), Memory.wf s.mem → PlainStore w a s →
    ∃ t, store w a v s = .ok () t ∧ t.regs = s.regs
      ∧ (PlainLoad w a s → load w a t = .ok (v &&& mask w) t)
      ∧ t.byteAt a = v.extractLsb' 0 8
      ∧ (w = .word → t.byteAt (a + 1#16) = v.extractLsb' 8 8)
      ∧ ∀ b, ¬ Covers w a b → t.byteAt b = s.byteAt b

/-- The guards of a word access in their order (R44): odd first, then too high; nothing is stored. On the
spec's own D20. -/
def Obligations.TheWordGuardsStopLoadsAndStores : Prop :=
  ∀ (a v : Word) (s : State),
    (a.getLsbD 0 = true → load .word a s = .fault (.addressUnaligned a s)
        ∧ store .word a v s = .fault (.addressUnaligned a s))
      ∧ (a.getLsbD 0 = false → 0xFFFF - a.toNat < s.params.wordGuard →
        load .word a s = .fault (.addressTooHigh a s)
          ∧ store .word a v s = .fault (.addressTooHigh a s))

/-- A byte access never faults in the flat store (R43): at every address with no hook it completes, and
changes no register and no byte but the one stored to; at an address that is not a console address (R46) it
reads or writes the byte. On the spec's own D20; a console access is any value (log 7). -/
def Obligations.ByteAccessesNeverFault : Prop :=
  ∀ (a v : Word) (s : State),
    (a ∉ s.env.readHooks →
        ∃ x t, load .byte a s = .ok x t ∧ t.regs = s.regs ∧ t.mem = s.mem
          ∧ (a ∉ s.env.console → x = (s.byteAt a).setWidth 16 ∧ t = s))
      ∧ (a ∉ s.env.writeHooks →
        ∃ t, store .byte a v s = .ok () t ∧ t.regs = s.regs
          ∧ (∀ b, b ≠ a → t.byteAt b = s.byteAt b)
          ∧ (a ∉ s.env.console → t = s.setByte a (v.extractLsb' 0 8)))

/-- A write hook replaces the store (R47, R49, R198): one request is sent, no register changes, memory takes
only the bytes the hook itself writes, and the hook's error is the operation's; this comes before any
console address (R46). It holds for every answer, scripted or free. On the spec's own D31 (log 5, log 6).
That a hook which never replies, so that the step does not return (R208, I13), gives the fault noReply is
the model's choice: log 10. -/
def Obligations.AWriteHookReplacesTheStore : Prop :=
  ∀ (w : Width) (a v : Word) (s : State),
    a ∈ s.env.writeHooks →
    (w = .word → a.getLsbD 0 = false ∧ ¬ 0xFFFF - a.toNat < s.params.wordGuard) →
    let q : Request := .store a w (v &&& mask w)
    AsksOnce q s
      ∧ (∀ x l, s.answer q = .value x l → store w a v s = .ok () (s.sent q))
      ∧ (∀ e l, s.answer q = .error e l → store w a v s = .fault (.collaborator e (s.sent q)))
      ∧ (∀ l, s.answer q = .never l → store w a v s = .fault (.noReply a (s.sent q)))

/-- A read hook's value replaces the load's, its error falls back to the flat store (its bytes, where no
console address is covered), and no read ever faults Collaborator (R47, R49, R198). It holds for every
answer, scripted or free. On the spec's own D31, D32 (log 5, log 6, log 16). That the fallback at a console
address is a logged console access, reading any value, is the model's choice: log 7; so is the fault
noReply where the hook never replies (R208, I13): log 10. -/
def Obligations.AReadHookNeverFailsALoad : Prop :=
  ∀ (w : Width) (a : Word) (s : State),
    (∀ e t, load w a s ≠ .fault (.collaborator e t))
      ∧ (a ∈ s.env.readHooks →
        (w = .word → a.getLsbD 0 = false ∧ ¬ 0xFFFF - a.toNat < s.params.wordGuard) →
        let q : Request := .load a w
        AsksOnce q s
          ∧ (∀ v l, s.answer q = .value v l →
              load w a s = .ok (v.setWidth 16 &&& mask w) (s.sent q))
          ∧ (∀ e l, s.answer q = .error e l →
              load w a s = flatLoad w a (s.sent q)
                ∧ (s.env.atConsole a (size w).toNat = false →
                    load w a s = .ok ((s.sent q).stored w a) (s.sent q))
                ∧ (s.env.atConsole a (size w).toNat = true →
                    ∃ x, load w a s = .ok x ((s.sent q).hitConsole q)))
          ∧ (∀ l, s.answer q = .never l → load w a s = .fault (.noReply a (s.sent q))))

/-- Fetch is coherent with stores (R54, R227): a word stored at the PC is the first word of the instruction
the next step runs, with the bytes after it as they were. On the spec's own D26. -/
def Obligations.AStepSeesAStoreIntoItsInstruction : Prop :=
  ∀ (v : Word) (s : State), Memory.wf s.mem → PlainStore .word s.regs.pc s →
    fetchGuardAt s.params s.regs.pc = none → s.env.bindsFetch s.regs.pc = false →
    ∃ t, store .word s.regs.pc v s = .ok () t ∧
      let i := decodeWords v (wordAt (s.windowAt s.regs.pc) 1) (wordAt (s.windowAt s.regs.pc) 2)
      step t = exec i (t.setReg .pc (s.regs.pc + BitVec.ofNat 16 (instrWidth i)))

/-- Memory initialisation: reset-to-zero leaves every byte 0, and an image loaded from a base address reads
back byte for byte, in order. That an image past 0xFFFF goes on at 0x0000 is the model's choice, log 9, and
so is that the host's accesses reach the stored bytes past hooks, console addresses and guards, log 21. -/
def Obligations.AnImageReadsBackInOrder : Prop :=
  (∀ (s : State) (a : Word), (resetMemory s).byteAt a = 0x00#8)
    ∧ ∀ (base : Word) (bytes : List Byte) (s : State), Memory.wf s.mem → bytes.length ≤ 65536 →
        readRange base bytes.length (loadImage base bytes s) = bytes

/-- Two memories in canonical form that read alike everywhere are the same data (the model's own form of the
flat store of R41). -/
def Obligations.MemoriesThatReadAlikeAreEqual : Prop :=
  ∀ (m n : Memory), m.wf → n.wf → (∀ a, a < 65536 → m.read a = n.read a) → m = n

/-! ## Invariants and reset -/

/-- The invariant is kept by every step, and by the state every fault leaves, from which the host may go on
(R202, R225): canonical memory, one hook per address and direction, at most two console addresses (R41,
R46, R47). -/
def Obligations.EveryStepKeepsTheInvariant : Prop :=
  ∀ (s : State), s.Inv → (∀ t, step s = .next t → t.Inv) ∧ ∀ f, step s = .fault f → (rearm f).Inv

/-- The invariant holds right after reset, and on creation whatever the registers and the memory hold (R221,
I9; log 2) and whatever the environment binds: one hook per address and direction (R47), at most two
console addresses (R46). -/
def Obligations.TheResetStateMeetsTheInvariant : Prop :=
  State.reset.Inv
    ∧ ∀ (x : RegFile) (m : Memory) (e : Env) (p : Params), m.wf → e.readHooks.Nodup →
        e.writeHooks.Nodup → e.console.length ≤ 2 → (State.create x m e p).Inv

/-- No step changes the parameters or the bindings of the environment, whether it completes or faults (R7,
R47). -/
def Obligations.NoStepChangesParametersOrBindings : Prop :=
  ∀ (s : State), (∀ t, step s = .next t → SameBindings s t)
    ∧ ∀ f, step s = .fault f → SameBindings s f.left

/-- The state after reset (R32, R221, R222, R7): every register, CPUOFF and every flag 0, every byte of memory 0,
the parameters at their defaults. The register and memory values are DESIGN CHOICES (D21; log 1, log 2). -/
def Obligations.EverythingIsZeroAfterReset : Prop :=
  (∀ r, State.reset.reg r = 0x0000#16) ∧ (∀ a, State.reset.byteAt a = 0x00#8)
    ∧ State.reset.params
        = { sopPrefix := .ignore, movReadsDst := true, fetchGuard := 6, wordGuard := 4 }

/-! ## The host contract -/

/-- Breakpoints (R207), before a free-running step and before the one step of continue and of step in every
run state (R205; that these two look breakpoints up and re-arm a faulted instance is log 13): Stop suspends
without executing; else one step is executed, after which a Step breakpoint suspends, step stops, and
Halted stops free-running (R206; at Stopped by log 13); Trace changes nothing. A step that faults ends in
Fault (R206), at a Step breakpoint and for step too by the model's choice (log 13). A step that does not
return freezes the instance (R208); that it stands at Fault too is the model's choice (log 10). Trace as a
no-op is the spec's D32. -/
def Obligations.BreakpointsSuspendBeforeOrAfterTheStep : Prop :=
  ∀ (x : Actor), x.frozen = false →
    let bp := x.breakpoints.lookup x.cpu.regs.pc
    let freeRuns := x.mailbox = [] ∧ x.run = .running
    (bp = some .stop →
        (freeRuns → x.turn = { x with run := .stopped })
          ∧ Actor.service .continueRun x = { x with run := .stopped }
          ∧ Actor.service .stepOnce x = { x with run := .stopped })
      ∧ (bp ≠ some .stop → ∀ t, step x.cpu = .next t →
          let after : RunState :=
            if t.regs.sr.getLsbD 4 = true ∨ bp = some .step then .stopped else .running
          let y : Actor := { x with cpu := t, run := after }
          (freeRuns → x.turn = y)
            ∧ Actor.service .continueRun x = y
            ∧ Actor.service .stepOnce x = { x with cpu := t, run := .stopped })
      ∧ (bp ≠ some .stop → ∀ f, step x.cpu = .fault f →
          let y : Actor :=
            { x with cpu := f.left, run := .fault, lastFault := some f, frozen := f.hangs }
          (freeRuns → x.turn = y)
            ∧ Actor.service .continueRun x = y ∧ Actor.service .stepOnce x = y)
      ∧ (bp = some .trace → freeRuns →
          x.turn = { Actor.turn { x with breakpoints := [] } with breakpoints := x.breakpoints })

/-- A faulted or stopped instance takes no step of its own accord, and a frozen one does nothing more
(R208); a Halted step stops free-running and is no fault (R206; that the run state is then Stopped is the
model's choice, log 13). Where the instance is not frozen, a waiting message is serviced before any step,
and registers and memory are readable through the mailbox in every run state (R202, R205, R206). That reads
are messages answered with a reply in every run state but a frozen one is the model's choice (log 13); so
is that a range read gives the stored bytes and goes on at 0x0000 (log 21, log 9). -/
def Obligations.OnlyARunningInstanceSteps : Prop :=
  ∀ (x : Actor),
    (x.mailbox = [] → x.run ≠ .running → x.turn = x)
      ∧ (x.frozen = true → x.turn = x)
      ∧ (x.frozen = false → x.mailbox = [] → x.run = .running → stepStatus x.cpu = .halted →
          x.turn.run = .stopped ∧ x.turn.lastFault = x.lastFault)
      ∧ ∀ m rest, x.frozen = false → x.mailbox = m :: rest →
          x.turn = Actor.service m { x with mailbox := rest }
            ∧ (m = .getRegisters → x.turn
                = { x with mailbox := rest, replies := x.replies ++ [.registers x.cpu.regs] })
            ∧ ∀ a n, m = .readMemory a n → ∃ l, l.length = n
                ∧ x.turn = { x with mailbox := rest, replies := x.replies ++ [.bytes l] }
                ∧ ∀ k, k < n → l[k]? = some (x.cpu.byteAt (a + BitVec.ofNat 16 k))
end

