-- ==== Sys2Proof/Laws/Decode.lean ====
section
/-! SUPPORT. The fields of an encoded word, the operand tables both ways, and the lengths of instructions. -/

namespace Sys2Proof

@[simp] theorem regOfIndex_regIndex (r : Reg) : regOfIndex (regIndex r) = some r := by
  cases r <;> rfl

theorem regIndex_of_regOfIndex {n : BitVec 4} {r : Reg} (h : regOfIndex n = some r) :
    regIndex r = n := by
  revert n r
  decide

theorem regOfIndex_none {n : BitVec 4} : regOfIndex n = none ↔ n = 3#4 := by
  revert n
  decide

@[simp] theorem widthOfBit_bitOfWidth (w : Width) : widthOfBit (bitOfWidth w) = w := by
  cases w <;> rfl

@[simp] theorem bitOfWidth_widthOfBit (b : BitVec 1) : bitOfWidth (widthOfBit b) = b := by
  revert b
  decide

/-- A source operand's fields decode to it, its extension word put back. -/
theorem srcOperand_srcFields {o : SrcOperand} (h : o.wellFormed) (x : Word)
    (hx : srcExt o = [] ∨ srcExt o = [x]) :
    srcOperand (srcFields o).1 (srcFields o).2 x = o := by
  cases o with
  | reg r => cases r <;> rfl
  | indexed r y =>
    have hy : y = x := by simpa [srcExt] using hx
    subst hy
    cases r <;> first | rfl | simp [SrcOperand.wellFormed] at h
  | absolute y =>
    have hy : y = x := by simpa [srcExt] using hx
    subst hy
    rfl
  | indirect r => cases r <;> first | rfl | simp [SrcOperand.wellFormed] at h
  | indirectInc r => cases r <;> first | rfl | simp [SrcOperand.wellFormed] at h
  | immediate y =>
    have hy : y = x := by simpa [srcExt] using hx
    subst hy
    rfl
  | const c => cases c <;> rfl

/-- A destination operand's fields decode to it, its extension word put back. -/
theorem dstOperand_dstFields {o : DstOperand} (h : o.wellFormed) (x : Word)
    (hx : dstExt o = [] ∨ dstExt o = [x]) :
    dstOperand (dstFields o).1 (dstFields o).2 x = o := by
  cases o with
  | reg r => cases r <;> rfl
  | indexed r y =>
    have hy : y = x := by simpa [dstExt] using hx
    subst hy
    cases r <;> first | rfl | simp [DstOperand.wellFormed] at h
  | absolute y =>
    have hy : y = x := by simpa [dstExt] using hx
    subst hy
    rfl
  | const c => cases c <;> first | rfl | simp [DstOperand.wellFormed] at h

/-- The sixteen registers a field can name. -/
theorem regOfIndex_cases (n : BitVec 4) :
    (n = 3#4 ∧ regOfIndex n = none) ∨ ∃ r, n = regIndex r ∧ regOfIndex n = some r := by
  cases h : regOfIndex n with
  | none => exact .inl ⟨regOfIndex_none.mp h, rfl⟩
  | some r => exact .inr ⟨r, (regIndex_of_regOfIndex h).symm, rfl⟩

/-- What a field pair decodes to is well formed, has the fields, and carries the given word if any. -/
theorem srcOperand_spec (reg : BitVec 4) (as : BitVec 2) (x : Word) :
    (srcOperand reg as x).wellFormed ∧ srcFields (srcOperand reg as x) = (reg, as)
      ∧ (srcExt (srcOperand reg as x) = [] ∨ srcExt (srcOperand reg as x) = [x]) := by
  have has : as = 0#2 ∨ as = 1#2 ∨ as = 2#2 ∨ as = 3#2 := by revert as; decide
  rcases regOfIndex_cases reg with ⟨rfl, -⟩ | ⟨r, rfl, -⟩
  · rcases has with rfl | rfl | rfl | rfl <;> exact ⟨rfl, rfl, .inl rfl⟩
  · rcases has with rfl | rfl | rfl | rfl <;> cases r <;>
      first | exact ⟨rfl, rfl, .inl rfl⟩ | exact ⟨rfl, rfl, .inr rfl⟩

/-- The same of a destination. -/
theorem dstOperand_spec (reg : BitVec 4) (ad : BitVec 1) (x : Word) :
    (dstOperand reg ad x).wellFormed ∧ dstFields (dstOperand reg ad x) = (reg, ad)
      ∧ (dstExt (dstOperand reg ad x) = [] ∨ dstExt (dstOperand reg ad x) = [x]) := by
  have had : ad = 0#1 ∨ ad = 1#1 := by revert ad; decide
  rcases regOfIndex_cases reg with ⟨rfl, -⟩ | ⟨r, rfl, -⟩
  · rcases had with rfl | rfl <;> exact ⟨rfl, rfl, .inl rfl⟩
  · rcases had with rfl | rfl <;> cases r <;>
      first | exact ⟨rfl, rfl, .inl rfl⟩ | exact ⟨rfl, rfl, .inr rfl⟩

/-- Whether a source operand has an extension word does not depend on the word. -/
theorem srcExt_length_congr (reg : BitVec 4) (as : BitVec 2) (x y : Word) :
    (srcExt (srcOperand reg as x)).length = (srcExt (srcOperand reg as y)).length := by
  have has : as = 0#2 ∨ as = 1#2 ∨ as = 2#2 ∨ as = 3#2 := by revert as; decide
  rcases regOfIndex_cases reg with ⟨rfl, -⟩ | ⟨r, rfl, -⟩
  · rcases has with rfl | rfl | rfl | rfl <;> rfl
  · rcases has with rfl | rfl | rfl | rfl <;> cases r <;> rfl

theorem srcExt_length_le (o : SrcOperand) : (srcExt o).length ≤ 1 := by cases o <;> simp [srcExt]

theorem dstExt_length_le (o : DstOperand) : (dstExt o).length ≤ 1 := by cases o <;> simp [dstExt]

/-- An instruction is 2, 4 or 6 bytes (R71). -/
theorem instrWidth_le (i : Instr) : instrWidth i ≤ 6 := by
  have hs := srcExt_length_le
  have hd := dstExt_length_le
  cases i <;> simp only [instrWidth, extWords, List.length_append, List.length_nil] <;>
    first
      | (rename_i src dst; have := hs src; have := hd dst; omega)
      | (rename_i src; have := hs src; omega)
      | omega

theorem instrWidth_ge (i : Instr) : 2 ≤ instrWidth i := by unfold instrWidth; omega

theorem instrWidth_even (i : Instr) : instrWidth i % 2 = 0 := by unfold instrWidth; omega

/-- Six bytes always decode (R76, R192). -/
theorem decode_six {bytes : List Byte} (h : bytes.length = 6) :
    decode bytes = .ok (decodeWords (wordAt bytes 0) (wordAt bytes 1) (wordAt bytes 2)) := by
  unfold decode
  have hw : widthOfWord (wordAt bytes 0) ≤ 6 := instrWidth_le _
  rw [if_neg (by omega), if_neg (by omega)]

@[simp] theorem lowByte_wordOfBytes (lo hi : Byte) : lowByte (wordOfBytes lo hi) = lo := by
  apply BitVec.eq_of_getLsbD_eq
  intro i hi'
  simp only [lowByte, wordOfBytes, BitVec.getLsbD_extractLsb', BitVec.getLsbD_append]
  simp [hi']

@[simp] theorem highByte_wordOfBytes (lo hi : Byte) : highByte (wordOfBytes lo hi) = hi := by
  apply BitVec.eq_of_getLsbD_eq
  intro i hi'
  simp only [highByte, wordOfBytes, BitVec.getLsbD_extractLsb', BitVec.getLsbD_append]
  simp [hi']

@[simp] theorem wordOfBytes_low_high (w : Word) : wordOfBytes (lowByte w) (highByte w) = w := by
  apply BitVec.eq_of_getLsbD_eq
  intro i hi'
  simp only [highByte, lowByte, wordOfBytes, BitVec.getLsbD_extractLsb', BitVec.getLsbD_append]
  by_cases h : i < 8
  · simp [h]
  · have h8 : i - 8 < 8 := by omega
    have he : 8 + (i - 8) = i := by omega
    simp [h, h8, he]

/-- The fields of a single-operand word (R62). -/
theorem singleWord_fields (opc pre : BitVec 3) (bw : Width) (o : SrcOperand) :
    field 13 3 (singleWord opc pre bw o) = 0#3 ∧ field 10 3 (singleWord opc pre bw o) = pre
      ∧ field 7 3 (singleWord opc pre bw o) = opc
      ∧ field 6 1 (singleWord opc pre bw o) = bitOfWidth bw
      ∧ field 4 2 (singleWord opc pre bw o) = (srcFields o).2
      ∧ field 0 4 (singleWord opc pre bw o) = (srcFields o).1 := by
  refine ⟨?_, ?_, ?_, ?_, ?_, ?_⟩ <;>
  · apply BitVec.eq_of_getLsbD_eq
    intro i hi
    simp only [field, singleWord, BitVec.getLsbD_extractLsb', BitVec.getLsbD_append]
    interval_cases i <;> simp

/-- The fields of a jump word (R64). -/
theorem jumpWord_fields (cond : BitVec 3) (off : BitVec 10) :
    field 13 3 (jumpWord cond off) = 1#3 ∧ field 10 3 (jumpWord cond off) = cond
      ∧ field 0 10 (jumpWord cond off) = off := by
  refine ⟨?_, ?_, ?_⟩ <;>
  · apply BitVec.eq_of_getLsbD_eq
    intro i hi
    simp only [field, jumpWord, BitVec.getLsbD_extractLsb', BitVec.getLsbD_append]
    interval_cases i <;> simp

/-- The fields of a double-operand word (R65). -/
theorem doubleWord_fields (opc : BitVec 4) (bw : Width) (src : SrcOperand) (dst : DstOperand) :
    field 12 4 (doubleWord opc bw src dst) = opc
      ∧ field 8 4 (doubleWord opc bw src dst) = (srcFields src).1
      ∧ field 7 1 (doubleWord opc bw src dst) = (dstFields dst).2
      ∧ field 6 1 (doubleWord opc bw src dst) = bitOfWidth bw
      ∧ field 4 2 (doubleWord opc bw src dst) = (srcFields src).2
      ∧ field 0 4 (doubleWord opc bw src dst) = (dstFields dst).1 := by
  refine ⟨?_, ?_, ?_, ?_, ?_, ?_⟩ <;>
  · apply BitVec.eq_of_getLsbD_eq
    intro i hi
    simp only [field, doubleWord, BitVec.getLsbD_extractLsb', BitVec.getLsbD_append]
    interval_cases i <;> simp

/-- The family bits of a double-operand word are the top of its opcode (R61, R65). -/
theorem doubleWord_family (opc : BitVec 4) (bw : Width) (src : SrcOperand) (dst : DstOperand) :
    field 13 3 (doubleWord opc bw src dst) = opc.extractLsb' 1 3 := by
  apply BitVec.eq_of_getLsbD_eq
  intro i hi
  simp only [field, doubleWord, BitVec.getLsbD_extractLsb', BitVec.getLsbD_append]
  interval_cases i <;> simp

/-- A word is its fields put together (R62, R64, R65). -/
theorem word_of_single_fields (w : Word) : (field 13 3 w ++ field 10 3 w ++ field 7 3 w
    ++ field 6 1 w ++ field 4 2 w ++ field 0 4 w : BitVec (3 + 3 + 3 + 1 + 2 + 4)) = w := by
  apply BitVec.eq_of_getLsbD_eq
  intro i hi
  simp only [field, BitVec.getLsbD_extractLsb', BitVec.getLsbD_append]
  interval_cases i <;> simp

theorem word_of_jump_fields (w : Word) :
    (field 13 3 w ++ field 10 3 w ++ field 0 10 w : BitVec (3 + 3 + 10)) = w := by
  apply BitVec.eq_of_getLsbD_eq
  intro i hi
  simp only [field, BitVec.getLsbD_extractLsb', BitVec.getLsbD_append]
  interval_cases i <;> simp

theorem word_of_double_fields (w : Word) : (field 12 4 w ++ field 8 4 w ++ field 7 1 w
    ++ field 6 1 w ++ field 4 2 w ++ field 0 4 w : BitVec (4 + 4 + 1 + 1 + 2 + 4)) = w := by
  apply BitVec.eq_of_getLsbD_eq
  intro i hi
  simp only [field, BitVec.getLsbD_extractLsb', BitVec.getLsbD_append]
  interval_cases i <;> simp

end Sys2Proof
end

