-- ==== Sys2Proof/Laws/State.lean ====
section
/-! SUPPORT. One lemma per field per update of State and of the register file. -/

namespace Sys2Proof.Machine

@[simp] theorem RegFile.get_pc (f : RegFile) : f.get .pc = f.pc := rfl
@[simp] theorem RegFile.get_sp (f : RegFile) : f.get .sp = f.sp := rfl
@[simp] theorem RegFile.get_sr (f : RegFile) : f.get .sr = f.sr := rfl

@[simp] theorem RegFile.get_set_same (f : RegFile) (r : Reg) (v : Word) : (f.set r v).get r = v := by
  cases r <;> rfl

theorem RegFile.get_set_other (f : RegFile) {r q : Reg} (v : Word) (h : q ≠ r) :
    (f.set r v).get q = f.get q := by
  cases r <;> cases q <;> first | rfl | exact absurd rfl h

/-- Two register files that read alike are equal. -/
theorem RegFile.ext_get {f g : RegFile} (h : ∀ r, f.get r = g.get r) : f = g := by
  cases f; cases g
  have hpc := h .pc; have hsp := h .sp; have hsr := h .sr; have h4 := h .r4; have h5 := h .r5
  have h6 := h .r6; have h7 := h .r7; have h8 := h .r8; have h9 := h .r9; have h10 := h .r10
  have h11 := h .r11; have h12 := h .r12; have h13 := h .r13; have h14 := h .r14; have h15 := h .r15
  simp only [RegFile.get] at *
  subst_vars
  rfl

@[simp] theorem RegFile.set_get (f : RegFile) (r : Reg) : f.set r (f.get r) = f := by cases r <;> rfl

@[simp] theorem RegFile.set_set (f : RegFile) (r : Reg) (u v : Word) :
    (f.set r u).set r v = f.set r v := by cases r <;> rfl

@[simp] theorem State.setReg_regs (s : State) (r : Reg) (v : Word) :
    (s.setReg r v).regs = s.regs.set r v := rfl
@[simp] theorem State.setReg_mem (s : State) (r : Reg) (v : Word) : (s.setReg r v).mem = s.mem := rfl
@[simp] theorem State.setReg_env (s : State) (r : Reg) (v : Word) : (s.setReg r v).env = s.env := rfl
@[simp] theorem State.setReg_params (s : State) (r : Reg) (v : Word) :
    (s.setReg r v).params = s.params := rfl

@[simp] theorem State.reg_setReg_same (s : State) (r : Reg) (v : Word) : (s.setReg r v).reg r = v :=
  RegFile.get_set_same _ _ _

theorem State.reg_setReg_other (s : State) {r q : Reg} (v : Word) (h : q ≠ r) :
    (s.setReg r v).reg q = s.reg q := RegFile.get_set_other _ _ h

@[simp] theorem State.setReg_reg (s : State) (r : Reg) : s.setReg r (s.reg r) = s := by
  simp [State.setReg, State.reg]

@[simp] theorem State.setByte_regs (s : State) (a : Word) (b : Byte) : (s.setByte a b).regs = s.regs := rfl
@[simp] theorem State.setByte_mem (s : State) (a : Word) (b : Byte) :
    (s.setByte a b).mem = s.mem.write a.toNat b := rfl
@[simp] theorem State.setByte_env (s : State) (a : Word) (b : Byte) : (s.setByte a b).env = s.env := rfl
@[simp] theorem State.setByte_params (s : State) (a : Word) (b : Byte) :
    (s.setByte a b).params = s.params := rfl

@[simp] theorem State.putStored_regs (s : State) (w : Width) (a v : Word) :
    (s.putStored w a v).regs = s.regs := by cases w <;> rfl
@[simp] theorem State.putStored_env (s : State) (w : Width) (a v : Word) :
    (s.putStored w a v).env = s.env := by cases w <;> rfl
@[simp] theorem State.putStored_params (s : State) (w : Width) (a v : Word) :
    (s.putStored w a v).params = s.params := by cases w <;> rfl

@[simp] theorem State.sent_regs (s : State) (q : Request) : (s.sent q).regs = s.regs := rfl
@[simp] theorem State.sent_mem (s : State) (q : Request) :
    (s.sent q).mem = s.mem.touch (answerTouched (s.answer q)) := rfl
@[simp] theorem State.sent_env (s : State) (q : Request) : (s.sent q).env = (s.env.ask q).2 := rfl
@[simp] theorem State.sent_params (s : State) (q : Request) : (s.sent q).params = s.params := rfl

@[simp] theorem State.hitConsole_regs (s : State) (q : Request) : (s.hitConsole q).regs = s.regs := rfl
@[simp] theorem State.hitConsole_mem (s : State) (q : Request) : (s.hitConsole q).mem = s.mem := rfl
@[simp] theorem State.hitConsole_params (s : State) (q : Request) :
    (s.hitConsole q).params = s.params := rfl
@[simp] theorem State.hitConsole_env (s : State) (q : Request) : (s.hitConsole q).env
    = { s.env with consoleRequests := s.env.consoleRequests ++ [q] } := rfl

@[simp] theorem State.setFlags_mem (s : State) (f : Flags) : (s.setFlags f).mem = s.mem := rfl
@[simp] theorem State.setFlags_env (s : State) (f : Flags) : (s.setFlags f).env = s.env := rfl
@[simp] theorem State.setFlags_params (s : State) (f : Flags) : (s.setFlags f).params = s.params := rfl

theorem State.setFlags_reg_other (s : State) (f : Flags) {r : Reg} (h : r ≠ .sr) :
    (s.setFlags f).reg r = s.reg r := State.reg_setReg_other _ _ h

@[simp] theorem postIncrement_mem (o : SrcOperand) (w : Width) (s : State) :
    (postIncrement o w s).mem = s.mem := by cases o <;> rfl
@[simp] theorem postIncrement_env (o : SrcOperand) (w : Width) (s : State) :
    (postIncrement o w s).env = s.env := by cases o <;> rfl
@[simp] theorem postIncrement_params (o : SrcOperand) (w : Width) (s : State) :
    (postIncrement o w s).params = s.params := by cases o <;> rfl

/-- Only the base register of `@Rn+` is touched by a post-increment. -/
theorem postIncrement_reg_other {o : SrcOperand} {r : Reg} (w : Width) (s : State)
    (h : o ≠ .indirectInc r) : (postIncrement o w s).reg r = s.reg r := by
  cases o <;> try rfl
  rename_i q
  exact State.reg_setReg_other _ _ (fun e => h (by rw [e]))

/-- The environment keeps its bindings whatever it is asked. -/
theorem Env.ask_bindings (e : Env) (q : Request) :
    (e.ask q).2.console = e.console ∧ (e.ask q).2.readHooks = e.readHooks
      ∧ (e.ask q).2.writeHooks = e.writeHooks ∧ (e.ask q).2.fetchHooked = e.fetchHooked := by
  unfold Env.ask
  split <;> exact ⟨rfl, rfl, rfl, rfl⟩

/-- Every request to a bound address is logged once. -/
theorem Env.ask_requests (e : Env) (q : Request) : (e.ask q).2.requests = e.requests ++ [q] := by
  unfold Env.ask
  split <;> rfl

end Sys2Proof.Machine
end

