-- ==== Sys2Proof/Laws/Flags.lean ====
section
/-! SUPPORT. The flags in SR: reading what was written, keeping every other bit, and the range of each computed result. -/

namespace Sys2Proof.Machine

@[simp] theorem flagsOf_withFlags (f : Flags) (sr : Word) : flagsOf (withFlags f sr) = f := by
  obtain ⟨c, z, n, v⟩ := f
  simp only [flagsOf, withFlags, flagBit, BitVec.getLsbD_or, BitVec.getLsbD_and]
  cases c <;> cases z <;> cases n <;> cases v <;> simp

/-- Writing flags keeps the other twelve bits of SR. -/
theorem withFlags_getLsbD_other (f : Flags) (sr : Word) {k : Nat} (h0 : k ≠ 0) (h1 : k ≠ 1)
    (h2 : k ≠ 2) (h8 : k ≠ 8) : (withFlags f sr).getLsbD k = sr.getLsbD k := by
  obtain ⟨c, z, n, v⟩ := f
  by_cases hk : k < 16
  · simp only [withFlags, flagBit, BitVec.getLsbD_or, BitVec.getLsbD_and]
    interval_cases k <;> first | contradiction | (cases c <;> cases z <;> cases n <;> cases v <;> simp)
  · rw [BitVec.getLsbD_of_ge _ _ (by omega), BitVec.getLsbD_of_ge _ _ (by omega)]

/-- Writing back the flags that are there changes nothing. -/
@[simp] theorem withFlags_flagsOf (sr : Word) : withFlags (flagsOf sr) sr = sr := by
  apply BitVec.eq_of_getLsbD_eq
  intro k hk
  by_cases h : k ≠ 0 ∧ k ≠ 1 ∧ k ≠ 2 ∧ k ≠ 8
  · exact withFlags_getLsbD_other _ _ h.1 h.2.1 h.2.2.1 h.2.2.2
  · have hf := flagsOf_withFlags (flagsOf sr) sr
    simp only [flagsOf, Flags.mk.injEq] at hf
    obtain ⟨hc, hz, hn, hv⟩ := hf
    have hcases : k = 0 ∨ k = 1 ∨ k = 2 ∨ k = 8 := by omega
    rcases hcases with rfl | rfl | rfl | rfl
    · exact hc
    · exact hz
    · exact hn
    · exact hv

@[simp] theorem State.flags_setFlags (s : State) (f : Flags) : (s.setFlags f).flags = f := by
  simp [State.flags, State.setFlags]
  exact flagsOf_withFlags f s.regs.sr

@[simp] theorem State.setFlags_flags (s : State) : s.setFlags s.flags = s := by
  unfold State.setFlags State.flags
  rw [withFlags_flagsOf]
  exact State.setReg_reg s .sr

theorem State.flags_setReg_other (s : State) {r : Reg} (v : Word) (h : r ≠ .sr) :
    (s.setReg r v).flags = s.flags := by
  unfold State.flags
  have hr : (s.setReg r v).regs.sr = s.regs.sr :=
    State.reg_setReg_other s v (Ne.symm h)
  rw [hr]

@[simp] theorem mask_and_mask (w : Width) (v : Word) : v &&& mask w &&& mask w = v &&& mask w := by
  rw [BitVec.and_assoc, BitVec.and_self]

/-- A masked byte is at most 0xFF, a masked word at most 0xFFFF. -/
theorem toNat_and_mask_le (w : Width) (v : Word) : (v &&& mask w).toNat ≤ (mask w).toNat := by
  rw [BitVec.toNat_and]
  exact Nat.and_le_right

/-- The adder's result is the exact sum modulo the width. -/
theorem addCore_val (a b : Word) (cin : Bool) (w : Width) :
    (addCore a b cin w).val = BitVec.ofNat 16 (a.toNat + b.toNat + cin.toNat) &&& mask w := rfl

end Sys2Proof.Machine
end

