-- ==== Sys2Proof/Laws/Memory.lean ====
section
/-! SUPPORT. The flat store: reading after writing, and the canonical form, which every operation keeps. -/

namespace Sys2Proof.Machine

@[simp] theorem Memory.read_nil (a : Nat) : Memory.read [] a = Config.unlistedByte := rfl

theorem Memory.read_cons (k : Nat) (v : Byte) (rest : Memory) (a : Nat) :
    Memory.read ((k, v) :: rest) a = if k = a then v else Memory.read rest a := rfl

/-- An address below every listed one is unlisted. -/
theorem Memory.read_of_lt {m : Memory} {a : Nat} (h : ∀ c ∈ m, a < c.1) :
    m.read a = Config.unlistedByte := by
  induction m with
  | nil => rfl
  | cons c rest ih =>
    obtain ⟨k, v⟩ := c
    have hk : a < k := h (k, v) (by simp)
    rw [Memory.read_cons, if_neg (by omega)]
    exact ih fun c hc => h c (by simp [hc])

theorem Memory.wf_nil : Memory.wf [] := ⟨List.Pairwise.nil, by simp⟩

theorem Memory.wf_cons {k : Nat} {v : Byte} {rest : Memory} (h : Memory.wf ((k, v) :: rest)) :
    (∀ c ∈ rest, k < c.1) ∧ Memory.wf rest ∧ k < 65536 ∧ v ≠ Config.unlistedByte := by
  obtain ⟨hp, hall⟩ := h
  obtain ⟨h1, h2⟩ := List.pairwise_cons.mp hp
  exact ⟨h1, ⟨h2, fun c hc => hall c (by simp [hc])⟩, hall (k, v) (by simp)⟩

theorem Memory.wf_mk {k : Nat} {v : Byte} {rest : Memory} (h1 : ∀ c ∈ rest, k < c.1)
    (h2 : Memory.wf rest) (h3 : k < 65536) (h4 : v ≠ Config.unlistedByte) :
    Memory.wf ((k, v) :: rest) := by
  refine ⟨List.pairwise_cons.mpr ⟨h1, h2.1⟩, ?_⟩
  intro c hc
  rcases List.mem_cons.mp hc with rfl | hc
  · exact ⟨h3, h4⟩
  · exact h2.2 c hc

/-- What is listed after a write was listed before, or is the cell written. -/
theorem Memory.mem_write {m : Memory} {a : Nat} {b : Byte} {c : Host.Cell}
    (h : c ∈ m.write a b) : c = (a, b) ∨ c ∈ m := by
  induction m with
  | nil =>
    unfold Memory.write at h
    split at h <;> simp_all
  | cons d rest ih =>
    obtain ⟨k, v⟩ := d
    unfold Memory.write at h
    split at h
    · split at h <;> simp_all
    · split at h
      · split at h <;> simp_all
        rcases h with h | h <;> simp [h]
      · rcases List.mem_cons.mp h with h | h
        · simp [h]
        · rcases ih h with h | h <;> simp [h]

/-- A write keeps the canonical form. -/
theorem Memory.wf_write {m : Memory} {a : Nat} (b : Byte) (h : m.wf) (ha : a < 65536) :
    (m.write a b).wf := by
  induction m with
  | nil =>
    unfold Memory.write
    split
    · exact Memory.wf_nil
    · exact Memory.wf_mk (by simp) Memory.wf_nil ha ‹_›
  | cons c rest ih =>
    obtain ⟨k, v⟩ := c
    obtain ⟨h1, h2, h3, h4⟩ := Memory.wf_cons h
    unfold Memory.write
    split
    · split
      · exact h
      · refine Memory.wf_mk ?_ h ha ‹_›
        intro c hc
        rcases List.mem_cons.mp hc with rfl | hc
        · assumption
        · exact lt_trans ‹_› (h1 c hc)
    · split
      · split
        · exact h2
        · subst_vars
          exact Memory.wf_mk h1 h2 ha ‹_›
      · refine Memory.wf_mk ?_ (ih h2) h3 h4
        intro c hc
        rcases Memory.mem_write hc with rfl | hc
        · show k < a
          omega
        · exact h1 c hc

/-- The byte written is the byte read. -/
theorem Memory.read_write_same {m : Memory} (a : Nat) (b : Byte) (h : m.wf) :
    (m.write a b).read a = b := by
  induction m with
  | nil =>
    unfold Memory.write
    split
    · exact ‹b = _›.symm
    · simp [Memory.read_cons]
  | cons c rest ih =>
    obtain ⟨k, v⟩ := c
    obtain ⟨h1, h2, -, -⟩ := Memory.wf_cons h
    unfold Memory.write
    split
    · split
      · rw [‹b = _›]
        refine Memory.read_of_lt fun c hc => ?_
        rcases List.mem_cons.mp hc with rfl | hc
        · assumption
        · exact lt_trans ‹_› (h1 c hc)
      · simp [Memory.read_cons]
    · split
      · split
        · rw [‹b = _›]
          exact Memory.read_of_lt fun c hc => by subst_vars; exact h1 c hc
        · simp [Memory.read_cons]
      · rw [Memory.read_cons, if_neg (by omega)]
        exact ih h2

/-- Every other byte reads as before. -/
theorem Memory.read_write_other (m : Memory) {a x : Nat} (b : Byte) (h : x ≠ a) :
    (m.write a b).read x = m.read x := by
  induction m with
  | nil =>
    unfold Memory.write
    split
    · rfl
    · rw [Memory.read_cons, if_neg (Ne.symm h)]
  | cons c rest ih =>
    obtain ⟨k, v⟩ := c
    unfold Memory.write
    split
    · split
      · rfl
      · rw [Memory.read_cons, if_neg (Ne.symm h)]
    · split
      · subst_vars
        split
        · rw [Memory.read_cons, if_neg (Ne.symm h)]
        · rw [Memory.read_cons, if_neg (Ne.symm h), Memory.read_cons, if_neg (Ne.symm h)]
      · rw [Memory.read_cons, Memory.read_cons, ih]

/-- What a hook writes keeps the canonical form. -/
theorem Memory.wf_touch {m : Memory} (l : List (Word × Byte)) (h : m.wf) : (m.touch l).wf := by
  induction l generalizing m with
  | nil => exact h
  | cons p rest ih => exact ih (Memory.wf_write p.2 h p.1.isLt)

@[simp] theorem State.byteAt_setByte_same {s : State} (a : Word) (b : Byte) (h : Memory.wf s.mem) :
    (s.setByte a b).byteAt a = b := Memory.read_write_same _ _ h

theorem State.byteAt_setByte_other (s : State) {a x : Word} (b : Byte) (h : x ≠ a) :
    (s.setByte a b).byteAt x = s.byteAt x :=
  Memory.read_write_other _ _ fun e => h (BitVec.eq_of_toNat_eq e)

theorem State.wf_setByte {s : State} (a : Word) (b : Byte) (h : Memory.wf s.mem) :
    Memory.wf (s.setByte a b).mem := Memory.wf_write b h a.isLt

/-- Storing a byte or a word keeps the canonical form. -/
theorem State.wf_putStored {s : State} (w : Width) (a v : Word) (h : Memory.wf s.mem) :
    Memory.wf (s.putStored w a v).mem := by
  cases w
  · exact State.wf_setByte _ _ (State.wf_setByte _ _ h)
  · exact State.wf_setByte _ _ h

/-- Placing bytes keeps the canonical form. -/
theorem wf_placeBytes {s : State} (a : Word) (bytes : List Byte) (h : Memory.wf s.mem) :
    Memory.wf (placeBytes a bytes s).mem := by
  induction bytes generalizing a s with
  | nil => exact h
  | cons b rest ih => exact ih _ (State.wf_setByte _ _ h)

end Sys2Proof.Machine
end

