-- ==== Sys2Proof/Laws/Ops.lean ====
section
/-! SUPPORT. What each operation of the memory port can do, said once, and the sequencing of operations. -/

namespace Sys2Proof.Machine

/-! ## Sequencing -/

@[simp] theorem Res.ok_andThen {α β : Type} (a : α) (s : State) (g : α → State → Res β) :
    (Res.ok a s).andThen g = g a s := rfl

@[simp] theorem Res.fault_andThen {α β : Type} (f : Fault) (g : α → State → Res β) :
    (Res.fault f : Res α).andThen g = .fault f := rfl

@[simp] theorem raise_andThen {α β : Type} (f : State → Fault) (s : State) (g : α → State → Res β) :
    (raise f s : Res α).andThen g = raise f s := rfl

/-- A sequence that completes completes each part. -/
theorem Res.andThen_ok {α β : Type} {r : Res α} {g : α → State → Res β} {b : β} {t : State}
    (h : r.andThen g = .ok b t) : ∃ a s, r = .ok a s ∧ g a s = .ok b t := by
  cases r with
  | ok a s => exact ⟨a, s, rfl, h⟩
  | fault f => simp at h

/-- A sequence that faults faults in one of its parts. -/
theorem Res.andThen_fault {α β : Type} {r : Res α} {g : α → State → Res β} {f : Fault}
    (h : r.andThen g = .fault f) : r = .fault f ∨ ∃ a s, r = .ok a s ∧ g a s = .fault f := by
  cases r with
  | ok a s => exact .inr ⟨a, s, rfl, h⟩
  | fault f' => exact .inl (by simpa using h)

theorem Res.outcome_next {r : Res Unit} {t : State} : r.outcome = .next t ↔ r = .ok () t := by
  cases r with
  | ok a s => simp [Res.outcome]
  | fault f => simp [Res.outcome]

theorem Res.outcome_fault {r : Res Unit} {f : Fault} : r.outcome = .fault f ↔ r = .fault f := by
  cases r with
  | ok a s => simp [Res.outcome]
  | fault f' => simp [Res.outcome]

/-- No operation refuses. -/
theorem Res.outcome_ne_refused (r : Res Unit) (x : Refusal) : r.outcome ≠ .refused x := by
  cases r <;> simp [Res.outcome]

/-! ## What the environment may do while it is asked -/

theorem SameBindings.refl (s : State) : SameBindings s s := ⟨rfl, rfl, rfl, rfl, rfl⟩

theorem SameBindings.trans {s t u : State} (h : SameBindings s t) (k : SameBindings t u) :
    SameBindings s u := by
  obtain ⟨h1, h2, h3, h4, h5⟩ := h
  obtain ⟨k1, k2, k3, k4, k5⟩ := k
  exact ⟨k1.trans h1, k2.trans h2, k3.trans h3, k4.trans h4, k5.trans h5⟩

/-- `t` is `s` after hooks were asked some requests and console addresses read: the registers and bindings
are kept, the memory is kept in canonical form, and kept whole if no hook was asked (R49). -/
def Asked (s t : State) : Prop :=
  t.regs = s.regs ∧ SameBindings s t ∧ s.env.requests <+: t.env.requests
    ∧ (t.env.requests = s.env.requests → t.mem = s.mem) ∧ (Memory.wf s.mem → Memory.wf t.mem)

theorem Asked.refl (s : State) : Asked s s :=
  ⟨rfl, SameBindings.refl s, List.prefix_refl _, fun _ => rfl, id⟩

theorem Asked.trans {s t u : State} (h : Asked s t) (k : Asked t u) : Asked s u := by
  obtain ⟨h1, h2, h3, h4, h5⟩ := h
  obtain ⟨k1, k2, k3, k4, k5⟩ := k
  refine ⟨k1.trans h1, h2.trans k2, h3.trans k3, fun e => ?_, fun w => k5 (h5 w)⟩
  have ht : t.env.requests = s.env.requests :=
    (h3.eq_of_length (le_antisymm h3.length_le (by rw [← e]; exact k3.length_le))).symm
  rw [k4 (e.trans ht.symm), h4 ht]

theorem asked_sent (s : State) (q : Request) : Asked s (s.sent q) := by
  obtain ⟨h1, h2, h3, h4⟩ := Env.ask_bindings s.env q
  refine ⟨rfl, ⟨h1, h2, h3, h4, rfl⟩, ?_, fun e => ?_, fun w => Memory.wf_touch _ w⟩
  · rw [State.sent_env, Env.ask_requests]
    exact List.prefix_append _ _
  · rw [State.sent_env, Env.ask_requests] at e
    have := congrArg List.length e
    simp at this

theorem asked_hitConsole (s : State) (q : Request) : Asked s (s.hitConsole q) :=
  ⟨rfl, ⟨rfl, rfl, rfl, rfl, rfl⟩, List.prefix_refl _, fun _ => rfl, id⟩

/-- `t` is `s` once an access of width `w` at `a` has stored something there, or handed it to a hook. -/
def StoredAt (w : Width) (a : Word) (s t : State) : Prop :=
  ∃ s1, Asked s s1 ∧ (t = s1 ∨ ∃ x, t = s1.putStored w a x)

/-! ## The memory port -/

theorem accessGuard_byte (p : Params) (a : Word) : accessGuard p .byte a = none := rfl

/-- When a word access passes its guard (R44). -/
theorem accessGuard_word_none {p : Params} {a : Word} :
    accessGuard p .word a = none ↔ a.getLsbD 0 = false ∧ ¬ 0xFFFF - a.toNat < p.wordGuard := by
  unfold accessGuard
  dsimp only
  split
  · simp [*]
  · split
    · simp [*]
    · exact ⟨fun _ => ⟨Bool.eq_false_iff.mpr ‹_›, ‹_›⟩, fun _ => rfl⟩

/-- When any access passes its guard. -/
theorem accessGuard_none {p : Params} {w : Width} {a : Word} :
    accessGuard p w a = none ↔
      (w = .word → a.getLsbD 0 = false ∧ ¬ 0xFFFF - a.toNat < p.wordGuard) := by
  cases w
  · rw [accessGuard_word_none]; simp
  · simp [accessGuard]

/-- A guard's fault carries the state it finds. -/
theorem accessGuard_left {p : Params} {w : Width} {a : Word} {f : State → Fault}
    (h : accessGuard p w a = some f) (s : State) : (f s).left = s := by
  cases w
  · unfold accessGuard at h
    dsimp only at h
    split at h
    · cases h; rfl
    · split at h
      · cases h; rfl
      · cases h
  · cases h

/-- What a load of the flat store does: its bytes with no change, or any value at a console address. -/
theorem flatLoad_cases (w : Width) (a : Word) (s : State) :
    (s.env.atConsole a (size w).toNat = false ∧ flatLoad w a s = .ok (s.stored w a) s) ∨
    (s.env.atConsole a (size w).toNat = true ∧ flatLoad w a s
      = .ok (s.consoleValue.setWidth 16 &&& mask w) (s.hitConsole (.load a w))) := by
  unfold flatLoad
  cases s.env.atConsole a (size w).toNat
  · exact .inl ⟨rfl, rfl⟩
  · exact .inr ⟨rfl, rfl⟩

/-- What a store to the flat store does: its bytes, or any value in them at a console address. -/
theorem flatStore_cases (w : Width) (a v : Word) (s : State) :
    (s.env.atConsole a (size w).toNat = false ∧ flatStore w a v s = .ok () (s.putStored w a v)) ∨
    (s.env.atConsole a (size w).toNat = true ∧ flatStore w a v s
      = .ok () ((s.hitConsole (.store a w (v &&& mask w))).putStored w a
          (s.consoleValue.setWidth 16))) := by
  unfold flatStore
  cases s.env.atConsole a (size w).toNat
  · exact .inl ⟨rfl, rfl⟩
  · exact .inr ⟨rfl, rfl⟩

/-- A load of the flat store completes, and keeps the registers and the bytes (R43). -/
theorem flatLoad_ok (w : Width) (a : Word) (s : State) :
    ∃ v t, flatLoad w a s = .ok v t ∧ Asked s t := by
  rcases flatLoad_cases w a s with ⟨-, e⟩ | ⟨-, e⟩
  · exact ⟨_, _, e, Asked.refl s⟩
  · exact ⟨_, _, e, asked_hitConsole s _⟩

/-- A store to the flat store completes, and changes only the bytes it covers (R43). -/
theorem flatStore_ok (w : Width) (a v : Word) (s : State) :
    ∃ t, flatStore w a v s = .ok () t ∧ StoredAt w a s t := by
  rcases flatStore_cases w a v s with ⟨-, e⟩ | ⟨-, e⟩
  · exact ⟨_, e, s, Asked.refl s, .inr ⟨v, rfl⟩⟩
  · exact ⟨_, e, _, asked_hitConsole s _, .inr ⟨_, rfl⟩⟩

/-- What a load can do: stop at its guard, load from the flat store, or ask the hook, whose error falls
back to the flat store. -/
theorem load_cases (w : Width) (a : Word) (s : State) :
    (∃ f, accessGuard s.params w a = some f ∧ load w a s = .fault (f s)) ∨
    (accessGuard s.params w a = none ∧ s.env.hooksLoad a = false
      ∧ load w a s = flatLoad w a s) ∨
    (accessGuard s.params w a = none ∧ s.env.hooksLoad a = true ∧
      ((∃ v l, s.answer (.load a w) = .value v l
          ∧ load w a s = .ok (v.setWidth 16 &&& mask w) (s.sent (.load a w))) ∨
       (∃ e l, s.answer (.load a w) = .error e l
          ∧ load w a s = flatLoad w a (s.sent (.load a w))) ∨
       (∃ l, s.answer (.load a w) = .never l
          ∧ load w a s = .fault (.noReply a (s.sent (.load a w)))))) := by
  cases hg : accessGuard s.params w a with
  | some f => exact .inl ⟨f, rfl, by simp [load, hg, raise]⟩
  | none =>
    cases hb : s.env.hooksLoad a with
    | false => exact .inr (.inl ⟨rfl, rfl, by simp [load, hg, hb]⟩)
    | true =>
      refine .inr (.inr ⟨rfl, rfl, ?_⟩)
      cases ha : s.answer (.load a w) with
      | value v l => exact .inl ⟨v, l, rfl, by simp [load, hg, hb, ha]⟩
      | error e l => exact .inr (.inl ⟨e, l, rfl, by simp [load, hg, hb, ha]⟩)
      | never l => exact .inr (.inr ⟨l, rfl, by simp [load, hg, hb, ha, raise]⟩)

/-- What a store can do: stop at its guard, store to the flat store, or hand the value to the hook. -/
theorem store_cases (w : Width) (a v : Word) (s : State) :
    (∃ f, accessGuard s.params w a = some f ∧ store w a v s = .fault (f s)) ∨
    (accessGuard s.params w a = none ∧ s.env.hooksStore a = false
      ∧ store w a v s = flatStore w a v s) ∨
    (accessGuard s.params w a = none ∧ s.env.hooksStore a = true ∧
      ((∃ x l, s.answer (.store a w (v &&& mask w)) = .value x l
          ∧ store w a v s = .ok () (s.sent (.store a w (v &&& mask w)))) ∨
       (∃ e l, s.answer (.store a w (v &&& mask w)) = .error e l
          ∧ store w a v s = .fault (.collaborator e (s.sent (.store a w (v &&& mask w))))) ∨
       (∃ l, s.answer (.store a w (v &&& mask w)) = .never l
          ∧ store w a v s = .fault (.noReply a (s.sent (.store a w (v &&& mask w))))))) := by
  cases hg : accessGuard s.params w a with
  | some f => exact .inl ⟨f, rfl, by simp [store, hg, raise]⟩
  | none =>
    cases hb : s.env.hooksStore a with
    | false => exact .inr (.inl ⟨rfl, rfl, by simp [store, hg, hb]⟩)
    | true =>
      refine .inr (.inr ⟨rfl, rfl, ?_⟩)
      cases ha : s.answer (.store a w (v &&& mask w)) with
      | value x l => exact .inl ⟨x, l, rfl, by simp [store, hg, hb, ha]⟩
      | error e l => exact .inr (.inl ⟨e, l, rfl, by simp [store, hg, hb, ha, raise]⟩)
      | never l => exact .inr (.inr ⟨l, rfl, by simp [store, hg, hb, ha, raise]⟩)

/-- A load that completes changes nothing but the environment and what a hook writes. -/
theorem load_ok {w : Width} {a : Word} {s t : State} {v : Word} (h : load w a s = .ok v t) :
    Asked s t := by
  rcases load_cases w a s with ⟨f, -, e⟩ | ⟨-, -, e⟩ | ⟨-, -, ⟨x, l, -, e⟩ | ⟨x, l, -, e⟩ | ⟨l, -, e⟩⟩
    <;> rw [e] at h
  · cases h
  · obtain ⟨x, t', h', ha⟩ := flatLoad_ok w a s
    rw [h'] at h; cases h; exact ha
  · cases h; exact asked_sent _ _
  · obtain ⟨x, t', h', ha⟩ := flatLoad_ok w a (s.sent (.load a w))
    rw [h'] at h; cases h; exact (asked_sent _ _).trans ha
  · cases h

/-- A load that faults leaves everything but the environment. -/
theorem load_fault {w : Width} {a : Word} {s : State} {f : Fault} (h : load w a s = .fault f) :
    Asked s f.left := by
  rcases load_cases w a s with ⟨g, hg, e⟩ | ⟨-, -, e⟩ | ⟨-, -, ⟨x, l, -, e⟩ | ⟨x, l, -, e⟩ | ⟨l, -, e⟩⟩
    <;> rw [e] at h
  · cases h; rw [accessGuard_left hg s]; exact Asked.refl s
  · obtain ⟨x, t', h', -⟩ := flatLoad_ok w a s
    rw [h'] at h; cases h
  · cases h
  · obtain ⟨x, t', h', -⟩ := flatLoad_ok w a (s.sent (.load a w))
    rw [h'] at h; cases h
  · cases h; exact asked_sent _ _

/-- A store that completes changes only the bytes it covers, or hands its value to a hook. -/
theorem store_ok {w : Width} {a v : Word} {s t : State} (h : store w a v s = .ok () t) :
    StoredAt w a s t := by
  rcases store_cases w a v s with ⟨f, -, e⟩ | ⟨-, -, e⟩ | ⟨-, -, ⟨x, l, -, e⟩ | ⟨x, l, -, e⟩ | ⟨l, -, e⟩⟩
    <;> rw [e] at h
  · cases h
  · obtain ⟨t', h', ha⟩ := flatStore_ok w a v s
    rw [h'] at h; cases h; exact ha
  · cases h; exact ⟨_, asked_sent _ _, .inl rfl⟩
  · cases h
  · cases h

/-- A store that faults writes no register, and no byte but a hook's. -/
theorem store_fault {w : Width} {a v : Word} {s : State} {f : Fault} (h : store w a v s = .fault f) :
    Asked s f.left := by
  rcases store_cases w a v s with ⟨g, hg, e⟩ | ⟨-, -, e⟩ | ⟨-, -, ⟨x, l, -, e⟩ | ⟨x, l, -, e⟩ | ⟨l, -, e⟩⟩
    <;> rw [e] at h
  · cases h; rw [accessGuard_left hg s]; exact Asked.refl s
  · obtain ⟨t', h', -⟩ := flatStore_ok w a v s
    rw [h'] at h; cases h
  · cases h
  · cases h; exact asked_sent _ _
  · cases h; exact asked_sent _ _

/-- A fetch guard's fault carries the state it finds. -/
theorem fetchGuardAt_left {p : Params} {a : Word} {f : State → Fault}
    (h : fetchGuardAt p a = some f) (s : State) : (f s).left = s := by
  unfold fetchGuardAt at h
  split at h
  · cases h; rfl
  · split at h
    · cases h; rfl
    · cases h

@[simp] theorem windowAt_length (s : State) (a : Word) : (s.windowAt a).length = 6 := by
  simp [State.windowAt, windowBytes]

@[simp] theorem windowOfAnswer_length (v : BitVec 48) : (windowOfAnswer v).length = 6 := by
  simp [windowOfAnswer, windowBytes]

/-- What a fetch of the flat store does: six bytes, with no change or with a console access logged. -/
theorem flatFetch_cases (a : Word) (s : State) :
    (s.env.atConsole a windowBytes = false ∧ flatFetch a s = .ok (s.windowAt a) s) ∨
    (s.env.atConsole a windowBytes = true
      ∧ flatFetch a s = .ok (windowOfAnswer s.consoleValue) (s.hitConsole (.fetch a))) := by
  unfold flatFetch
  cases s.env.atConsole a windowBytes
  · exact .inl ⟨rfl, rfl⟩
  · exact .inr ⟨rfl, rfl⟩

theorem flatFetch_ok (a : Word) (s : State) :
    ∃ bytes t, flatFetch a s = .ok bytes t ∧ bytes.length = 6 ∧ Asked s t := by
  rcases flatFetch_cases a s with ⟨-, e⟩ | ⟨-, e⟩
  · exact ⟨_, _, e, windowAt_length s a, Asked.refl s⟩
  · exact ⟨_, _, e, windowOfAnswer_length _, asked_hitConsole s _⟩

/-- What a fetch can do. -/
theorem fetch6_cases (a : Word) (s : State) :
    (∃ f, fetchGuardAt s.params a = some f ∧ fetch6 a s = .fault (f s)) ∨
    (fetchGuardAt s.params a = none ∧ s.env.hooksFetch a = false
      ∧ fetch6 a s = flatFetch a s) ∨
    (fetchGuardAt s.params a = none ∧ s.env.hooksFetch a = true ∧
      ((∃ v l, s.answer (.fetch a) = .value v l
          ∧ fetch6 a s = .ok (windowOfAnswer v) (s.sent (.fetch a))) ∨
       (∃ e l, s.answer (.fetch a) = .error e l
          ∧ fetch6 a s = flatFetch a (s.sent (.fetch a))) ∨
       (∃ l, s.answer (.fetch a) = .never l
          ∧ fetch6 a s = .fault (.noReply a (s.sent (.fetch a)))))) := by
  cases hg : fetchGuardAt s.params a with
  | some f => exact .inl ⟨f, rfl, by simp [fetch6, hg, raise]⟩
  | none =>
    cases hb : s.env.hooksFetch a with
    | false => exact .inr (.inl ⟨rfl, rfl, by simp [fetch6, hg, hb]⟩)
    | true =>
      refine .inr (.inr ⟨rfl, rfl, ?_⟩)
      cases ha : s.answer (.fetch a) with
      | value v l => exact .inl ⟨v, l, rfl, by simp [fetch6, hg, hb, ha]⟩
      | error e l => exact .inr (.inl ⟨e, l, rfl, by simp [fetch6, hg, hb, ha]⟩)
      | never l => exact .inr (.inr ⟨l, rfl, by simp [fetch6, hg, hb, ha, raise]⟩)

/-- A fetch supplies six bytes and changes nothing but the environment and what a hook writes. -/
theorem fetch6_ok {a : Word} {s t : State} {bytes : List Byte} (h : fetch6 a s = .ok bytes t) :
    bytes.length = 6 ∧ Asked s t := by
  rcases fetch6_cases a s with ⟨f, -, e⟩ | ⟨-, -, e⟩ | ⟨-, -, ⟨x, l, -, e⟩ | ⟨x, l, -, e⟩ | ⟨l, -, e⟩⟩
    <;> rw [e] at h
  · cases h
  · obtain ⟨b, t', h', hl, ha⟩ := flatFetch_ok a s
    rw [h'] at h; cases h; exact ⟨hl, ha⟩
  · cases h; exact ⟨windowOfAnswer_length _, asked_sent _ _⟩
  · obtain ⟨b, t', h', hl, ha⟩ := flatFetch_ok a (s.sent (.fetch a))
    rw [h'] at h; cases h; exact ⟨hl, (asked_sent _ _).trans ha⟩
  · cases h

/-- A fetch that faults leaves everything but the environment. -/
theorem fetch6_fault {a : Word} {s : State} {f : Fault} (h : fetch6 a s = .fault f) :
    Asked s f.left := by
  rcases fetch6_cases a s with ⟨g, hg, e⟩ | ⟨-, -, e⟩ | ⟨-, -, ⟨x, l, -, e⟩ | ⟨x, l, -, e⟩ | ⟨l, -, e⟩⟩
    <;> rw [e] at h
  · cases h; rw [fetchGuardAt_left hg s]; exact Asked.refl s
  · obtain ⟨b, t', h', -⟩ := flatFetch_ok a s
    rw [h'] at h; cases h
  · cases h
  · obtain ⟨b, t', h', -⟩ := flatFetch_ok a (s.sent (.fetch a))
    rw [h'] at h; cases h
  · cases h; exact asked_sent _ _

/-- A fetch that nothing bound answers: the stored window, with no change. -/
theorem fetch6_plain {a : Word} {s : State} (hg : fetchGuardAt s.params a = none)
    (hb : s.env.bindsFetch a = false) : fetch6 a s = .ok (s.windowAt a) s := by
  obtain ⟨h1, h2⟩ := Bool.or_eq_false_iff.mp hb
  simp [fetch6, flatFetch, hg, h1, h2]

end Sys2Proof.Machine
end

