-- ==== Sys2Proof/Laws/Operands.lean ====
section
/-! SUPPORT. What reading and writing an operand can do, and the two families' common parts: with operands the environment takes no part in, an equation; in every state, what is kept. -/

namespace Sys2Proof.Machine

/-! ## Operands the environment takes no part in -/

theorem load_plain {w : Width} {a : Word} {s : State} (h : PlainLoad w a s) :
    load w a s = .ok (s.stored w a) s := by
  have hg := accessGuard_none.mpr h.1
  obtain ⟨h1, h2⟩ := Bool.or_eq_false_iff.mp h.2
  simp [load, flatLoad, hg, h1, h2]

theorem store_plain {w : Width} {a v : Word} {s : State} (h : PlainStore w a s) :
    store w a v s = .ok () (s.putStored w a v) := by
  have hg := accessGuard_none.mpr h.1
  obtain ⟨h1, h2⟩ := Bool.or_eq_false_iff.mp h.2
  simp [store, flatStore, hg, h1, h2]

theorem readLoc_plain {l : Loc} {w : Width} {s : State} (h : Readable l w s) :
    readLoc l w s = .ok (valueAt l w s) s := by
  cases l with
  | reg r => rfl
  | mem ea => exact load_plain h
  | noLoc k => rfl

theorem readSrc_plain {o : SrcOperand} {w : Width} {s : State} (h : SrcReady w o s) :
    readSrc o w s = .ok (srcValue w o s) (postIncrement o w s) := by
  unfold readSrc
  rw [readLoc_plain h]
  rfl

/-- Storing a value or its masked form is the same. -/
@[simp] theorem putStored_and_mask (s : State) (w : Width) (a v : Word) :
    s.putStored w a (v &&& mask w) = s.putStored w a v := by
  cases w
  · have h : v &&& mask .word = v := by
      show v &&& 0xFFFF#16 = v
      exact BitVec.and_allOnes
    rw [h]
  · have h : lowByte (v &&& mask .byte) = lowByte v := by
      apply BitVec.eq_of_getLsbD_eq
      intro i hi
      have hm : (0x00FF#16).getLsbD i = true := by interval_cases i <;> rfl
      simp only [lowByte, mask, BitVec.getLsbD_extractLsb', BitVec.getLsbD_and, Nat.zero_add, hm,
        Bool.and_true]
    simp only [State.putStored, h]

theorem writeLoc_plain {w0 : Word} {l : Loc} {w : Width} {v : Word} {s : State}
    (h : Writable l w s) : writeLoc w0 l w v s = .ok () (putAt l w v s) := by
  cases l with
  | reg r => rfl
  | mem ea =>
    show store w ea (v &&& mask w) s = _
    rw [store_plain h, putStored_and_mask]
    rfl
  | noLoc k => exact absurd h id

/-- Whether a location can be read or written does not depend on the registers. -/
theorem readable_congr {l : Loc} {w : Width} {s t : State} (he : t.env = s.env)
    (hp : t.params = s.params) : Readable l w t ↔ Readable l w s := by
  cases l <;> simp [Readable, PlainLoad, he, hp]

theorem writable_congr {l : Loc} {w : Width} {s t : State} (he : t.env = s.env)
    (hp : t.params = s.params) : Writable l w t ↔ Writable l w s := by
  cases l <;> simp [Writable, PlainStore, he, hp]

theorem prefixRefused_of_ok {pre : BitVec 3} {s : State} (h : PrefixOk pre s) :
    prefixRefused pre s.params = false := by
  rcases h with h | h <;> simp [prefixRefused, h]

theorem singleOperand_plain {w0 : Word} {pre : BitVec 3} {w : Width} {o : SrcOperand} {s : State}
    (hp : PrefixOk pre s) (h : SrcReady w o s) :
    singleOperand w0 pre w o s = .ok (srcValue w o s) (postIncrement o w s) := by
  simp [singleOperand, prefixRefused_of_ok hp, readSrc_plain h]

/-- RRC, SWPB, RRA and SXT on operands the environment takes no part in. -/
theorem rewriteOperand_plain {w0 : Word} {pre : BitVec 3} {w : Width} {o : SrcOperand}
    {f : Word → Flags → Alu} {s : State} (hp : PrefixOk pre s) (h : SrcReady w o s)
    (hw : Writable (srcLoc o s) w s) :
    rewriteOperand w0 pre w o f s =
      .ok () (putAt (srcLoc o s) w (f (srcValue w o s) (postIncrement o w s).flags).val
        ((postIncrement o w s).setFlags (f (srcValue w o s) (postIncrement o w s).flags).flags)) := by
  unfold rewriteOperand
  rw [singleOperand_plain hp h, Res.ok_andThen]
  exact writeLoc_plain ((writable_congr (by simp) (by simp)).mpr hw)

/-- The stack push of PUSH and CALL. -/
theorem pushValue_plain {w : Width} {v : Word} {s : State} (h : PlainStore w (s.regs.sp - 2#16) s) :
    pushValue w v s =
      .ok () ((s.setReg .sp (s.regs.sp - 2#16)).putStored w (s.regs.sp - 2#16) v) :=
  store_plain h

/-- A double-operand instruction that writes, on operands the environment takes no part in. -/
theorem twoOperand_writes_plain {w0 : Word} {w : Width} {src : SrcOperand} {dst : DstOperand}
    {f : Word → Word → Flags → Alu} {s : State} (h : BothReady w src dst s)
    (hw : DstWritable w src dst s) :
    twoOperand w0 true true w src dst f s =
      .ok () (putAt (dstLoc w src dst s) w
        (f (srcValue w src s) (dstValue w src dst s) (postIncrement src w s).flags).val
        ((postIncrement src w s).setFlags
          (f (srcValue w src s) (dstValue w src dst s) (postIncrement src w s).flags).flags)) := by
  unfold twoOperand
  rw [readSrc_plain h.1, Res.ok_andThen]
  have hr : readDst true (locateDst dst (postIncrement src w s)) w (postIncrement src w s)
      = .ok (dstValue w src dst s) (postIncrement src w s) := readLoc_plain h.2
  rw [hr, Res.ok_andThen, if_pos rfl]
  exact writeLoc_plain ((writable_congr (by simp) (by simp)).mpr hw)

/-- A double-operand instruction that only compares, on operands the environment takes no part in. -/
theorem twoOperand_compares_plain {w0 : Word} {w : Width} {src : SrcOperand} {dst : DstOperand}
    {f : Word → Word → Flags → Alu} {s : State} (h : BothReady w src dst s) :
    twoOperand w0 true false w src dst f s =
      .ok () ((postIncrement src w s).setFlags
          (f (srcValue w src s) (dstValue w src dst s) (postIncrement src w s).flags).flags) := by
  unfold twoOperand
  rw [readSrc_plain h.1, Res.ok_andThen]
  have hr : readDst true (locateDst dst (postIncrement src w s)) w (postIncrement src w s)
      = .ok (dstValue w src dst s) (postIncrement src w s) := readLoc_plain h.2
  rw [hr, Res.ok_andThen]
  rfl

/-! ## Every state -/

theorem readLoc_ok {l : Loc} {w : Width} {s t : State} {v : Word} (h : readLoc l w s = .ok v t) :
    Asked s t := by
  cases l with
  | reg r => cases h; exact Asked.refl _
  | mem ea => exact load_ok h
  | noLoc k => cases h; exact Asked.refl _

theorem readLoc_fault {l : Loc} {w : Width} {s : State} {f : Fault} (h : readLoc l w s = .fault f) :
    Asked s f.left := by
  cases l with
  | reg r => cases h
  | mem ea => exact load_fault h
  | noLoc k => cases h

theorem readDst_ok {b : Bool} {l : Loc} {w : Width} {s t : State} {v : Word}
    (h : readDst b l w s = .ok v t) : Asked s t := by
  cases b
  · cases h; exact Asked.refl _
  · exact readLoc_ok h

theorem readDst_fault {b : Bool} {l : Loc} {w : Width} {s : State} {f : Fault}
    (h : readDst b l w s = .fault f) : Asked s f.left := by
  cases b
  · cases h
  · exact readLoc_fault h

/-- A source read that completes: the read, then the post-increment. -/
theorem readSrc_ok {o : SrcOperand} {w : Width} {s t : State} {v : Word}
    (h : readSrc o w s = .ok v t) : ∃ s1, Asked s s1 ∧ t = postIncrement o w s1 := by
  obtain ⟨v', s1, h1, h2⟩ := Res.andThen_ok h
  cases h2
  exact ⟨s1, readLoc_ok h1, rfl⟩

/-- A source read that faults does not increment. -/
theorem readSrc_fault {o : SrcOperand} {w : Width} {s : State} {f : Fault}
    (h : readSrc o w s = .fault f) : Asked s f.left := by
  rcases Res.andThen_fault h with h | ⟨v, s1, -, h⟩
  · exact readLoc_fault h
  · cases h

/-- A post-increment depends on the registers alone. -/
theorem postIncrement_asked {o : SrcOperand} {w : Width} {s s1 : State} (h : Asked s s1) :
    Asked (postIncrement o w s) (postIncrement o w s1) := by
  obtain ⟨h1, h2, h3, h4, h5⟩ := h
  have hr : ∀ r, s1.reg r = s.reg r := fun r => by simp [State.reg, h1]
  refine ⟨?_, by simpa [SameBindings] using h2, by simpa using h3, by simpa using h4, by simpa using h5⟩
  cases o <;> simp [postIncrement, h1, hr]

/-- Where a destination is depends on the registers alone. -/
theorem locateDst_asked {o : DstOperand} {s s1 : State} (h : Asked s s1) :
    locateDst o s1 = locateDst o s := by
  cases o <;> simp [locateDst, State.reg, h.1]

/-- What a write that completes leaves. -/
theorem writeLoc_ok {w0 : Word} {l : Loc} {w : Width} {v : Word} {s t : State}
    (h : writeLoc w0 l w v s = .ok () t) :
    (∃ r, l = .reg r ∧ t = s.setReg r (v &&& mask w)) ∨
    (∃ ea, l = .mem ea ∧ StoredAt w ea s t) := by
  cases l with
  | reg r => cases h; exact .inl ⟨r, rfl, rfl⟩
  | mem ea => exact .inr ⟨ea, rfl, store_ok h⟩
  | noLoc k => cases h

/-- A write that faults writes nothing. -/
theorem writeLoc_fault {w0 : Word} {l : Loc} {w : Width} {v : Word} {s : State} {f : Fault}
    (h : writeLoc w0 l w v s = .fault f) : Asked s f.left := by
  cases l with
  | reg r => cases h
  | mem ea => exact store_fault h
  | noLoc k => cases h; exact Asked.refl _

/-- A single operand that is read: the prefix was accepted. -/
theorem singleOperand_ok {w0 : Word} {pre : BitVec 3} {w : Width} {o : SrcOperand} {s t : State}
    {v : Word} (h : singleOperand w0 pre w o s = .ok v t) :
    ∃ s1, Asked s s1 ∧ t = postIncrement o w s1 := by
  unfold singleOperand at h
  split at h
  · cases h
  · exact readSrc_ok h

theorem singleOperand_fault {w0 : Word} {pre : BitVec 3} {w : Width} {o : SrcOperand} {s : State}
    {f : Fault} (h : singleOperand w0 pre w o s = .fault f) : Asked s f.left := by
  unfold singleOperand at h
  split at h
  · cases h; exact Asked.refl _
  · exact readSrc_fault h

end Sys2Proof.Machine
end

