-- ==== Sys2Proof/Laws/PerInstr.lean ====
section
/-! SUPPORT. Facts about every instruction as syntax, one lemma per constructor (LAWS.json). -/

namespace Sys2Proof.Laws

open Sys2Proof

theorem singleWord_row (opc pre : BitVec 3) (bw : Width) (o : SrcOperand) :
    singleWord opc pre bw o &&& 0xE380#16 = (opc.setWidth 16) <<< 7 := by
  apply BitVec.eq_of_getLsbD_eq
  intro i hi
  simp only [singleWord, BitVec.getLsbD_and, BitVec.getLsbD_append, BitVec.getLsbD_shiftLeft,
    BitVec.getLsbD_setWidth]
  interval_cases i <;> simp

theorem jumpWord_row (cond : BitVec 3) (off : BitVec 10) :
    jumpWord cond off &&& 0xFC00#16 = 0x2000#16 ||| (cond.setWidth 16) <<< 10 := by
  apply BitVec.eq_of_getLsbD_eq
  intro i hi
  simp only [jumpWord, BitVec.getLsbD_and, BitVec.getLsbD_or, BitVec.getLsbD_append,
    BitVec.getLsbD_shiftLeft, BitVec.getLsbD_setWidth]
  interval_cases i <;> simp

theorem doubleWord_row (opc : BitVec 4) (bw : Width) (src : SrcOperand) (dst : DstOperand) :
    doubleWord opc bw src dst &&& 0xF000#16 = (opc.setWidth 16) <<< 12 := by
  apply BitVec.eq_of_getLsbD_eq
  intro i hi
  simp only [doubleWord, BitVec.getLsbD_and, BitVec.getLsbD_append, BitVec.getLsbD_shiftLeft,
    BitVec.getLsbD_setWidth]
  interval_cases i <;> simp

namespace TableRow

/-- The first word of an instruction has its row's fixed bits. -/
def Statement (i : Instr) : Prop := firstWord i &&& (tableRow i).1 = (tableRow i).2

theorem rrc (pre : BitVec 3) (bw : Width) (src : SrcOperand) : Statement (.rrc pre bw src) := singleWord_row 0#3 pre bw src

theorem swpb (pre : BitVec 3) (bw : Width) (src : SrcOperand) : Statement (.swpb pre bw src) := singleWord_row 1#3 pre bw src

theorem rra (pre : BitVec 3) (bw : Width) (src : SrcOperand) : Statement (.rra pre bw src) := singleWord_row 2#3 pre bw src

theorem sxt (pre : BitVec 3) (bw : Width) (src : SrcOperand) : Statement (.sxt pre bw src) := singleWord_row 3#3 pre bw src

theorem push (pre : BitVec 3) (bw : Width) (src : SrcOperand) : Statement (.push pre bw src) := singleWord_row 4#3 pre bw src

theorem call (pre : BitVec 3) (bw : Width) (src : SrcOperand) : Statement (.call pre bw src) := singleWord_row 5#3 pre bw src

theorem reti (pre : BitVec 3) (bw : Width) (src : SrcOperand) : Statement (.reti pre bw src) := singleWord_row 6#3 pre bw src

theorem reserved7 (pre : BitVec 3) (bw : Width) (src : SrcOperand) : Statement (.reserved7 pre bw src) := singleWord_row 7#3 pre bw src

theorem jne (off : BitVec 10) : Statement (.jne off) := jumpWord_row 0#3 off

theorem jeq (off : BitVec 10) : Statement (.jeq off) := jumpWord_row 1#3 off

theorem jnc (off : BitVec 10) : Statement (.jnc off) := jumpWord_row 2#3 off

theorem jc (off : BitVec 10) : Statement (.jc off) := jumpWord_row 3#3 off

theorem jn (off : BitVec 10) : Statement (.jn off) := jumpWord_row 4#3 off

theorem jge (off : BitVec 10) : Statement (.jge off) := jumpWord_row 5#3 off

theorem jl (off : BitVec 10) : Statement (.jl off) := jumpWord_row 6#3 off

theorem jmp (off : BitVec 10) : Statement (.jmp off) := jumpWord_row 7#3 off

theorem mov (bw : Width) (src : SrcOperand) (dst : DstOperand) : Statement (.mov bw src dst) := doubleWord_row 4#4 bw src dst

theorem add (bw : Width) (src : SrcOperand) (dst : DstOperand) : Statement (.add bw src dst) := doubleWord_row 5#4 bw src dst

theorem addc (bw : Width) (src : SrcOperand) (dst : DstOperand) : Statement (.addc bw src dst) := doubleWord_row 6#4 bw src dst

theorem subc (bw : Width) (src : SrcOperand) (dst : DstOperand) : Statement (.subc bw src dst) := doubleWord_row 7#4 bw src dst

theorem sub (bw : Width) (src : SrcOperand) (dst : DstOperand) : Statement (.sub bw src dst) := doubleWord_row 8#4 bw src dst

theorem cmp (bw : Width) (src : SrcOperand) (dst : DstOperand) : Statement (.cmp bw src dst) := doubleWord_row 9#4 bw src dst

theorem dadd (bw : Width) (src : SrcOperand) (dst : DstOperand) : Statement (.dadd bw src dst) := doubleWord_row 10#4 bw src dst

theorem bit (bw : Width) (src : SrcOperand) (dst : DstOperand) : Statement (.bit bw src dst) := doubleWord_row 11#4 bw src dst

theorem bic (bw : Width) (src : SrcOperand) (dst : DstOperand) : Statement (.bic bw src dst) := doubleWord_row 12#4 bw src dst

theorem bis (bw : Width) (src : SrcOperand) (dst : DstOperand) : Statement (.bis bw src dst) := doubleWord_row 13#4 bw src dst

theorem xor (bw : Width) (src : SrcOperand) (dst : DstOperand) : Statement (.xor bw src dst) := doubleWord_row 14#4 bw src dst

theorem and (bw : Width) (src : SrcOperand) (dst : DstOperand) : Statement (.and bw src dst) := doubleWord_row 15#4 bw src dst

end TableRow

end Sys2Proof.Laws
end

