-- ==== Sys2Proof/Laws/Step.lean ====
section
/-! SUPPORT. What the common part of each family, a push and the first half of a step can do, said once. -/

namespace Sys2Proof.Machine

/-- RRC, SWPB, RRA and SXT that complete: the operand is read, the flags written, and the result stored
where the operand was. -/
theorem rewriteOperand_ok {w0 : Word} {pre : BitVec 3} {w : Width} {o : SrcOperand}
    {f : Word → Flags → Alu} {s t : State} (h : rewriteOperand w0 pre w o f s = .ok () t) :
    ∃ v s1, Asked s s1 ∧
      writeLoc w0 (srcLoc o s) w (f v (postIncrement o w s1).flags).val
        ((postIncrement o w s1).setFlags (f v (postIncrement o w s1).flags).flags) = .ok () t := by
  obtain ⟨v, s2, h1, h2⟩ := Res.andThen_ok h
  obtain ⟨s1, ha, rfl⟩ := singleOperand_ok h1
  exact ⟨v, s1, ha, h2⟩

/-- RRC, SWPB, RRA and SXT that fault: in the read, with nothing changed, or in the write, with the
post-increment and the flags kept. -/
theorem rewriteOperand_fault {w0 : Word} {pre : BitVec 3} {w : Width} {o : SrcOperand}
    {g : Word → Flags → Alu} {s : State} {f : Fault}
    (h : rewriteOperand w0 pre w o g s = .fault f) :
    Asked s f.left ∨ ∃ v s1, Asked s s1 ∧
      Asked ((postIncrement o w s1).setFlags (g v (postIncrement o w s1).flags).flags) f.left := by
  rcases Res.andThen_fault h with h | ⟨v, s2, h1, h2⟩
  · exact .inl (singleOperand_fault h)
  · obtain ⟨s1, ha, rfl⟩ := singleOperand_ok h1
    exact .inr ⟨v, s1, ha, writeLoc_fault h2⟩

/-- A push that completes: SP has gone down by 2, and only the bytes at it are stored to. -/
theorem pushValue_ok {w : Width} {v : Word} {s t : State} (h : pushValue w v s = .ok () t) :
    StoredAt w (s.regs.sp - 2#16) (s.setReg .sp (s.regs.sp - 2#16)) t := store_ok h

/-- A push that faults has moved SP and stored nothing (R197). -/
theorem pushValue_fault {w : Width} {v : Word} {s : State} {f : Fault}
    (h : pushValue w v s = .fault f) : Asked (s.setReg .sp (s.regs.sp - 2#16)) f.left := store_fault h

/-- A double-operand instruction that completes: the source is read and the post-increment made, the
destination read, the flags written, and the result stored if the opcode writes. -/
theorem twoOperand_ok {w0 : Word} {reads writes : Bool} {w : Width} {src : SrcOperand}
    {dst : DstOperand} {f : Word → Word → Flags → Alu} {s t : State}
    (h : twoOperand w0 reads writes w src dst f s = .ok () t) :
    ∃ v d s2, Asked (postIncrement src w s) s2 ∧
      (writes = true ∧ writeLoc w0 (dstLoc w src dst s) w (f v d s2.flags).val
          (s2.setFlags (f v d s2.flags).flags) = .ok () t
        ∨ writes = false ∧ t = s2.setFlags (f v d s2.flags).flags) := by
  obtain ⟨v, s1', h1, h2⟩ := Res.andThen_ok h
  obtain ⟨s1, ha, rfl⟩ := readSrc_ok h1
  obtain ⟨d, s2, h3, h4⟩ := Res.andThen_ok h2
  have hp := postIncrement_asked (o := src) (w := w) ha
  refine ⟨v, d, s2, hp.trans (readDst_ok h3), ?_⟩
  rw [locateDst_asked hp] at h4
  cases writes
  · exact .inr ⟨rfl, by cases h4; rfl⟩
  · exact .inl ⟨rfl, h4⟩

/-- A double-operand instruction that faults: in the source read with nothing changed, in the
destination read with the post-increment kept, or in the write with the flags kept too (R197). -/
theorem twoOperand_fault {w0 : Word} {reads writes : Bool} {w : Width} {src : SrcOperand}
    {dst : DstOperand} {g : Word → Word → Flags → Alu} {s : State} {f : Fault}
    (h : twoOperand w0 reads writes w src dst g s = .fault f) :
    Asked s f.left ∨ Asked (postIncrement src w s) f.left ∨
      ∃ v d s2, Asked (postIncrement src w s) s2
        ∧ Asked (s2.setFlags (g v d s2.flags).flags) f.left := by
  rcases Res.andThen_fault h with h | ⟨v, s1', h1, h2⟩
  · exact .inl (readSrc_fault h)
  · obtain ⟨s1, ha, rfl⟩ := readSrc_ok h1
    have hp := postIncrement_asked (o := src) (w := w) ha
    rcases Res.andThen_fault h2 with h3 | ⟨d, s2, h3, h4⟩
    · exact .inr (.inl (hp.trans (readDst_fault h3)))
    · refine .inr (.inr ⟨v, d, s2, hp.trans (readDst_ok h3), ?_⟩)
      cases writes
      · cases h4
      · exact writeLoc_fault h4

/-- The first half of a step that completes: a fetch of six bytes, their decoding, the PC advanced. -/
theorem fetchInstr_ok {s t : State} {i : Instr} (h : fetchInstr s = .ok i t) :
    ∃ bytes s1, fetch6 s.regs.pc s = .ok bytes s1 ∧ decode bytes = .ok i ∧ Asked s s1
      ∧ t = s1.setReg .pc (s.regs.pc + BitVec.ofNat 16 (instrWidth i)) := by
  obtain ⟨bytes, s1, h1, h2⟩ := Res.andThen_ok h
  obtain ⟨hl, hs⟩ := fetch6_ok h1
  rw [decode_six hl] at h2
  cases h2
  exact ⟨bytes, s1, h1, decode_six hl, hs, rfl⟩

/-- The first half of a step that faults does so in the fetch, and leaves every register and byte
(R90, R197). -/
theorem fetchInstr_fault {s : State} {f : Fault} (h : fetchInstr s = .fault f) :
    fetch6 s.regs.pc s = .fault f ∧ Asked s f.left := by
  rcases Res.andThen_fault h with h | ⟨bytes, s1, h1, h2⟩
  · exact ⟨h, fetch6_fault h⟩
  · obtain ⟨hl, -⟩ := fetch6_ok h1
    rw [decode_six hl] at h2
    cases h2

/-- A step either faults in its first half or runs the decoded instruction. -/
theorem step_cases (s : State) :
    (∃ f, fetchInstr s = .fault f ∧ step s = .fault f)
      ∨ ∃ i t, fetchInstr s = .ok i t ∧ step s = exec i t := by
  unfold step
  cases h : fetchInstr s with
  | ok i t => exact .inr ⟨i, t, rfl, rfl⟩
  | fault f => exact .inl ⟨f, rfl, rfl⟩

/-- What only asks the environment keeps the invariant. -/
theorem inv_asked {s t : State} (h : Asked s t) (hi : s.Inv) : t.Inv := by
  obtain ⟨-, ⟨hc, hr, hw, -, -⟩, -, -, hm⟩ := h
  obtain ⟨i1, i2, i3, i4⟩ := hi
  exact ⟨hm i1, by rwa [hr], by rwa [hw], by rwa [hc]⟩

/-- Writing a register, storing bytes and the post-increment keep the invariant. -/
theorem inv_setReg {s : State} (r : Reg) (v : Word) (h : s.Inv) : (s.setReg r v).Inv := h

theorem inv_setFlags {s : State} (f : Flags) (h : s.Inv) : (s.setFlags f).Inv := h

theorem inv_postIncrement {s : State} (o : SrcOperand) (w : Width) (h : s.Inv) :
    (postIncrement o w s).Inv := by
  cases o <;> exact h

theorem inv_putStored {s : State} (w : Width) (a v : Word) (h : s.Inv) : (s.putStored w a v).Inv := by
  obtain ⟨h1, h2, h3, h4⟩ := h
  exact ⟨State.wf_putStored w a v h1, by simpa using h2, by simpa using h3, by simpa using h4⟩

theorem inv_storedAt {s t : State} {w : Width} {a : Word} (h : StoredAt w a s t) (hi : s.Inv) : t.Inv := by
  obtain ⟨s1, h1, rfl | ⟨x, rfl⟩⟩ := h
  · exact inv_asked h1 hi
  · exact inv_putStored w a x (inv_asked h1 hi)

/-- Placing an instruction at the PC keeps the canonical form. -/
theorem wf_withFetchWord {s : State} (nbits w : Nat) (h : Memory.wf s.mem) :
    Memory.wf (s.withFetchWord nbits w).mem := wf_placeBytes _ _ h

end Sys2Proof.Machine
end

