-- ==== Sys2Proof/Tests/Slice0.lean ====
section
/-! SUPPORT. Tests with expected results from the spec's encoding tables and from 95_test_vectors.md, and one witness for each obligation with hypotheses. -/

namespace Sys2Proof.Tests

open Sys2Proof Sys2Proof.Machine

/-! ## Helpers -/

/-- The reset values with no console address: where the vectors of 95_test_vectors.md place code and data,
memory is ordinary. -/
def bare : State :=
  State.create (RegFile.all Config.regInit) [] { Env.flat with console := [] } Config.params

/-- That state with some registers set. -/
def machine (rs : List (Reg × Word)) : State :=
  rs.foldl (fun s p => s.setReg p.1 p.2) bare

/-- `machine`, its words of code at the PC and bytes of data at `a`. -/
def loaded (rs : List (Reg × Word)) (code : List Word) (a : Word) (data : List Byte) : State :=
  let s := machine rs
  placeBytes s.regs.pc (bytesOfWords code) (placeBytes a data s)

/-- How a step ends: 100 Ok, else the code of its status (R191), 0 for Halted and 1 to 6 for a fault. -/
def endCode (o : Host.Outcome State Fault Refusal) : Nat :=
  match statusOf o with
  | .ok => 100
  | .halted => Status.halted.code.getD 99
  | .fault f => (Status.fault f).code.getD 98
  | .refused _ => 97

/-- The state an outcome leaves, whether it completed or faulted. -/
def leftBy (o : Host.Outcome State Fault Refusal) : State :=
  match o with
  | .next t => t
  | .fault f => f.left
  | .refused _ => State.reset

/-- What the tests compare after one step: how it ended, some registers, some bytes. -/
def seen (s : State) (rs : List Reg) (a : Word) (n : Nat) : Nat × List Word × List Byte :=
  let o := step s
  (endCode o, rs.map (leftBy o).reg, readRange a n (leftBy o))

def isNext (o : Host.Outcome State Fault Refusal) : Bool :=
  match o with
  | .next _ => true
  | .fault _ => false
  | .refused _ => false

def isFault (o : Host.Outcome State Fault Refusal) : Bool :=
  match o with
  | .next _ => false
  | .fault _ => true
  | .refused _ => false

theorem exists_next {o : Host.Outcome State Fault Refusal} (h : isNext o = true) :
    ∃ t, o = .next t := by
  cases o with
  | next t => exact ⟨t, rfl⟩
  | fault f => cases h
  | refused r => cases h

theorem exists_fault {o : Host.Outcome State Fault Refusal} (h : isFault o = true) :
    ∃ f, o = .fault f := by
  cases o with
  | next t => cases h
  | fault f => exact ⟨f, rfl⟩
  | refused r => cases h

theorem readable_mem {a : Word} {w : Width} {s : State} (h : accessGuard s.params w a = none)
    (hb : s.env.bindsLoad w a = false) : Readable (.mem a) w s := ⟨accessGuard_none.mp h, hb⟩

theorem writable_mem {a : Word} {w : Width} {s : State} (h : accessGuard s.params w a = none)
    (hb : s.env.bindsStore w a = false) : Writable (.mem a) w s := ⟨accessGuard_none.mp h, hb⟩

theorem plainLoad_mk {a : Word} {w : Width} {s : State} (h : accessGuard s.params w a = none)
    (hb : s.env.bindsLoad w a = false) : PlainLoad w a s := ⟨accessGuard_none.mp h, hb⟩

theorem plainStore_mk {a : Word} {w : Width} {s : State} (h : accessGuard s.params w a = none)
    (hb : s.env.bindsStore w a = false) : PlainStore w a s := ⟨accessGuard_none.mp h, hb⟩

/-! ## WellFormed refuses what no encoding spells (R66 to R68) -/

theorem test_wf_refuses_src_indexed_sr : SrcOperand.wellFormed (.indexed .sr 0x0200#16) = false := by decide
theorem test_wf_refuses_src_indirect_sr : SrcOperand.wellFormed (.indirect .sr) = false := by decide
theorem test_wf_refuses_src_indirect_inc_sr : SrcOperand.wellFormed (.indirectInc .sr) = false := by decide
theorem test_wf_refuses_src_indirect_inc_pc : SrcOperand.wellFormed (.indirectInc .pc) = false := by decide
theorem test_wf_refuses_dst_indexed_sr : DstOperand.wellFormed (.indexed .sr 0x0200#16) = false := by decide
theorem test_wf_refuses_dst_const_two : DstOperand.wellFormed (.const .two) = false := by decide
theorem test_wf_refuses_dst_const_minus_one : DstOperand.wellFormed (.const .minusOne) = false := by decide
theorem test_wf_refuses_dst_const_four : DstOperand.wellFormed (.const .four) = false := by decide
theorem test_wf_refuses_dst_const_eight : DstOperand.wellFormed (.const .eight) = false := by decide
theorem test_wf_refuses_single_operand :
    (singleForms 4#3 .word (.indirect .sr)).all (fun i => !i.wellFormed) = true := by decide
theorem test_wf_refuses_double_operand_source :
    ([Instr.mov .word (.indirectInc .pc) (.reg .r5), .cmp .word (.indirectInc .pc) (.reg .r5),
      .dadd .word (.indirectInc .pc) (.reg .r5), .bit .word (.indirectInc .pc) (.reg .r5)]
      ++ computingForms .word (.indirectInc .pc) (.reg .r5)).all (fun i => !i.wellFormed) = true := by
  decide
theorem test_wf_refuses_double_operand_destination :
    ([Instr.mov .byte (.reg .r5) (.const .two), .cmp .byte (.reg .r5) (.const .two),
      .dadd .byte (.reg .r5) (.const .two), .bit .byte (.reg .r5) (.const .two)]
      ++ computingForms .byte (.reg .r5) (.const .two)).all (fun i => !i.wellFormed) = true := by
  decide
theorem test_wf_accepts :
    Instr.wellFormed (.mov .word (.indirectInc .r5) (.indexed .pc 4#16)) = true
      ∧ Instr.wellFormed (.cmp .byte (.const .eight) (.const .one)) = true := by decide

/-! ## Decoding: each constructor's word, written out from R62, R64, R65 and R78 to R80 -/
theorem test_decode_rrc :
    decodeWords 0b000_100_000_0_00_0101#16 0x0000#16 0x0000#16 = .rrc 4#3 .word (.reg .r5) := by decide
theorem test_decode_swpb :
    decodeWords 0b000_100_001_1_10_0110#16 0x0000#16 0x0000#16 = .swpb 4#3 .byte (.indirect .r6) := by decide
theorem test_decode_rra :
    decodeWords 0b000_100_010_1_01_0111#16 0x0004#16 0x0000#16 = .rra 4#3 .byte (.indexed .r7 0x0004#16) := by decide
theorem test_decode_sxt :
    decodeWords 0b000_100_011_1_11_0111#16 0x0000#16 0x0000#16 = .sxt 4#3 .byte (.indirectInc .r7) := by decide
theorem test_decode_push :
    decodeWords 0b000_100_100_0_11_0000#16 0x1234#16 0x0000#16 = .push 4#3 .word (.immediate 0x1234#16) := by decide
theorem test_decode_call :
    decodeWords 0b000_100_101_0_01_0010#16 0x0200#16 0x0000#16 = .call 4#3 .word (.absolute 0x0200#16) := by decide
theorem test_decode_reti :
    decodeWords 0b000_100_110_0_00_0000#16 0x0000#16 0x0000#16 = .reti 4#3 .word (.reg .pc) := by decide
theorem test_decode_reserved7 :
    decodeWords 0b000_100_111_0_00_0000#16 0x0000#16 0x0000#16 = .reserved7 4#3 .word (.reg .pc) := by decide
theorem test_decode_jne :
    decodeWords 0b001_000_1111111101#16 0x0000#16 0x0000#16 = .jne 0x3FD#10 := by decide
theorem test_decode_jeq :
    decodeWords 0b001_001_0000000010#16 0x0000#16 0x0000#16 = .jeq 0x002#10 := by decide
theorem test_decode_jnc :
    decodeWords 0b001_010_0000000001#16 0x0000#16 0x0000#16 = .jnc 0x001#10 := by decide
theorem test_decode_jc :
    decodeWords 0b001_011_0000000001#16 0x0000#16 0x0000#16 = .jc 0x001#10 := by decide
theorem test_decode_jn :
    decodeWords 0b001_100_0000000101#16 0x0000#16 0x0000#16 = .jn 0x005#10 := by decide
theorem test_decode_jge :
    decodeWords 0b001_101_0111111111#16 0x0000#16 0x0000#16 = .jge 0x1FF#10 := by decide
theorem test_decode_jl :
    decodeWords 0b001_110_0000000001#16 0x0000#16 0x0000#16 = .jl 0x001#10 := by decide
theorem test_decode_jmp :
    decodeWords 0b001_111_1000000000#16 0x0000#16 0x0000#16 = .jmp 0x200#10 := by decide
theorem test_decode_mov :
    decodeWords 0b0100_0000_1_0_11_0101#16 0x1234#16 0x0004#16 = .mov .word (.immediate 0x1234#16) (.indexed .r5 0x0004#16) := by decide
theorem test_decode_add :
    decodeWords 0b0101_0011_0_1_01_0110#16 0x0000#16 0x0000#16 = .add .byte (.const .one) (.reg .r6) := by decide
theorem test_decode_addc :
    decodeWords 0b0110_0101_0_0_00_0110#16 0x0000#16 0x0000#16 = .addc .word (.reg .r5) (.reg .r6) := by decide
theorem test_decode_subc :
    decodeWords 0b0111_0011_0_0_00_0110#16 0x0000#16 0x0000#16 = .subc .word (.const .zero) (.reg .r6) := by decide
theorem test_decode_sub :
    decodeWords 0b1000_0101_1_0_00_0010#16 0x0202#16 0x0000#16 = .sub .word (.reg .r5) (.absolute 0x0202#16) := by decide
theorem test_decode_cmp :
    decodeWords 0b1001_0010_0_0_10_1111#16 0x0000#16 0x0000#16 = .cmp .word (.const .four) (.reg .r15) := by decide
theorem test_decode_dadd :
    decodeWords 0b1010_0111_0_0_00_1000#16 0x0000#16 0x0000#16 = .dadd .word (.reg .r7) (.reg .r8) := by decide
theorem test_decode_bit :
    decodeWords 0b1011_0011_0_1_11_0110#16 0x0000#16 0x0000#16 = .bit .byte (.const .minusOne) (.reg .r6) := by decide
theorem test_decode_bic :
    decodeWords 0b1100_0011_0_0_01_0010#16 0x0000#16 0x0000#16 = .bic .word (.const .one) (.reg .sr) := by decide
theorem test_decode_bis :
    decodeWords 0b1101_0010_1_0_11_0000#16 0x0010#16 0x0000#16 = .bis .word (.const .eight) (.indexed .pc 0x0010#16) := by decide
theorem test_decode_xor :
    decodeWords 0b1110_0011_1_0_10_0011#16 0x0000#16 0x0000#16 = .xor .word (.const .two) (.const .one) := by decide
theorem test_decode_and :
    decodeWords 0b1111_1110_0_1_10_0001#16 0x0000#16 0x0000#16 = .and .byte (.indirect .r14) (.reg .sp) := by decide

/-! ## Decoding: vectors E1 to E25 -/

/-- E3, E4, E6, E7: two extension words, the constants in both places. -/
theorem test_decode_operand_order :
    decodeWords 0x4292#16 0x0200#16 0x0202#16 = .mov .word (.absolute 0x0200#16) (.absolute 0x0202#16)
      ∧ decodeWords 0x4303#16 0#16 0#16 = .mov .word (.const .zero) (.const .zero)
      ∧ decodeWords 0x4015#16 0x0010#16 0#16 = .mov .word (.indexed .pc 0x0010#16) (.reg .r5) := by
  decide
/-- E15 to E18: the byte displacement of a jump (R74). -/
theorem test_jump_offset :
    jumpOffset 0x3FD#10 = 0xFFFA#16 ∧ jumpOffset 0x200#10 = 0xFC00#16
      ∧ jumpOffset 0x1FF#10 = 0x03FE#16 ∧ jumpOffset 0x3FF#10 = 0xFFFE#16 := by decide
/-- E20, E21, E23: TooShort (R76). -/
theorem test_decode_too_short :
    decode [0x35#8] = .error .tooShort ∧ decode [0x35#8, 0x40#8] = .error .tooShort
      ∧ decode [0xB5#8, 0x40#8, 0x34#8, 0x12#8] = .error .tooShort := by
  refine ⟨?_, ?_, ?_⟩ <;> rfl
/-- E22, E24, E25: just enough bytes, and bytes past the width that are not read. -/
theorem test_decode_just_enough :
    decode [0x35#8, 0x40#8, 0x34#8, 0x12#8] = .ok (.mov .word (.immediate 0x1234#16) (.reg .r5))
      ∧ decode [0x03#8, 0x43#8] = .ok (.mov .word (.const .zero) (.const .zero))
      ∧ decode [0x35#8, 0x40#8, 0x34#8, 0x12#8, 0xAA#8, 0xBB#8]
          = .ok (.mov .word (.immediate 0x1234#16) (.reg .r5)) := by
  refine ⟨?_, ?_, ?_⟩ <;> rfl
/-- The encoder writes the words of E2 back. -/
theorem test_encode :
    encode (.mov .word (.immediate 0x1234#16) (.indexed .r5 0x0004#16))
      = [0x40B5#16, 0x1234#16, 0x0004#16] := by decide
/-- The table's numbering of the bits: a row's bits are the first word, later words zero. -/
theorem test_decode_table_word :
    decodeTableWord 16 0x1005 = some (.rrc 4#3 .word (.reg .r5))
      ∧ decodeTableWord 48 0x0004_1234_40B5
          = some (.mov .word (.immediate 0x1234#16) (.indexed .r5 0x0004#16)) := by decide
/-- The very next step runs the word placed by `withFetchWord`, also right after reset. -/
theorem test_with_fetch_word :
    (leftBy (step (State.reset.withFetchWord 16 0x3C10))).regs.pc = 0x0022#16
      ∧ (leftBy (step ((machine [(.pc, 0x4400#16)]).withFetchWord 32 0x1234_4035))).regs.r5
          = 0x1234#16 := by decide

/-! ## Memory guards: vectors M1 to M12, T1 to T3 -/

theorem test_word_guard :
    (accessGuard Config.params .word 0xFFFA#16).isNone = true
      ∧ endCode ((load .word 0xFFFB#16 bare).andThen fun _ s => .ok () s).outcome = 4
      ∧ endCode ((load .word 0xFFFC#16 bare).andThen fun _ s => .ok () s).outcome = 3
      ∧ endCode (store .word 0x0201#16 1#16 bare).outcome = 4
      ∧ endCode (store .word 0xFFFE#16 1#16 bare).outcome = 3
      ∧ endCode (store .byte 0xFFFF#16 1#16 bare).outcome = 100 := by decide
theorem test_fetch_guard :
    endCode (step (machine [(.pc, 0xFFF8#16)])) = 100 ∧ endCode (step (machine [(.pc, 0xFFFA#16)])) = 3
      ∧ endCode (step (machine [(.pc, 0xFFFB#16)])) = 3
      ∧ endCode (step (machine [(.pc, 0xFFF9#16)])) = 4 := by decide

/-! ## Steps: vectors of 95_test_vectors.md, each named -/
/-- V1. -/
theorem test_rrc_carry_in :
    seen (loaded [(.pc, 0x4400#16), (.r5, 0x0001#16), (.sr, 0x0001#16)]
      [0x1005#16] 0x0000#16 []) [.pc, .r5, .sr] 0x0000#16 0
      = (100, [0x4402#16, 0x8000#16, 0x0005#16], []) := by decide
/-- V4. -/
theorem test_rrc_byte :
    seen (loaded [(.pc, 0x4400#16), (.r5, 0x1234#16), (.sr, 0x0001#16)]
      [0x1045#16] 0x0000#16 []) [.r5, .sr] 0x0000#16 0
      = (100, [0x009A#16, 0x0004#16], []) := by decide
/-- V5. -/
theorem test_rrc_stores_before_increment :
    seen (loaded [(.pc, 0x4400#16), (.r5, 0x0200#16)]
      [0x1035#16] 0x0200#16 [0x02#8, 0x80#8]) [.r5, .sr] 0x0200#16 2
      = (100, [0x0202#16, 0x0000#16], [0x01#8, 0x40#8]) := by decide
/-- V6. -/
theorem test_rrc_constant_faults :
    seen (loaded [(.pc, 0x4400#16)]
      [0x1013#16] 0x0000#16 []) [.pc, .sr] 0x0000#16 0
      = (2, [0x4402#16, 0x0003#16], []) := by decide
/-- V8. -/
theorem test_swpb_ignores_byte_bit :
    seen (loaded [(.pc, 0x4400#16), (.r6, 0x1234#16)]
      [0x10C6#16] 0x0000#16 []) [.r6, .sr] 0x0000#16 0
      = (100, [0x3412#16, 0x0000#16], []) := by decide
/-- V10. -/
theorem test_swpb_odd_address :
    seen (loaded [(.pc, 0x4400#16), (.r6, 0x0201#16)]
      [0x10A6#16] 0x0000#16 []) [.pc, .r6] 0x0000#16 0
      = (4, [0x4402#16, 0x0201#16], []) := by decide
/-- V11. -/
theorem test_rra_keeps_sign :
    seen (loaded [(.pc, 0x4400#16), (.r7, 0x8000#16)]
      [0x1107#16] 0x0000#16 []) [.r7, .sr] 0x0000#16 0
      = (100, [0xC000#16, 0x0004#16], []) := by decide
/-- V14. -/
theorem test_rra_byte :
    seen (loaded [(.pc, 0x4400#16), (.r7, 0x1281#16)]
      [0x1147#16] 0x0000#16 []) [.r7, .sr] 0x0000#16 0
      = (100, [0x00C0#16, 0x0005#16], []) := by decide
/-- V17. -/
theorem test_sxt_zero :
    seen (loaded [(.pc, 0x4400#16), (.r7, 0xFF00#16)]
      [0x1187#16] 0x0000#16 []) [.r7, .sr] 0x0000#16 0
      = (100, [0x0000#16, 0x0002#16], []) := by decide
/-- V18. -/
theorem test_sxt_is_a_word_operation :
    seen (loaded [(.pc, 0x4400#16), (.r7, 0x0200#16)]
      [0x11F7#16] 0x0200#16 [0xFF#8]) [.r7, .sr] 0x0200#16 2
      = (100, [0x0202#16, 0x0005#16], [0xFF#8, 0xFF#8]) := by decide
/-- V20. -/
theorem test_push_byte :
    seen (loaded [(.pc, 0x4400#16), (.sp, 0x4400#16), (.r5, 0x1234#16)]
      [0x1245#16] 0x43FF#16 [0xAA#8]) [.sp] 0x43FE#16 2
      = (100, [0x43FE#16], [0x34#8, 0xAA#8]) := by decide
/-- V21. -/
theorem test_push_sp :
    seen (loaded [(.pc, 0x4400#16), (.sp, 0x4400#16)]
      [0x1201#16] 0x0000#16 []) [.sp] 0x43FE#16 2
      = (100, [0x43FE#16], [0x00#8, 0x44#8]) := by decide
/-- V23. -/
theorem test_push_odd_sp :
    seen (loaded [(.pc, 0x4400#16), (.sp, 0x4401#16), (.r5, 0x1234#16)]
      [0x1205#16] 0x0000#16 []) [.pc, .sp] 0x43FF#16 1
      = (4, [0x4402#16, 0x43FF#16], [0x00#8]) := by decide
/-- V25. -/
theorem test_call_pushes_advanced_pc :
    seen (loaded [(.pc, 0x440A#16), (.sp, 0x4400#16)]
      [0x12B0#16, 0x4420#16] 0x0000#16 []) [.pc, .sp] 0x43FE#16 2
      = (100, [0x4420#16, 0x43FE#16], [0x0E#8, 0x44#8]) := by decide
/-- V27. -/
theorem test_call_indirect_inc :
    seen (loaded [(.pc, 0x4400#16), (.sp, 0x4400#16), (.r5, 0x0200#16)]
      [0x12B5#16] 0x0200#16 [0x00#8, 0x50#8]) [.pc, .sp, .r5] 0x43FE#16 2
      = (100, [0x5000#16, 0x43FE#16, 0x0202#16], [0x02#8, 0x44#8]) := by decide
/-- V29. -/
theorem test_reti :
    seen (loaded [(.pc, 0x4400#16), (.sp, 0x4400#16)]
      [0x1300#16] 0x0000#16 []) [.pc, .sp, .sr] 0x0000#16 0
      = (5, [0x4402#16, 0x4400#16, 0x0000#16], []) := by decide
/-- V30. -/
theorem test_reserved7 :
    seen (loaded [(.pc, 0x4400#16)]
      [0x1380#16] 0x0000#16 []) [.pc] 0x0000#16 0
      = (5, [0x4402#16], []) := by decide
/-- V31. -/
theorem test_zero_word_is_rrc_pc :
    seen (loaded [(.pc, 0x4400#16)]
      [0x0000#16] 0x0000#16 []) [.pc, .sr] 0x0000#16 0
      = (100, [0x2201#16, 0x0000#16], []) := by decide
/-- V33. -/
theorem test_jne_taken :
    seen (loaded [(.pc, 0x440A#16)]
      [0x23FD#16] 0x0000#16 []) [.pc, .sr] 0x0000#16 0
      = (100, [0x4406#16, 0x0000#16], []) := by decide
/-- V34. -/
theorem test_jne_not_taken :
    seen (loaded [(.pc, 0x440A#16), (.sr, 0x0002#16)]
      [0x23FD#16] 0x0000#16 []) [.pc, .sr] 0x0000#16 0
      = (100, [0x440C#16, 0x0002#16], []) := by decide
/-- V35. -/
theorem test_jeq_taken :
    seen (loaded [(.pc, 0x4400#16), (.sr, 0x0002#16)]
      [0x2402#16] 0x0000#16 []) [.pc] 0x0000#16 0
      = (100, [0x4406#16], []) := by decide
/-- V36. -/
theorem test_jnc_taken :
    seen (loaded [(.pc, 0x4400#16)]
      [0x2801#16] 0x0000#16 []) [.pc] 0x0000#16 0
      = (100, [0x4404#16], []) := by decide
/-- V37. -/
theorem test_jc_not_taken :
    seen (loaded [(.pc, 0x4400#16)]
      [0x2C01#16] 0x0000#16 []) [.pc] 0x0000#16 0
      = (100, [0x4402#16], []) := by decide
/-- V38. -/
theorem test_jc_taken :
    seen (loaded [(.pc, 0x4400#16), (.sr, 0x0001#16)]
      [0x2C01#16] 0x0000#16 []) [.pc] 0x0000#16 0
      = (100, [0x4404#16], []) := by decide
/-- V39. -/
theorem test_jn_taken :
    seen (loaded [(.pc, 0x4400#16), (.sr, 0x0004#16)]
      [0x3005#16] 0x0000#16 []) [.pc] 0x0000#16 0
      = (100, [0x440C#16], []) := by decide
/-- V40. -/
theorem test_jge_both_set :
    seen (loaded [(.pc, 0x4400#16), (.sr, 0x0104#16)]
      [0x3401#16] 0x0000#16 []) [.pc] 0x0000#16 0
      = (100, [0x4404#16], []) := by decide
/-- V41. -/
theorem test_jge_not_taken :
    seen (loaded [(.pc, 0x4400#16), (.sr, 0x0004#16)]
      [0x3401#16] 0x0000#16 []) [.pc] 0x0000#16 0
      = (100, [0x4402#16], []) := by decide
/-- V42. -/
theorem test_jl_taken :
    seen (loaded [(.pc, 0x440A#16), (.sr, 0x0004#16)]
      [0x3801#16] 0x0000#16 []) [.pc] 0x0000#16 0
      = (100, [0x440E#16], []) := by decide
/-- V43. -/
theorem test_jl_not_taken :
    seen (loaded [(.pc, 0x4400#16)]
      [0x3801#16] 0x0000#16 []) [.pc] 0x0000#16 0
      = (100, [0x4402#16], []) := by decide
/-- V46. -/
theorem test_jmp_wraps :
    seen (loaded [(.pc, 0x0000#16)]
      [0x3E00#16] 0x0000#16 []) [.pc] 0x0000#16 0
      = (100, [0xFC02#16], []) := by decide
/-- V46b. -/
theorem test_jmp_halted_is_a_level :
    seen (loaded [(.pc, 0x4400#16), (.sr, 0x0010#16)]
      [0x3C10#16] 0x0000#16 []) [.pc] 0x0000#16 0
      = (0, [0x4422#16], []) := by decide
/-- V47. -/
theorem test_mov_byte_clears_high :
    seen (loaded [(.pc, 0x4400#16), (.r5, 0xFFFF#16), (.r6, 0x12AB#16)]
      [0x4645#16] 0x0000#16 []) [.r5] 0x0000#16 0
      = (100, [0x00AB#16], []) := by decide
/-- V49. -/
theorem test_mov_destination_sees_increment :
    seen (loaded [(.pc, 0x4400#16), (.r5, 0x0200#16)]
      [0x45B5#16, 0x0000#16] 0x0200#16 [0xCD#8, 0xAB#8]) [.pc, .r5] 0x0202#16 2
      = (100, [0x4404#16, 0x0202#16], [0xCD#8, 0xAB#8]) := by decide
/-- V60. -/
theorem test_add_wraps :
    seen (loaded [(.pc, 0x4400#16), (.r6, 0xFFFF#16)]
      [0x5316#16] 0x0000#16 []) [.r6, .sr] 0x0000#16 0
      = (100, [0x0000#16, 0x0003#16], []) := by decide
/-- V62. -/
theorem test_add_byte_overflow :
    seen (loaded [(.pc, 0x4400#16), (.r6, 0x007F#16)]
      [0x5356#16] 0x0000#16 []) [.r6, .sr] 0x0000#16 0
      = (100, [0x0080#16, 0x0104#16], []) := by decide
/-- V63. -/
theorem test_add_to_sr :
    seen (loaded [(.pc, 0x4400#16)]
      [0x5312#16] 0x0000#16 []) [.sr] 0x0000#16 0
      = (100, [0x0001#16], []) := by decide
/-- V66. -/
theorem test_addc_with_carry :
    seen (loaded [(.pc, 0x4400#16), (.r5, 0xFFFF#16), (.sr, 0x0001#16)]
      [0x6506#16] 0x0000#16 []) [.r6, .sr] 0x0000#16 0
      = (100, [0x0000#16, 0x0003#16], []) := by decide
/-- V67. -/
theorem test_addc_without_carry :
    seen (loaded [(.pc, 0x4400#16), (.r5, 0xFFFF#16)]
      [0x6506#16] 0x0000#16 []) [.r6, .sr] 0x0000#16 0
      = (100, [0xFFFF#16, 0x0004#16], []) := by decide
/-- V69. -/
theorem test_subc_borrow :
    seen (loaded [(.pc, 0x4400#16), (.r5, 0x0001#16), (.r6, 0x0003#16)]
      [0x7506#16] 0x0000#16 []) [.r6, .sr] 0x0000#16 0
      = (100, [0x0001#16, 0x0001#16], []) := by decide
/-- V71. -/
theorem test_subc_zero :
    seen (loaded [(.pc, 0x4400#16)]
      [0x7306#16] 0x0000#16 []) [.r6, .sr] 0x0000#16 0
      = (100, [0xFFFF#16, 0x0004#16], []) := by decide
/-- V73. -/
theorem test_sub_overflow :
    seen (loaded [(.pc, 0x4400#16), (.r5, 0x0001#16), (.r6, 0x8000#16)]
      [0x8506#16] 0x0000#16 []) [.r6, .sr] 0x0000#16 0
      = (100, [0x7FFF#16, 0x0101#16], []) := by decide
/-- V72. -/
theorem test_sub_borrow :
    seen (loaded [(.pc, 0x4400#16), (.r5, 0x0001#16)]
      [0x8506#16] 0x0000#16 []) [.r6, .sr] 0x0000#16 0
      = (100, [0xFFFF#16, 0x0004#16], []) := by decide
/-- V77. -/
theorem test_cmp_lower :
    seen (loaded [(.pc, 0x4400#16), (.r6, 0x0004#16)]
      [0x9036#16, 0x0005#16] 0x0000#16 []) [.pc, .r6, .sr] 0x0000#16 0
      = (100, [0x4404#16, 0x0004#16, 0x0004#16], []) := by decide
/-- V79. -/
theorem test_cmp_to_constant :
    seen (loaded [(.pc, 0x4400#16), (.r5, 0x0001#16)]
      [0x9503#16] 0x0000#16 []) [.pc, .sr] 0x0000#16 0
      = (100, [0x4402#16, 0x0004#16], []) := by decide
/-- V81. -/
theorem test_dadd :
    seen (loaded [(.pc, 0x4400#16), (.r8, 0x0200#16)]
      [0xA0B8#16, 0x1234#16, 0x0002#16] 0x0000#16 []) [.pc, .r8, .sr] 0x0202#16 2
      = (5, [0x4406#16, 0x0200#16, 0x0000#16], [0x00#8, 0x00#8]) := by decide
/-- V82. -/
theorem test_bit_sets_carry :
    seen (loaded [(.pc, 0x4400#16), (.r6, 0x000C#16)]
      [0xB236#16] 0x0000#16 []) [.r6, .sr] 0x0000#16 0
      = (100, [0x000C#16, 0x0001#16], []) := by decide
/-- V83. -/
theorem test_bit_byte :
    seen (loaded [(.pc, 0x4400#16), (.r6, 0x8000#16)]
      [0xB376#16] 0x0000#16 []) [.r6, .sr] 0x0000#16 0
      = (100, [0x8000#16, 0x0002#16], []) := by decide
/-- V86. -/
theorem test_bic_byte :
    seen (loaded [(.pc, 0x4400#16), (.r6, 0xFFFF#16)]
      [0xC356#16] 0x0000#16 []) [.r6, .sr] 0x0000#16 0
      = (100, [0x00FE#16, 0x0000#16], []) := by decide
/-- V95. -/
theorem test_bic_clears_halt :
    seen (loaded [(.pc, 0x4400#16), (.sr, 0x0010#16)]
      [0xC032#16, 0x0010#16] 0x0000#16 []) [.sr] 0x0000#16 0
      = (100, [0x0000#16], []) := by decide
/-- V87. -/
theorem test_bis_halts :
    seen (loaded [(.pc, 0x4400#16), (.sr, 0x0003#16)]
      [0xD032#16, 0x0010#16] 0x0000#16 []) [.pc, .sr] 0x0000#16 0
      = (0, [0x4404#16, 0x0013#16], []) := by decide
/-- V88. -/
theorem test_bis_keeps_flags :
    seen (loaded [(.pc, 0x4400#16), (.r5, 0x00F0#16), (.r6, 0x0F00#16), (.sr, 0x0105#16)]
      [0xD506#16] 0x0000#16 []) [.r6, .sr] 0x0000#16 0
      = (100, [0x0FF0#16, 0x0105#16], []) := by decide
/-- V90. -/
theorem test_xor_both_negative :
    seen (loaded [(.pc, 0x4400#16), (.r5, 0x8000#16)]
      [0xE505#16] 0x0000#16 []) [.r5, .sr] 0x0000#16 0
      = (100, [0x0000#16, 0x0102#16], []) := by decide
/-- V91. -/
theorem test_xor_inverts :
    seen (loaded [(.pc, 0x4400#16), (.r6, 0x0F0F#16)]
      [0xE336#16] 0x0000#16 []) [.r6, .sr] 0x0000#16 0
      = (100, [0xF0F0#16, 0x0005#16], []) := by decide
/-- V92. -/
theorem test_and_word :
    seen (loaded [(.pc, 0x4400#16), (.r6, 0xAB12#16)]
      [0xF036#16, 0x00FF#16] 0x0000#16 []) [.r6, .sr] 0x0000#16 0
      = (100, [0x0012#16, 0x0001#16], []) := by decide
/-- V94. -/
theorem test_and_constant_faults :
    seen (loaded [(.pc, 0x4400#16)]
      [0xF313#16] 0x0000#16 []) [.pc, .sr] 0x0000#16 0
      = (2, [0x4402#16, 0x0002#16], []) := by decide

/-! ## Witnesses: for each obligation with hypotheses, states and operands that meet them all -/

/-- Both operands in memory at even addresses inside the guard, SP above them. -/
def demo : State :=
  machine [(.pc, 0x4404#16), (.sp, 0x4400#16), (.r4, 0x0200#16), (.r5, 0xFFF8#16), (.r6, 0x0201#16),
    (.r7, 0xFFFC#16)]

/-- The widest word access the guard lets pass: 0xFFFA (M1). -/
def demoDst : DstOperand := .indexed .r5 2#16

theorem demo_ready : BothReady .word (.indirectInc .r4) demoDst demo :=
  ⟨readable_mem (a := 0x0200#16) rfl rfl, readable_mem (a := 0xFFFA#16) rfl rfl⟩

theorem demo_writable : DstWritable .word (.indirectInc .r4) demoDst demo :=
  writable_mem (a := 0xFFFA#16) rfl rfl

/-- Byte operands: an odd source address and the last byte of memory. -/
theorem demo_ready_byte : BothReady .byte (.indirect .r6) (.absolute 0xFFFF#16) demo
    ∧ DstWritable .byte (.indirect .r6) (.absolute 0xFFFF#16) demo :=
  ⟨⟨readable_mem (a := 0x0201#16) rfl rfl, readable_mem (a := 0xFFFF#16) rfl rfl⟩,
    writable_mem (a := 0xFFFF#16) rfl rfl⟩

theorem demo_single : (SrcOperand.indirectInc .r4).wellFormed = true ∧ PrefixOk 0b000#3 demo
    ∧ SrcReady .word (.indirectInc .r4) demo
    ∧ Writable (srcLoc (.indirectInc .r4) demo) .word demo :=
  ⟨rfl, .inl rfl, readable_mem (a := 0x0200#16) rfl rfl, writable_mem (a := 0x0200#16) rfl rfl⟩

theorem demo_free (w : Width) : ∀ a, demo.env.bindsLoad w a = false ∧ demo.env.bindsStore w a = false :=
  fun _ => ⟨rfl, rfl⟩

theorem demo_wf : Memory.wf demo.mem := Memory.wf_nil

theorem witness_DecodingAnEncodedInstructionGivesItBack :
    (Instr.mov .word (.immediate 0x1234#16) (.indexed .r5 4#16)).wellFormed = true
      ∧ (Instr.rrc 0b111#3 .byte (.const .minusOne)).wellFormed = true := by decide

theorem witness_EncodingADecodedInstructionGivesItsBytesBack :
    decode [0x03#8, 0x43#8] = .ok (.mov .word (.const .zero) (.const .zero)) := rfl

theorem witness_EveryFirstWordMatchesOneTableRow :
    0x4035#16 &&& (tableRow (.mov .byte (.reg .r5) (.reg .r6))).1
      = (tableRow (.mov .byte (.reg .r5) (.reg .r6))).2 := by decide

theorem witness_TheFirstWordTellsTheWidth :
    (0x12B0#16).extractLsb' 13 3 = 0#3 ∧ (0x3FFF#16).extractLsb' 13 3 = 1#3
      ∧ (0x4000#16).extractLsb' 13 3 ≠ 0#3 ∧ (0xFFFF#16).extractLsb' 13 3 ≠ 1#3 := by decide

/-- The three clauses about a fetch and the one about a next state. -/
theorem witness_AStepRunsTheDecodedInstruction :
    (fetch6 0xFFFA#16 (machine [(.pc, 0xFFFA#16)])
        = .fault (.addressTooHigh 0xFFFA#16 (machine [(.pc, 0xFFFA#16)])))
      ∧ (fetch6 0xFFF8#16 (machine [(.pc, 0xFFF8#16)])
        = .ok [0#8, 0#8, 0#8, 0#8, 0#8, 0#8] (machine [(.pc, 0xFFF8#16)]))
      ∧ decode [0#8, 0#8, 0#8, 0#8, 0#8, 0#8] = .ok (.rrc 0#3 .word (.reg .pc))
      ∧ (fetchGuardAt Config.params 0xFFF8#16).isNone = true
      ∧ bare.env.bindsFetch 0xFFF8#16 = false
      ∧ decode (demo.windowAt 0xFFF8#16) = .ok (.rrc 0#3 .word (.reg .pc))
      ∧ ∃ t, step demo = .next t :=
  ⟨rfl, rfl, rfl, rfl, rfl, rfl, exists_next (by decide)⟩

theorem witness_EveryStepCompletesOrFaults :
    ((machine [(.pc, 0x4401#16)]).env.readHooks = [] ∧ (machine [(.pc, 0x4401#16)]).env.writeHooks = [])
      ∧ ∃ f, step (machine [(.pc, 0x4401#16)]) = .fault f :=
  ⟨⟨rfl, rfl⟩, exists_fault (by decide)⟩

theorem witness_TheFetchGuardsStopAStep :
    0xFFFF - (0xFFFA#16).toNat < State.reset.params.fetchGuard
      ∧ ¬ 0xFFFF - (0xFFF9#16).toNat < State.reset.params.fetchGuard
      ∧ (0xFFF9#16).getLsbD 0 = true := by decide

/-- A fault of the fetch, and one of Execute (V10). -/
theorem witness_AFaultingStepStoresNothingAndKeepsItsPc :
    (∃ f, step (machine [(.pc, 0xFFFA#16)]) = .fault f)
      ∧ (leftBy (step (machine [(.pc, 0xFFFA#16)]))).env.requests = bare.env.requests
      ∧ ∃ f, step (loaded [(.pc, 0x4400#16), (.r6, 0x0201#16)] [0x10A6#16] 0#16 []) = .fault f :=
  ⟨exists_fault (by decide), by decide, exists_fault (by decide)⟩

theorem witness_MovCopiesTheSource : SrcReady .word (.indirectInc .r4) demo
    ∧ BothReady .word (.indirectInc .r4) demoDst demo
    ∧ DstWritable .word (.indirectInc .r4) demoDst demo := ⟨demo_ready.1, demo_ready, demo_writable⟩

theorem witness_AddStoresTheSum : BothReady .word (.indirectInc .r4) demoDst demo
    ∧ DstWritable .word (.indirectInc .r4) demoDst demo := ⟨demo_ready, demo_writable⟩

theorem witness_AddcAddsTheCarry : (SrcOperand.indirectInc .r4).wellFormed = true
    ∧ BothReady .word (.indirectInc .r4) demoDst demo
    ∧ DstWritable .word (.indirectInc .r4) demoDst demo := ⟨rfl, demo_ready, demo_writable⟩

theorem witness_SubcSubtractsTheBorrow : (SrcOperand.indirect .r6).wellFormed = true
    ∧ BothReady .byte (.indirect .r6) (.absolute 0xFFFF#16) demo
    ∧ DstWritable .byte (.indirect .r6) (.absolute 0xFFFF#16) demo := ⟨rfl, demo_ready_byte⟩

theorem witness_SubStoresTheDifference : BothReady .byte (.indirect .r6) (.absolute 0xFFFF#16) demo
    ∧ DstWritable .byte (.indirect .r6) (.absolute 0xFFFF#16) demo := demo_ready_byte

theorem witness_CmpOnlySetsTheFlagsOfSub : BothReady .word (.indirectInc .r4) demoDst demo
    ∧ BothReady .word (.const .eight) (.const .one) demo := ⟨demo_ready, trivial, trivial⟩

theorem witness_BitTestsAndAndStoresTheConjunction : BothReady .word (.indirectInc .r4) demoDst demo
    ∧ DstWritable .word (.indirectInc .r4) demoDst demo := ⟨demo_ready, demo_writable⟩

theorem witness_BicClearsAndBisSetsBits : BothReady .word (.immediate 1#16) (.reg .sr) demo
    ∧ DstWritable .word (.immediate 1#16) (.reg .sr) demo := ⟨⟨trivial, trivial⟩, trivial⟩

theorem witness_XorStoresTheExclusiveOr : BothReady .byte (.indirect .r6) (.absolute 0xFFFF#16) demo
    ∧ DstWritable .byte (.indirect .r6) (.absolute 0xFFFF#16) demo := demo_ready_byte

theorem witness_RrcRotatesThroughTheCarry : (SrcOperand.indirectInc .r4).wellFormed = true
    ∧ PrefixOk 0b000#3 demo ∧ SrcReady .word (.indirectInc .r4) demo
    ∧ Writable (srcLoc (.indirectInc .r4) demo) .word demo := demo_single

theorem witness_RraHalvesTheSignedOperand : PrefixOk 0b000#3 demo
    ∧ SrcReady .word (.indirectInc .r4) demo
    ∧ Writable (srcLoc (.indirectInc .r4) demo) .word demo := demo_single.2

theorem witness_SwpbExchangesTheBytes : PrefixOk 0b000#3 demo
    ∧ SrcReady .word (.indirectInc .r4) demo
    ∧ Writable (srcLoc (.indirectInc .r4) demo) .word demo := demo_single.2

theorem witness_SxtExtendsTheLowByte : PrefixOk 0b100#3 demo ∧ SrcReady .word (.reg .r7) demo
    ∧ Writable (srcLoc (.reg .r7) demo) .word demo := ⟨.inr rfl, trivial, trivial⟩

theorem witness_PushStoresBelowTheStackPointer : PrefixOk 0b000#3 demo
    ∧ SrcReady .word (.indirectInc .r4) demo
    ∧ PlainStore .word ((postIncrement (.indirectInc .r4) .word demo).regs.sp - 2#16) demo :=
  ⟨.inl rfl, demo_single.2.2.1, plainStore_mk (a := 0x43FE#16) rfl rfl⟩

theorem witness_CallPushesTheReturnAddressAndJumps : (SrcOperand.indirectInc .r4).wellFormed = true
    ∧ PrefixOk 0b000#3 demo ∧ SrcReady .word (.indirectInc .r4) demo
    ∧ PlainStore .word ((postIncrement (.indirectInc .r4) .word demo).regs.sp - 2#16) demo :=
  ⟨rfl, .inl rfl, demo_single.2.2.1, plainStore_mk (a := 0x43FE#16) rfl rfl⟩

/-- T3: `JMP $` at the last fetchable even address. -/
theorem witness_JmpAlwaysJumps :
    let s := loaded [(.pc, 0xFFF8#16)] [0x3FFF#16] 0#16 []
    (fetchGuardAt s.params s.regs.pc).isNone = true ∧ s.env.bindsFetch s.regs.pc = false
      ∧ s.byteAt s.regs.pc = 0xFF#8 ∧ s.byteAt (s.regs.pc + 1#16) = 0x3F#8
      ∧ s.regs.sr.getLsbD 4 = false := by decide

theorem witness_AStrictPrefixViolationRaisesUnsupported :
    State.params { State.reset with params := { Config.params with sopPrefix := .strict } }
        = { sopPrefix := .strict, movReadsDst := true, fetchGuard := 6, wordGuard := 4 }
      ∧ 0b000#3 ≠ 0b100#3 ∧ .rrc 0b000#3 .word (.reg .pc) ∈ singleForms 0b000#3 .word (.reg .pc) := by
  decide

theorem witness_WritingAConstantRaisesBadOperand :
    (SrcReady .word (.indirectInc .r4) demo ∧ (.mov .word (.indirectInc .r4) (.const .zero), aluMov)
        ∈ writingComputations .word (.indirectInc .r4) (.const .zero))
      ∧ PrefixOk 0b000#3 demo ∧ srcLoc (.immediate 7#16) demo = .noLoc 7#16
      ∧ (.swpb 0b000#3 .word (.immediate 7#16), .word, aluSwpb)
        ∈ rewritingComputations 0b000#3 .word (.immediate 7#16) :=
  ⟨⟨demo_ready.1, List.mem_cons_self ..⟩, .inl rfl, rfl, List.mem_cons_of_mem _ (List.mem_cons_self ..)⟩

/-- An odd address, and the first even address the guard stops, 0xFFFC. -/
theorem witness_ABadSourceAddressFaultsFirst : PrefixOk 0b000#3 demo
    ∧ (srcLoc (.indirect .r6) demo = .mem 0x0201#16 ∧ (0x0201#16).getLsbD 0 = true)
    ∧ (srcLoc (.indirect .r7) demo = .mem 0xFFFC#16 ∧ (0xFFFC#16).getLsbD 0 = false
      ∧ 0xFFFF - (0xFFFC#16).toNat < demo.params.wordGuard)
    ∧ (.sxt 0b000#3 .byte (.indirect .r6), Width.word)
      ∈ readingForms 0b000#3 .byte (.indirect .r6) :=
  ⟨.inl rfl, by decide, by decide, by decide⟩

theorem witness_ABadDestinationAddressKeepsThePostIncrement :
    SrcReady .word (.indirectInc .r4) demo
      ∧ (dstLoc .word (.indirectInc .r4) (.indexed .r5 3#16) demo = .mem 0xFFFB#16
        ∧ (0xFFFB#16).getLsbD 0 = true)
      ∧ (dstLoc .word (.indirectInc .r4) (.indexed .r5 4#16) demo = .mem 0xFFFC#16
        ∧ (0xFFFC#16).getLsbD 0 = false ∧ 0xFFFF - (0xFFFC#16).toNat < demo.params.wordGuard) :=
  ⟨demo_ready.1, by decide, by decide⟩

/-- V23 (SP odd), and V24 (SP = 0, so the push is at 0xFFFE). -/
theorem witness_ABadStackAddressLeavesTheStackPointerMoved :
    (PrefixOk 0b000#3 (machine [(.sp, 0x4401#16)])
        ∧ SrcReady .word (.reg .r5) (machine [(.sp, 0x4401#16)])
        ∧ ((machine [(.sp, 0x4401#16)]).regs.sp - 2#16).getLsbD 0 = true)
      ∧ PrefixOk 0b000#3 State.reset ∧ SrcReady .word (.reg .r5) State.reset
      ∧ (State.reset.regs.sp - 2#16).getLsbD 0 = false
      ∧ 0xFFFF - (State.reset.regs.sp - 2#16).toNat < State.reset.params.wordGuard :=
  ⟨⟨.inl rfl, trivial, by decide⟩, .inl rfl, trivial, by decide, by decide⟩

/-- A destination in memory and one in a register, both completing. -/
theorem witness_WritingDoubleOperandFrame :
    (∃ t, exec (.add .word (.indirectInc .r4) demoDst) demo = .next t)
      ∧ (leftBy (exec (.add .word (.indirectInc .r4) demoDst) demo)).env.requests = demo.env.requests
      ∧ dstLoc .word (.indirectInc .r4) demoDst demo = .mem 0xFFFA#16
      ∧ ∃ t, exec (.mov .byte (.reg .r4) (.reg .r5)) demo = .next t :=
  ⟨exists_next (by decide), by decide, by decide, exists_next (by decide)⟩

theorem witness_ComparingDoubleOperandFrame :
    (∃ t, exec (.cmp .word (.indirectInc .r4) demoDst) demo = .next t)
      ∧ (leftBy (exec (.cmp .word (.indirectInc .r4) demoDst) demo)).env.requests = demo.env.requests
      ∧ ∃ t, exec (.bit .byte (.reg .r4) (.const .one)) demo = .next t :=
  ⟨exists_next (by decide), by decide, exists_next (by decide)⟩

theorem witness_RewritingSingleOperandFrame :
    (∃ t, exec (.rrc 0b000#3 .word (.indirectInc .r4)) demo = .next t)
      ∧ (leftBy (exec (.rrc 0b000#3 .word (.indirectInc .r4)) demo)).env.requests = demo.env.requests
      ∧ srcLoc (.indirectInc .r4) demo = .mem 0x0200#16
      ∧ ∃ t, exec (.sxt 0b000#3 .byte (.reg .r5)) demo = .next t :=
  ⟨exists_next (by decide), by decide, by decide, exists_next (by decide)⟩

theorem witness_StackInstructionFrame :
    (∃ t, exec (.push 0b000#3 .byte (.indirectInc .r6)) demo = .next t)
      ∧ (leftBy (exec (.push 0b000#3 .byte (.indirectInc .r6)) demo)).env.requests = demo.env.requests
      ∧ ∃ t, exec (.call 0b000#3 .word (.indirectInc .sp)) demo = .next t :=
  ⟨exists_next (by decide), by decide, exists_next (by decide)⟩

/-- The three groups of instructions. -/
theorem witness_SomeInstructionsChangeNoFlag : (SrcOperand.reg .r5).wellFormed = true
    ∧ (∃ t, exec (.bis .word (.reg .r5) (.reg .r6)) demo = .next t)
    ∧ (∃ t, exec (.swpb 0b000#3 .word (.reg .r5)) demo = .next t)
    ∧ ∃ t, exec (.jne 0x3FF#10) demo = .next t :=
  ⟨rfl, exists_next (by decide), exists_next (by decide), exists_next (by decide)⟩

theorem witness_TheStackPointerChangesOnlyAsSaid :
    (∃ t, exec (.push 0b000#3 .word (.indirectInc .sp)) demo = .next t)
      ∧ destRegister (.push 0b000#3 .word (.indirectInc .sp)) ≠ some .sp
      ∧ (∃ t, exec (.mov .byte (.indirectInc .sp) (.reg .r5)) demo = .next t)
      ∧ destRegister (.mov .byte (.indirectInc .sp) (.reg .r5)) ≠ some .sp :=
  ⟨exists_next (by decide), by decide, exists_next (by decide), by decide⟩

theorem witness_AGeneralRegisterChangesOnlyAsSaid :
    (∃ t, exec (.add .word (.indirectInc .r4) (.reg .r5)) demo = .next t)
      ∧ Reg.r4 ∉ [Reg.pc, .sp, .sr]
      ∧ destRegister (.add .word (.indirectInc .r4) (.reg .r5)) ≠ some .r4 :=
  ⟨exists_next (by decide), by decide, by decide⟩

theorem witness_ControlBitsChangeOnlyWhenSrIsTheDestination :
    (Instr.add .word (.reg .r4) (.reg .r5)).wellFormed = true
      ∧ (∃ t, exec (.add .word (.reg .r4) (.reg .r5)) demo = .next t)
      ∧ destRegister (.add .word (.reg .r4) (.reg .r5)) ≠ some .sr ∧ 4 ∉ [0, 1, 2, 8] :=
  ⟨rfl, exists_next (by decide), by decide, by decide⟩

theorem witness_ByteResultsFitInAByte :
    (∃ t, exec (.rrc 0b000#3 .byte (.reg .r5)) demo = .next t)
      ∧ (∃ t, exec (.subc .byte (.reg .r4) (.reg .r5)) demo = .next t) :=
  ⟨exists_next (by decide), exists_next (by decide)⟩

theorem witness_JumpsAfterCmpCompareTheOperands :
    BothReady .word (.indirectInc .r4) demoDst demo
      ∧ BothReady .byte (.indirect .r6) (.absolute 0xFFFF#16) demo := ⟨demo_ready, demo_ready_byte.1⟩

/-- A MOV that completes, and one that faults, under `P_MOV_READS_DST = true`. -/
theorem witness_WhetherMovReadsItsDestinationIsInvisible :
    (∀ a, demo.env.bindsLoad .word a = false ∧ demo.env.bindsStore .word a = false)
      ∧ demo.params.movReadsDst = true
      ∧ (∃ t, exec (.mov .word (.indirectInc .r4) demoDst) demo = .next t)
      ∧ ∃ f, exec (.mov .word (.indirectInc .r4) (.absolute 0xFFFC#16)) demo = .fault f :=
  ⟨demo_free .word, rfl, exists_next (by decide), exists_fault (by decide)⟩

theorem witness_ALoadReturnsTheLastStore : Memory.wf demo.mem
    ∧ (PlainStore .word 0xFFFA#16 demo ∧ PlainLoad .word 0xFFFA#16 demo)
    ∧ PlainStore .byte 0xFFFF#16 demo ∧ PlainLoad .byte 0xFFFF#16 demo :=
  ⟨demo_wf, ⟨plainStore_mk rfl rfl, plainLoad_mk rfl rfl⟩, plainStore_mk rfl rfl, plainLoad_mk rfl rfl⟩

theorem witness_TheWordGuardsStopLoadsAndStores :
    (0xFFFD#16).getLsbD 0 = true ∧ (0xFFFC#16).getLsbD 0 = false
      ∧ 0xFFFF - (0xFFFC#16).toNat < State.reset.params.wordGuard := by decide

/-- A machine whose console addresses are 0x0300 and 0x0303. -/
def consoled : State := { demo with env := { demo.env with console := [0x0300#16, 0x0303#16] } }

/-- The last byte of memory, and a console address. -/
theorem witness_ByteAccessesNeverFault : 0xFFFF#16 ∉ consoled.env.readHooks
    ∧ 0xFFFF#16 ∉ consoled.env.writeHooks ∧ 0xFFFF#16 ∉ consoled.env.console
    ∧ 0x0300#16 ∉ consoled.env.readHooks ∧ 0x0300#16 ∉ consoled.env.writeHooks
    ∧ 0x0300#16 ∈ consoled.env.console := by decide

/-- A word over the byte at 0x0303 is a console access and completes; the word below it is not one (R46). -/
theorem test_console :
    let t := leftBy (exec (.mov .word (.immediate 0x1234#16) (.absolute 0x0302#16)) consoled)
    t.env.consoleRequests = [.load 0x0302#16 .word, .store 0x0302#16 .word 0x1234#16]
      ∧ (leftBy (exec (.mov .word (.immediate 0x1234#16) (.absolute 0x0304#16)) consoled)).env.consoleRequests
          = [] := by decide

/-- A hook at a console address takes precedence (R46). -/
theorem test_hook_before_console :
    let s : State := { consoled with env := { consoled.env with
      readHooks := [0x0300#16], answers := [.value 0x41#48 []] } }
    let t := leftBy (exec (.mov .byte (.absolute 0x0300#16) (.reg .r8)) s)
    t.regs.r8 = 0x0041#16 ∧ t.env.consoleRequests = [] := by decide

/-- A machine with a read hook and a write hook at 0xFFFA, and scripted answers. -/
def hooked (answers : List Answer) : State :=
  { demo with env := { demo.env with readHooks := [0xFFFA#16], writeHooks := [0xFFFA#16],
                                     answers := answers } }

theorem hooked_guard (l : List Answer) : Width.word = .word → (0xFFFA#16).getLsbD 0 = false
    ∧ ¬ 0xFFFF - (0xFFFA#16).toNat < (hooked l).params.wordGuard := by
  intro _
  exact ⟨rfl, by show ¬ 0xFFFF - (0xFFFA#16).toNat < 4; decide⟩

/-- A write hook takes the word; the stored bytes stay, but for what the hook writes itself (R47, R49). -/
theorem test_write_hook :
    let t := leftBy (exec (.mov .word (.reg .r4) (.absolute 0xFFFA#16))
      (hooked [.error .notFound [], .value 0#48 [(0x0300#16, 0x55#8)]]))
    t.byteAt 0xFFFA#16 = 0x00#8 ∧ t.byteAt 0x0300#16 = 0x55#8
      ∧ t.env.requests = [.load 0xFFFA#16 .word, .store 0xFFFA#16 .word 0x0200#16] := by decide

/-- A read hook's value is read; its error falls back to the stored bytes (R47). -/
theorem test_read_hook :
    (leftBy (exec (.mov .byte (.absolute 0xFFFA#16) (.reg .r8)) (hooked [.value 0x1234#48 []]))).regs.r8
        = 0x0034#16
      ∧ (leftBy (exec (.mov .word (.absolute 0xFFFA#16) (.reg .r8))
          (hooked [.error .notFound [(0xFFFB#16, 0x12#8)]]))).regs.r8 = 0x1200#16 := by decide

/-- A read hook at 0x0302, whose word covers the console address 0x0303, answering with an error. -/
def hookedConsole : State :=
  { consoled with env := { consoled.env with
    readHooks := [0x0302#16], answers := [.error .notFound []] } }

/-- Each kind of answer, scripted, and no script. -/
theorem witness_AWriteHookReplacesTheStore (l : List Answer) :
    0xFFFA#16 ∈ (hooked l).env.writeHooks
      ∧ (Width.word = .word → (0xFFFA#16).getLsbD 0 = false
        ∧ ¬ 0xFFFF - (0xFFFA#16).toNat < (hooked l).params.wordGuard)
      ∧ (hooked [.value 0#48 [(0x0300#16, 0x55#8)]]).answer (.store 0xFFFA#16 .word 1#16)
        = .value 0#48 [(0x0300#16, 0x55#8)]
      ∧ (hooked [.error .ioFailure []]).answer (.store 0xFFFA#16 .word 1#16) = .error .ioFailure []
      ∧ (hooked [.never [(0x0300#16, 0x55#8)]]).answer (.store 0xFFFA#16 .word 1#16)
        = .never [(0x0300#16, 0x55#8)]
      ∧ (hooked [.error .ioFailure []]).env.answers = .error .ioFailure [] :: []
      ∧ (hooked []).env.answers = [] :=
  ⟨List.mem_cons_self .., hooked_guard l, rfl, rfl, rfl, rfl, rfl⟩

/-- Each kind of answer, and an error where a console address is covered. -/
theorem witness_AReadHookNeverFailsALoad (l : List Answer) :
    0xFFFA#16 ∈ (hooked l).env.readHooks
      ∧ (Width.word = .word → (0xFFFA#16).getLsbD 0 = false
        ∧ ¬ 0xFFFF - (0xFFFA#16).toNat < (hooked l).params.wordGuard)
      ∧ (hooked [.value 0x1234#48 []]).answer (.load 0xFFFA#16 .word) = .value 0x1234#48 []
      ∧ (hooked [.error .notFound []]).answer (.load 0xFFFA#16 .word) = .error .notFound []
      ∧ (hooked l).env.atConsole 0xFFFA#16 (size .word).toNat = false
      ∧ (hooked [.never []]).answer (.load 0xFFFA#16 .word) = .never []
      ∧ 0x0302#16 ∈ hookedConsole.env.readHooks
      ∧ hookedConsole.answer (.load 0x0302#16 .word) = .error .notFound []
      ∧ hookedConsole.env.atConsole 0x0302#16 (size .word).toNat = true :=
  ⟨List.mem_cons_self .., hooked_guard l, rfl, rfl, rfl, rfl, List.mem_cons_self .., rfl, rfl⟩

theorem witness_AStepSeesAStoreIntoItsInstruction : Memory.wf demo.mem
    ∧ PlainStore .word demo.regs.pc demo
    ∧ (fetchGuardAt demo.params demo.regs.pc).isNone = true
    ∧ demo.env.bindsFetch demo.regs.pc = false :=
  ⟨demo_wf, plainStore_mk rfl rfl, rfl, rfl⟩

theorem witness_AnImageReadsBackInOrder : Memory.wf demo.mem
    ∧ [0x12#8, 0x00#8, 0x34#8].length ≤ 65536 := ⟨demo_wf, by decide⟩

theorem witness_MemoriesThatReadAlikeAreEqual :
    Memory.wf [(0, 0x12#8), (65535, 0x34#8)]
      ∧ ∀ a, a < 65536 → Memory.read [(0, 0x12#8), (65535, 0x34#8)] a
          = Memory.read [(0, 0x12#8), (65535, 0x34#8)] a := ⟨by decide, fun _ _ => rfl⟩

theorem bare_inv : bare.Inv := ⟨Memory.wf_nil, List.nodup_nil, List.nodup_nil, by decide⟩

theorem witness_TheResetStateMeetsTheInvariant : Memory.wf [(0, 0x12#8), (65535, 0x34#8)]
    ∧ hookedConsole.env.readHooks.Nodup ∧ hookedConsole.env.writeHooks.Nodup
    ∧ hookedConsole.env.console.length ≤ 2 := by decide

/-- From a state of the invariant: a step that completes, and one that faults. -/
theorem witness_EveryStepKeepsTheInvariant : bare.Inv ∧ (∃ t, step bare = .next t)
    ∧ (machine [(.pc, 0x4401#16)]).Inv ∧ ∃ f, step (machine [(.pc, 0x4401#16)]) = .fault f :=
  ⟨bare_inv, exists_next (by decide), bare_inv, exists_fault (by decide)⟩

theorem witness_NoStepChangesParametersOrBindings : (∃ t, step bare = .next t)
    ∧ ∃ f, step (machine [(.pc, 0x4401#16)]) = .fault f :=
  ⟨exists_next (by decide), exists_fault (by decide)⟩

/-- An instance running at 0x4404 with one breakpoint there. -/
def stoppedAt (k : BreakKind) : Actor :=
  { Actor.create demo with run := .running, breakpoints := [(0x4404#16, k)] }

/-- An instance running at the odd PC 0x4401, with a Step breakpoint there. -/
def misaligned : Actor :=
  { Actor.create (machine [(.pc, 0x4401#16)]) with
    run := .running, breakpoints := [(0x4401#16, .step)] }

/-- An instance running at a PC whose fetch is hooked by a collaborator that never replies (R208). -/
def hung : Actor :=
  { Actor.create { demo with env := { demo.env with
      readHooks := [0x4404#16], fetchHooked := true, answers := [.never []] } } with run := .running }

/-- An instance running `BIS #0x10, SR` at 0x4404 (V87). -/
def halting : Actor :=
  { Actor.create (loaded [(.pc, 0x4404#16)] [0xD032#16, 0x0010#16] 0#16 []) with run := .running }

/-- Running, stopped (as created) and faulted instances, at each kind of breakpoint and at none; steps that
complete, fault and hang. -/
theorem witness_BreakpointsSuspendBeforeOrAfterTheStep :
    ((stoppedAt .stop).frozen = false ∧ (stoppedAt .stop).mailbox = []
        ∧ (stoppedAt .stop).run = .running
        ∧ (stoppedAt .stop).breakpoints.lookup 0x4404#16 = some .stop)
      ∧ ((stoppedAt .step).breakpoints.lookup 0x4404#16 = some .step ∧ ∃ t, step demo = .next t)
      ∧ ((Actor.create demo).frozen = false ∧ (Actor.create demo).run = .stopped
        ∧ (Actor.create demo).breakpoints.lookup 0x4404#16 ≠ some .stop)
      ∧ (misaligned.frozen = false ∧ misaligned.mailbox = [] ∧ misaligned.run = .running
        ∧ misaligned.breakpoints.lookup misaligned.cpu.regs.pc ≠ some .stop
        ∧ ∃ f, step misaligned.cpu = .fault f)
      ∧ (misaligned.turn.frozen = false ∧ misaligned.turn.run = .fault)
      ∧ (hung.frozen = false ∧ hung.mailbox = [] ∧ hung.run = .running
        ∧ hung.breakpoints.lookup hung.cpu.regs.pc ≠ some .stop ∧ ∃ f, step hung.cpu = .fault f)
      ∧ (stoppedAt .trace).breakpoints.lookup 0x4404#16 = some .trace :=
  ⟨⟨rfl, rfl, rfl, rfl⟩, ⟨rfl, exists_next (by decide)⟩, ⟨rfl, rfl, by decide⟩,
    ⟨rfl, rfl, rfl, by decide, exists_fault (by decide)⟩, ⟨by decide, by decide⟩,
    ⟨rfl, rfl, rfl, by decide, exists_fault (by decide)⟩, rfl⟩

theorem witness_OnlyARunningInstanceSteps :
    ((Actor.create demo).mailbox = [] ∧ (Actor.create demo).run ≠ .running)
      ∧ hung.turn.frozen = true
      ∧ (halting.frozen = false ∧ halting.mailbox = [] ∧ halting.run = .running
        ∧ stepStatus halting.cpu = .halted)
      ∧ Actor.frozen { Actor.create demo with mailbox := [.boot, .stepOnce] } = false
      ∧ Actor.mailbox { Actor.create demo with mailbox := [.boot, .stepOnce] } = .boot :: [.stepOnce]
      ∧ Actor.mailbox { Actor.create demo with mailbox := [.getRegisters, .readMemory 0x0200#16 2] }
        = .getRegisters :: [.readMemory 0x0200#16 2]
      ∧ Actor.mailbox { Actor.create demo with mailbox := [.readMemory 0x0200#16 2] }
        = .readMemory 0x0200#16 2 :: [] :=
  ⟨⟨rfl, by decide⟩, by decide, ⟨rfl, rfl, rfl, by decide⟩, rfl, rfl, rfl, rfl⟩

/-- A faulted instance remains readable through its mailbox (R202, R205, R206). -/
theorem test_faulted_instance_answers :
    ((Actor.service (.readMemory 0x4404#16 2) { Actor.create (loaded [(.pc, 0x4404#16)] [0x3FFF#16] 0#16 []) with
        run := .fault }).replies) = [.bytes [0xFF#8, 0x3F#8]]
      ∧ (Actor.service (.disassemble 0x4404#16) { Actor.create
          (loaded [(.pc, 0x4404#16)] [0x3FFF#16] 0#16 []) with run := .fault }).replies
        = [.instr (.jmp 0x3FF#10)] := by decide

end Sys2Proof.Tests
end

/-! ## Instructions that raise Unsupported on every path (R127, R128, R167) -/

namespace Sys2Proof.Machine

/-- A raise that ends an instruction leaves the fault with the state found (R197). -/
@[simp] theorem raise_outcome (f : State → Fault) (s : State) :
    (raise f s : Res Unit).outcome = .fault (f s) := rfl

theorem exec_reti (pre : BitVec 3) (bw : Width) (src : SrcOperand) (s : State) :
    exec (.reti pre bw src) s = .fault (.unsupported (firstWord (.reti pre bw src)) s) := by
  simp [exec, execReti]

theorem exec_reserved7 (pre : BitVec 3) (bw : Width) (src : SrcOperand) (s : State) :
    exec (.reserved7 pre bw src) s
      = .fault (.unsupported (firstWord (.reserved7 pre bw src)) s) := by
  simp [exec, execReserved7]

theorem exec_dadd (bw : Width) (src : SrcOperand) (dst : DstOperand) (s : State) :
    exec (.dadd bw src dst) s = .fault (.unsupported (firstWord (.dadd bw src dst)) s) := by
  simp [exec, execDadd]

/-- Settles O30: each of the three meanings is a raise alone, with no operand access before it. -/
theorem unimplementedInstructionsRaiseUnsupported :
    Obligations.UnimplementedInstructionsRaiseUnsupported := by
  intro pre bw src dst s
  exact ⟨exec_reti pre bw src s, exec_reserved7 pre bw src s, exec_dadd bw src dst s⟩

end Sys2Proof.Machine

/-! ## The jumps (42_jump.md R140 to R148) -/

namespace Sys2Proof

/-- The shifted offset of R74 is twice the signed offset. -/
theorem jumpOffset_eq_ofInt (off : BitVec 10) : jumpOffset off = BitVec.ofInt 16 (2 * off.toInt) := by
  apply BitVec.eq_of_toInt_eq
  rw [jumpOffset, BitVec.shiftLeft_eq_mul_twoPow, BitVec.toInt_mul, BitVec.toInt_ofInt,
    BitVec.toInt_signExtend_of_le (by decide), Int.mul_comm]
  rfl

/-- A jump word is its row's fixed bits (R64, R79) with the offset below them. -/
theorem jumpWord_eq_or (cond : BitVec 3) (off : BitVec 10) :
    jumpWord cond off = (0x2000#16 ||| cond.setWidth 16 <<< 10) ||| off.setWidth 16 := by
  apply BitVec.eq_of_getLsbD_eq
  intro i hi
  simp only [jumpWord, BitVec.getLsbD_or, BitVec.getLsbD_append, BitVec.getLsbD_shiftLeft,
    BitVec.getLsbD_setWidth]
  interval_cases i <;> simp

theorem decodeWords_jumpWord (cond : BitVec 3) (off : BitVec 10) (x y : Word) :
    decodeWords (jumpWord cond off) x y = jumpOf cond off := by
  obtain ⟨hfamily, hcond, hoff⟩ := jumpWord_fields cond off
  simp [decodeWords, decodeJump, hfamily, hcond, hoff]

/-- A word with a jump row's fixed bits decodes to that row's jump, whatever follows it (R64, R79). -/
theorem decodeWords_jumpRow (cond : BitVec 3) (off : BitVec 10) (x y : Word) :
    decodeWords ((0x2000#16 ||| cond.setWidth 16 <<< 10) ||| off.setWidth 16) x y
      = jumpOf cond off := by
  rw [← jumpWord_eq_or, decodeWords_jumpWord]

end Sys2Proof

namespace Sys2Proof.Machine

/-- What a jump does (R140), for any way `p` of stating its condition. -/
theorem jumpIf_of_iff {taken : Bool} {p : Prop} [Decidable p] (h : taken = true ↔ p)
    (off : BitVec 10) (s : State) :
    jumpIf taken off s
      = .next (if p then s.setReg .pc (s.regs.pc + BitVec.ofInt 16 (2 * off.toInt)) else s) := by
  simp only [jumpIf, h, jumpOffset_eq_ofInt]

theorem exec_jne (off : BitVec 10) (s : State) :
    exec (.jne off) s = jumpIf (!s.regs.sr.getLsbD 1) off s := rfl

theorem exec_jeq (off : BitVec 10) (s : State) :
    exec (.jeq off) s = jumpIf (s.regs.sr.getLsbD 1) off s := rfl

theorem exec_jn (off : BitVec 10) (s : State) :
    exec (.jn off) s = jumpIf (s.regs.sr.getLsbD 2) off s := rfl

theorem exec_jge (off : BitVec 10) (s : State) :
    exec (.jge off) s = jumpIf (!(s.regs.sr.getLsbD 2 ^^ s.regs.sr.getLsbD 8)) off s := rfl

theorem exec_jl (off : BitVec 10) (s : State) :
    exec (.jl off) s = jumpIf (s.regs.sr.getLsbD 2 ^^ s.regs.sr.getLsbD 8) off s := rfl

theorem exec_jmp (off : BitVec 10) (s : State) :
    exec (.jmp off) s = .next (s.setReg .pc (s.regs.pc + BitVec.ofInt 16 (2 * off.toInt))) := by
  rw [← jumpOffset_eq_ofInt]
  rfl

/-- Settles O26: each jump is `jumpIf` on Z, negated for JNE. -/
theorem jneAndJeqFollowZero : Obligations.JneAndJeqFollowZero := by
  intro off x y s
  refine ⟨decodeWords_jumpRow 0#3 off x y, decodeWords_jumpRow 1#3 off x y, ?_, ?_⟩
  · rw [exec_jne]
    exact jumpIf_of_iff (by rw [Bool.not_eq_true']) off s
  · rw [exec_jeq]
    exact jumpIf_of_iff Iff.rfl off s

/-- Settles O28: each jump is `jumpIf` on N or on N xor V, which is 1 exactly when the two differ. -/
theorem jnJgeAndJlFollowTheSign : Obligations.JnJgeAndJlFollowTheSign := by
  intro off x y s
  refine ⟨decodeWords_jumpRow 4#3 off x y, decodeWords_jumpRow 5#3 off x y,
    decodeWords_jumpRow 6#3 off x y, ?_, ?_, ?_⟩
  · rw [exec_jn]
    exact jumpIf_of_iff Iff.rfl off s
  · rw [exec_jge]
    exact jumpIf_of_iff (by rw [Bool.not_eq_true', bne_eq_false_iff_eq]) off s
  · rw [exec_jl]
    exact jumpIf_of_iff bne_iff_ne off s

/-- The first word of the window at `a` is the two bytes at `a` and `a + 1` (R60). -/
theorem wordAt_windowAt_zero (s : State) (a : Word) :
    wordAt (s.windowAt a) 0 = wordOfBytes (s.byteAt a) (s.byteAt (a + 1#16)) := by
  have ha : a + 0#16 = a := BitVec.add_zero a
  simp [wordAt, State.windowAt, windowBytes, List.range_succ, ha]

/-- A step whose fetch nothing bound answers runs what the stored bytes spell, the PC advanced (R90). -/
theorem step_plain {s : State} {i : Instr} (hg : fetchGuardAt s.params s.regs.pc = none)
    (hb : s.env.bindsFetch s.regs.pc = false) (hd : decode (s.windowAt s.regs.pc) = .ok i) :
    step s = exec i (s.setReg .pc (s.regs.pc + BitVec.ofNat 16 (instrWidth i))) := by
  simp only [step, fetchInstr, fetch6_plain hg hb, Res.ok_andThen, hd]

/-- `JMP $` (0x3FFF) with the PC past it jumps back to its own address (R148). -/
theorem exec_jmp_self (s : State) :
    exec (.jmp 0x3FF#10) (s.setReg .pc (s.regs.pc + 2#16)) = .next s := by
  have hback : s.regs.pc + 2#16 + BitVec.ofInt 16 (2 * (0x3FF#10).toInt) = s.regs.pc := by
    rw [BitVec.add_assoc]
    exact BitVec.add_zero _
  calc exec (.jmp 0x3FF#10) (s.setReg .pc (s.regs.pc + 2#16))
      = .next (s.setReg .pc (s.regs.pc + 2#16 + BitVec.ofInt 16 (2 * (0x3FF#10).toInt))) :=
        exec_jmp _ _
    _ = .next (s.setReg .pc s.regs.pc) := by rw [hback]
    _ = .next s := rfl

/-- A stored 0x3FFF at the PC is stepped for ever (R148). -/
theorem step_jmp_self {s : State} (hg : fetchGuardAt s.params s.regs.pc = none)
    (hb : s.env.bindsFetch s.regs.pc = false) (hlo : s.byteAt s.regs.pc = 0xFF#8)
    (hhi : s.byteAt (s.regs.pc + 1#16) = 0x3F#8) : step s = .next s := by
  have hword : wordAt (s.windowAt s.regs.pc) 0 = jumpWord 7#3 0x3FF#10 := by
    rw [wordAt_windowAt_zero, hlo, hhi]
    rfl
  have hdecode : decode (s.windowAt s.regs.pc) = .ok (.jmp 0x3FF#10) := by
    rw [decode_six (windowAt_length s _), hword, decodeWords_jumpWord]
    rfl
  rw [step_plain hg hb hdecode]
  exact exec_jmp_self s

/-- A step that completes with CPUOFF clear has status Ok (R109). -/
theorem stepStatus_ok {s t : State} (h : step s = .next t) (hoff : t.regs.sr.getLsbD 4 = false) :
    stepStatus s = .ok := by
  simp only [stepStatus, h, statusOf, State.cpuOff, hoff]
  rfl

/-- Settles O29: `JMP $` advances the PC by 2 and takes the 2 back. -/
theorem jmpAlwaysJumps : Obligations.JmpAlwaysJumps := by
  intro off x y s
  refine ⟨decodeWords_jumpRow 7#3 off x y, exec_jmp off s, fun hg hb hlo hhi => ?_⟩
  have hstep := step_jmp_self hg hb hlo hhi
  exact ⟨hstep, stepStatus_ok hstep⟩

end Sys2Proof.Machine

/-! ## Encoding: the widths (30_encoding.md R70, R71) -/

namespace Sys2Proof

theorem extWords_singleOf (opc pre : BitVec 3) (bw : Width) (src : SrcOperand) :
    extWords (singleOf opc pre bw src) = srcExt src := by
  unfold singleOf
  split <;> rfl

theorem extWords_jumpOf (cond : BitVec 3) (off : BitVec 10) : extWords (jumpOf cond off) = [] := by
  unfold jumpOf
  split <;> rfl

theorem extWords_doubleOf (opc : BitVec 4) (bw : Width) (src : SrcOperand) (dst : DstOperand) :
    extWords (doubleOf opc bw src dst) = srcExt src ++ dstExt dst := by
  unfold doubleOf
  split <;> rfl

/-- Every word is of one family, by its bits 15:13 (R61). -/
theorem decodeWords_cases (w0 w1 w2 : Word) :
    (field 13 3 w0 = 0#3 ∧ decodeWords w0 w1 w2 = decodeSingle w0 w1) ∨
    (field 13 3 w0 = 1#3 ∧ decodeWords w0 w1 w2 = decodeJump w0) ∨
    (field 13 3 w0 ≠ 0#3 ∧ field 13 3 w0 ≠ 1#3 ∧ decodeWords w0 w1 w2 = decodeDouble w0 w1 w2) := by
  unfold decodeWords
  generalize field 13 3 w0 = family
  split
  · exact .inl ⟨BitVec.eq_of_toNat_eq ‹_›, rfl⟩
  · exact .inr (.inl ⟨BitVec.eq_of_toNat_eq ‹_›, rfl⟩)
  · rename_i h0 h1
    exact .inr (.inr ⟨fun h => h0 (congrArg BitVec.toNat h), fun h => h1 (congrArg BitVec.toNat h),
      rfl⟩)

/-- A source operand has an extension word in INDEXED, ABSOLUTE and IMMEDIATE (R66, R70). -/
theorem srcExt_srcOperand_length (reg : BitVec 4) (as : BitVec 2) (x : Word) :
    (srcExt (srcOperand reg as x)).length
      = if (as = 1#2 ∧ reg ≠ 3#4) ∨ (as = 3#2 ∧ reg = 0#4) then 1 else 0 := by
  rw [srcExt_length_congr reg as x 0#16]
  revert reg as
  decide

/-- A destination operand has an extension word in INDEXED and ABSOLUTE (R67, R70). -/
theorem dstExt_dstOperand_length (reg : BitVec 4) (ad : BitVec 1) (x : Word) :
    (dstExt (dstOperand reg ad x)).length = if ad = 1#1 ∧ reg ≠ 3#4 then 1 else 0 := by
  have had : ad = 0#1 ∨ ad = 1#1 := by revert ad; decide
  rcases regOfIndex_cases reg with ⟨rfl, -⟩ | ⟨r, rfl, -⟩
  · rcases had with rfl | rfl <;> rfl
  · rcases had with rfl | rfl <;> cases r <;> rfl

theorem instrWidth_decodeSingle (w0 w1 : Word) :
    instrWidth (decodeSingle w0 w1)
      = 2 + 2 * (srcExt (srcOperand (field 0 4 w0) (field 4 2 w0) w1)).length := by
  rw [instrWidth, decodeSingle, extWords_singleOf]

theorem instrWidth_decodeJump (w0 : Word) : instrWidth (decodeJump w0) = 2 := by
  rw [instrWidth, decodeJump, extWords_jumpOf]
  rfl

/-- The word a destination's extension is taken from: the one after the source's (R72). -/
def dstWord (w0 w1 w2 : Word) : Word :=
  if srcExt (srcOperand (field 8 4 w0) (field 4 2 w0) w1) = [] then w1 else w2

theorem decodeDouble_eq (w0 w1 w2 : Word) :
    decodeDouble w0 w1 w2 = doubleOf (field 12 4 w0) (widthOfBit (field 6 1 w0))
      (srcOperand (field 8 4 w0) (field 4 2 w0) w1)
      (dstOperand (field 0 4 w0) (field 7 1 w0) (dstWord w0 w1 w2)) := rfl

theorem instrWidth_decodeDouble (w0 w1 w2 : Word) :
    instrWidth (decodeDouble w0 w1 w2)
      = 2 + 2 * (srcExt (srcOperand (field 8 4 w0) (field 4 2 w0) w1)).length
        + 2 * (dstExt (dstOperand (field 0 4 w0) (field 7 1 w0) (dstWord w0 w1 w2))).length := by
  rw [instrWidth, decodeDouble_eq, extWords_doubleOf, List.length_append]
  omega

/-- Settles O4: the width is the operands' extension words, whose number each operand's fields tell. -/
theorem theFirstWordTellsTheWidth : Obligations.TheFirstWordTellsTheWidth := by
  intro w0 w1 w2 needsSrc needsDst
  change (field 13 3 w0 = 0#3 → instrWidth (decodeWords w0 w1 w2)
        = 2 + 2 * needsSrc (field 0 4 w0) (field 4 2 w0))
      ∧ (field 13 3 w0 = 1#3 → instrWidth (decodeWords w0 w1 w2) = 2)
      ∧ (field 13 3 w0 ≠ 0#3 → field 13 3 w0 ≠ 1#3 → instrWidth (decodeWords w0 w1 w2)
        = 2 + 2 * needsSrc (field 8 4 w0) (field 4 2 w0)
          + 2 * needsDst (field 0 4 w0) (field 7 1 w0))
  rcases decodeWords_cases w0 w1 w2 with ⟨hf, e⟩ | ⟨hf, e⟩ | ⟨hf0, hf1, e⟩
  · simp [hf, e, instrWidth_decodeSingle, srcExt_srcOperand_length, needsSrc]
  · simp [hf, e, instrWidth_decodeJump]
  · simp [hf0, hf1, e, instrWidth_decodeDouble, srcExt_srcOperand_length, dstExt_dstOperand_length,
      needsSrc, needsDst]

/-- The width does not depend on the extension words (R71). -/
theorem instrWidth_decodeWords (w0 w1 w2 : Word) :
    instrWidth (decodeWords w0 w1 w2) = widthOfWord w0 := by
  unfold widthOfWord
  obtain ⟨hs, hj, hd⟩ := theFirstWordTellsTheWidth w0 w1 w2
  obtain ⟨hs', hj', hd'⟩ := theFirstWordTellsTheWidth w0 0#16 0#16
  by_cases h0 : w0.extractLsb' 13 3 = 0#3
  · rw [hs h0, hs' h0]
  · by_cases h1 : w0.extractLsb' 13 3 = 1#3
    · rw [hj h1, hj' h1]
    · rw [hd h0 h1, hd' h0 h1]

/-- Settles O5: the decoder's own test of the length is the width of the decoded instruction. -/
theorem decodingFailsExactlyWhenBytesAreMissing :
    Obligations.DecodingFailsExactlyWhenBytesAreMissing := by
  intro bytes e
  cases e
  rw [instrWidth_decodeWords, decode]
  split
  · simp [*]
  · split <;> simp [*]

/-- Settles O6: each of the eight words is decoded by evaluation. -/
theorem wordsOfTheSpecDecode : Obligations.WordsOfTheSpecDecode := by
  unfold Obligations.WordsOfTheSpecDecode
  decide

/-! ## Encoding: a first word has the fields it is decoded from -/

theorem mem_threeBits : ∀ n : BitVec 3, n ∈ [0#3, 1#3, 2#3, 3#3, 4#3, 5#3, 6#3, 7#3] := by decide

theorem firstWord_singleOf (opc pre : BitVec 3) (bw : Width) (src : SrcOperand) :
    firstWord (singleOf opc pre bw src) = singleWord opc pre bw src := by
  have h := mem_threeBits opc
  fin_cases h <;> rfl

theorem firstWord_jumpOf (cond : BitVec 3) (off : BitVec 10) :
    firstWord (jumpOf cond off) = jumpWord cond off := by
  have h := mem_threeBits cond
  fin_cases h <;> rfl

/-- The opcodes of the double-operand family: 4 to 15 (R65, R80). -/
def doubleOpcodes : List (BitVec 4) :=
  [4#4, 5#4, 6#4, 7#4, 8#4, 9#4, 10#4, 11#4, 12#4, 13#4, 14#4, 15#4]

theorem firstWord_doubleOf {opc : BitVec 4} (h : opc ∈ doubleOpcodes) (bw : Width)
    (src : SrcOperand) (dst : DstOperand) :
    firstWord (doubleOf opc bw src dst) = doubleWord opc bw src dst := by
  unfold doubleOpcodes at h
  fin_cases h <;> rfl

/-- A word outside the other two families carries a double-operand opcode (R61, R65). -/
theorem mem_doubleOpcodes {w0 : Word} (h0 : field 13 3 w0 ≠ 0#3) (h1 : field 13 3 w0 ≠ 1#3) :
    field 12 4 w0 ∈ doubleOpcodes := by
  have htop : field 13 3 w0 = (field 12 4 w0).extractLsb' 1 3 := by
    apply BitVec.eq_of_getLsbD_eq
    intro i hi
    simp only [field, BitVec.getLsbD_extractLsb']
    interval_cases i <;> simp
  rw [htop] at h0 h1
  generalize field 12 4 w0 = opc at h0 h1
  revert opc
  decide

theorem firstWord_decodeSingle {w0 : Word} (h : field 13 3 w0 = 0#3) (w1 : Word) :
    firstWord (decodeSingle w0 w1) = w0 := by
  obtain ⟨-, hfields, -⟩ := srcOperand_spec (field 0 4 w0) (field 4 2 w0) w1
  rw [decodeSingle, firstWord_singleOf, singleWord, hfields, bitOfWidth_widthOfBit, ← h]
  exact word_of_single_fields w0

theorem firstWord_decodeJump {w0 : Word} (h : field 13 3 w0 = 1#3) :
    firstWord (decodeJump w0) = w0 := by
  rw [decodeJump, firstWord_jumpOf, jumpWord, ← h]
  exact word_of_jump_fields w0

theorem firstWord_decodeDouble {w0 : Word} (h0 : field 13 3 w0 ≠ 0#3) (h1 : field 13 3 w0 ≠ 1#3)
    (w1 w2 : Word) : firstWord (decodeDouble w0 w1 w2) = w0 := by
  obtain ⟨-, hsrc, -⟩ := srcOperand_spec (field 8 4 w0) (field 4 2 w0) w1
  obtain ⟨-, hdst, -⟩ := dstOperand_spec (field 0 4 w0) (field 7 1 w0) (dstWord w0 w1 w2)
  rw [decodeDouble_eq, firstWord_doubleOf (mem_doubleOpcodes h0 h1), doubleWord, hsrc, hdst,
    bitOfWidth_widthOfBit]
  exact word_of_double_fields w0

/-- Encoding what a first word decodes to gives the word back (R62, R64, R65). -/
theorem firstWord_decodeWords (w0 w1 w2 : Word) : firstWord (decodeWords w0 w1 w2) = w0 := by
  rcases decodeWords_cases w0 w1 w2 with ⟨hf, e⟩ | ⟨hf, e⟩ | ⟨hf0, hf1, e⟩
  · rw [e, firstWord_decodeSingle hf]
  · rw [e, firstWord_decodeJump hf]
  · rw [e, firstWord_decodeDouble hf0 hf1]

/-! ## Encoding: the rows of the opcode table -/

/-- The fixed bits of the 28 rows of spec/opcode_table.json (R78 to R80). -/
def tableRows : List (Word × Word) :=
  [(0xE380#16, 0x0000#16), (0xE380#16, 0x0080#16), (0xE380#16, 0x0100#16), (0xE380#16, 0x0180#16),
   (0xE380#16, 0x0200#16), (0xE380#16, 0x0280#16), (0xE380#16, 0x0300#16), (0xE380#16, 0x0380#16),
   (0xFC00#16, 0x2000#16), (0xFC00#16, 0x2400#16), (0xFC00#16, 0x2800#16), (0xFC00#16, 0x2C00#16),
   (0xFC00#16, 0x3000#16), (0xFC00#16, 0x3400#16), (0xFC00#16, 0x3800#16), (0xFC00#16, 0x3C00#16),
   (0xF000#16, 0x4000#16), (0xF000#16, 0x5000#16), (0xF000#16, 0x6000#16), (0xF000#16, 0x7000#16),
   (0xF000#16, 0x8000#16), (0xF000#16, 0x9000#16), (0xF000#16, 0xA000#16), (0xF000#16, 0xB000#16),
   (0xF000#16, 0xC000#16), (0xF000#16, 0xD000#16), (0xF000#16, 0xE000#16), (0xF000#16, 0xF000#16)]

theorem tableRow_mem (i : Instr) : tableRow i ∈ tableRows := by
  cases i <;> simp only [tableRow] <;> decide

/-- Two rows differ in a bit that both fix. -/
def RowsDiffer (p q : Word × Word) : Prop := p.2 &&& q.1 ≠ q.2 &&& p.1

theorem tableRows_pairwise : tableRows.Pairwise RowsDiffer := by
  unfold RowsDiffer
  decide

theorem rowsDiffer_symm : Std.Symm RowsDiffer := ⟨fun _ _ h => h.symm⟩

/-- A word matches one row only. -/
theorem tableRow_unique {i j : Instr} {w0 : Word} (hi : w0 &&& (tableRow i).1 = (tableRow i).2)
    (hj : w0 &&& (tableRow j).1 = (tableRow j).2) : tableRow j = tableRow i := by
  have hsymm := rowsDiffer_symm
  by_contra hne
  refine tableRows_pairwise.forall (tableRow_mem j) (tableRow_mem i) hne ?_
  rw [← hi, ← hj, BitVec.and_assoc, BitVec.and_assoc, BitVec.and_comm (tableRow j).1]

/-- The first word of an instruction has the fixed bits of its row (R78 to R80). -/
theorem firstWord_tableRow (i : Instr) : firstWord i &&& (tableRow i).1 = (tableRow i).2 := by
  cases i with
  | rrc pre bw src => exact Laws.TableRow.rrc pre bw src
  | swpb pre bw src => exact Laws.TableRow.swpb pre bw src
  | rra pre bw src => exact Laws.TableRow.rra pre bw src
  | sxt pre bw src => exact Laws.TableRow.sxt pre bw src
  | push pre bw src => exact Laws.TableRow.push pre bw src
  | call pre bw src => exact Laws.TableRow.call pre bw src
  | reti pre bw src => exact Laws.TableRow.reti pre bw src
  | reserved7 pre bw src => exact Laws.TableRow.reserved7 pre bw src
  | jne off => exact Laws.TableRow.jne off
  | jeq off => exact Laws.TableRow.jeq off
  | jnc off => exact Laws.TableRow.jnc off
  | jc off => exact Laws.TableRow.jc off
  | jn off => exact Laws.TableRow.jn off
  | jge off => exact Laws.TableRow.jge off
  | jl off => exact Laws.TableRow.jl off
  | jmp off => exact Laws.TableRow.jmp off
  | mov bw src dst => exact Laws.TableRow.mov bw src dst
  | add bw src dst => exact Laws.TableRow.add bw src dst
  | addc bw src dst => exact Laws.TableRow.addc bw src dst
  | subc bw src dst => exact Laws.TableRow.subc bw src dst
  | sub bw src dst => exact Laws.TableRow.sub bw src dst
  | cmp bw src dst => exact Laws.TableRow.cmp bw src dst
  | dadd bw src dst => exact Laws.TableRow.dadd bw src dst
  | bit bw src dst => exact Laws.TableRow.bit bw src dst
  | bic bw src dst => exact Laws.TableRow.bic bw src dst
  | bis bw src dst => exact Laws.TableRow.bis bw src dst
  | xor bw src dst => exact Laws.TableRow.xor bw src dst
  | and bw src dst => exact Laws.TableRow.and bw src dst

/-- Settles O3: the decoded instruction's first word is the word itself, and no two rows meet. -/
theorem everyFirstWordMatchesOneTableRow : Obligations.EveryFirstWordMatchesOneTableRow := by
  intro w0 w1 w2 j
  have hrow : w0 &&& (tableRow (decodeWords w0 w1 w2)).1 = (tableRow (decodeWords w0 w1 w2)).2 := by
    have h := firstWord_tableRow (decodeWords w0 w1 w2)
    rwa [firstWord_decodeWords] at h
  exact ⟨hrow, tableRow_unique hrow⟩

/-! ## Encoding: the round trip (R60, R72, R76) -/

theorem bytesOfWords_cons (w : Word) (ws : List Word) :
    bytesOfWords (w :: ws) = lowByte w :: highByte w :: bytesOfWords ws := rfl

theorem bytesOfWords_length (ws : List Word) : (bytesOfWords ws).length = 2 * ws.length := by
  induction ws with
  | nil => rfl
  | cons w ws ih => simp only [bytesOfWords_cons, List.length_cons, ih]; omega

theorem bytesOfWords_encode_length (i : Instr) :
    (bytesOfWords (encode i)).length = instrWidth i := by
  rw [bytesOfWords_length, encode, List.length_cons, instrWidth]
  omega

theorem wordAt_cons_zero (lo hi : Byte) (bytes : List Byte) :
    wordAt (lo :: hi :: bytes) 0 = wordOfBytes lo hi := rfl

theorem wordAt_cons_succ (lo hi : Byte) (bytes : List Byte) (k : Nat) :
    wordAt (lo :: hi :: bytes) (k + 1) = wordAt bytes k := rfl

/-- The words a list of bytes was made of are read back, whatever follows (R42, R60). -/
theorem wordAt_bytesOfWords {ws : List Word} {k : Nat} {w : Word} (h : ws[k]? = some w)
    (rest : List Byte) : wordAt (bytesOfWords ws ++ rest) k = w := by
  induction ws generalizing k with
  | nil => cases h
  | cons v ws ih =>
    cases k with
    | zero =>
      cases h
      exact (wordAt_cons_zero _ _ _).trans (wordOfBytes_low_high w)
    | succ k => exact (wordAt_cons_succ _ _ _ k).trans (ih h)

/-- Bytes taken in pairs are the bytes of the words they make. -/
theorem bytesOfWords_map_wordAt {bytes : List Byte} {n : Nat} (h : 2 * n ≤ bytes.length) :
    bytesOfWords ((List.range n).map (wordAt bytes)) = bytes.take (2 * n) := by
  induction n generalizing bytes with
  | zero => rfl
  | succ n ih =>
    match bytes, h with
    | lo :: hi :: bytes, h =>
      have hn : 2 * n ≤ bytes.length := by simp only [List.length_cons] at h; omega
      have hrest : (List.range n).map (wordAt (lo :: hi :: bytes) ∘ Nat.succ)
          = (List.range n).map (wordAt bytes) := rfl
      rw [List.range_succ_eq_map, List.map_cons, List.map_map, bytesOfWords_cons, hrest, ih hn,
        wordAt_cons_zero, lowByte_wordOfBytes, highByte_wordOfBytes]
      rfl

theorem wellFormed_singleOf {src : SrcOperand} (h : src.wellFormed) (opc pre : BitVec 3)
    (bw : Width) : (singleOf opc pre bw src).wellFormed := by
  unfold singleOf
  split <;> exact h

theorem wellFormed_jumpOf (cond : BitVec 3) (off : BitVec 10) : (jumpOf cond off).wellFormed := by
  unfold jumpOf
  split <;> rfl

theorem wellFormed_doubleOf {src : SrcOperand} {dst : DstOperand} (hs : src.wellFormed)
    (hd : dst.wellFormed) (opc : BitVec 4) (bw : Width) :
    (doubleOf opc bw src dst).wellFormed := by
  have h : (src.wellFormed && dst.wellFormed) = true := by rw [hs, hd]; rfl
  unfold doubleOf
  split <;> exact h

/-- The decoder answers well-formed instructions only. -/
theorem wellFormed_decodeWords (w0 w1 w2 : Word) : (decodeWords w0 w1 w2).wellFormed := by
  rcases decodeWords_cases w0 w1 w2 with ⟨-, e⟩ | ⟨-, e⟩ | ⟨-, -, e⟩ <;> rw [e]
  · exact wellFormed_singleOf (srcOperand_spec _ _ _).1 _ _ _
  · exact wellFormed_jumpOf _ _
  · exact wellFormed_doubleOf (srcOperand_spec _ _ _).1 (dstOperand_spec _ _ _).1 _ _

/-- The extension words of what is decoded are the words after the first, in order (R72). -/
theorem extWords_decodeWords_prefix (w0 w1 w2 : Word) :
    extWords (decodeWords w0 w1 w2) <+: [w1, w2] := by
  rcases decodeWords_cases w0 w1 w2 with ⟨-, e⟩ | ⟨-, e⟩ | ⟨-, -, e⟩ <;> rw [e]
  · obtain ⟨-, -, hext⟩ := srcOperand_spec (field 0 4 w0) (field 4 2 w0) w1
    rw [decodeSingle, extWords_singleOf]
    rcases hext with h | h <;> simp [h]
  · rw [decodeJump, extWords_jumpOf]
    exact List.nil_prefix
  · obtain ⟨-, -, hsrc⟩ := srcOperand_spec (field 8 4 w0) (field 4 2 w0) w1
    obtain ⟨-, -, hdst⟩ := dstOperand_spec (field 0 4 w0) (field 7 1 w0) (dstWord w0 w1 w2)
    rw [decodeDouble_eq, extWords_doubleOf]
    unfold dstWord at hdst ⊢
    rcases hsrc with hs | hs <;> rcases hdst with hd | hd <;> simp [hs] at hd <;> simp [hs, hd]

/-- The encoding of what bytes decode to is their first words, as many as the width says. -/
theorem encode_decodeWords (bytes : List Byte) :
    ∃ n, instrWidth (decodeWords (wordAt bytes 0) (wordAt bytes 1) (wordAt bytes 2)) = 2 * n
      ∧ encode (decodeWords (wordAt bytes 0) (wordAt bytes 1) (wordAt bytes 2))
        = (List.range n).map (wordAt bytes) := by
  have hext := extWords_decodeWords_prefix (wordAt bytes 0) (wordAt bytes 1) (wordAt bytes 2)
  have hfirst := firstWord_decodeWords (wordAt bytes 0) (wordAt bytes 1) (wordAt bytes 2)
  generalize decodeWords (wordAt bytes 0) (wordAt bytes 1) (wordAt bytes 2) = i at hext hfirst ⊢
  have hwords : encode i <+: (List.range 3).map (wordAt bytes) := by
    rw [encode, hfirst]
    exact List.cons_prefix_cons.mpr ⟨rfl, hext⟩
  have hlen : (encode i).length ≤ 3 := hwords.length_le
  refine ⟨(encode i).length, ?_, ?_⟩
  · rw [← bytesOfWords_encode_length, bytesOfWords_length]
  · rw [List.prefix_iff_eq_take.mp hwords, ← List.map_take, List.take_range, List.length_map,
      List.length_range, Nat.min_eq_left hlen]

/-- When bytes decode, they are at least as many as the width and decode to their words (R76). -/
theorem decode_ok {bytes : List Byte} {i : Instr} (h : decode bytes = .ok i) :
    i = decodeWords (wordAt bytes 0) (wordAt bytes 1) (wordAt bytes 2)
      ∧ instrWidth i ≤ bytes.length := by
  unfold decode at h
  split at h
  · cases h
  · split at h
    · cases h
    · cases h
      refine ⟨rfl, ?_⟩
      rw [instrWidth_decodeWords]
      omega

/-- Settles O2: the encoded words are the bytes' own words, as many as the width says. -/
theorem encodingADecodedInstructionGivesItsBytesBack :
    Obligations.EncodingADecodedInstructionGivesItsBytesBack := by
  intro bytes i h
  obtain ⟨hi, hlen⟩ := decode_ok h
  obtain ⟨n, hwidth, henc⟩ := encode_decodeWords bytes
  rw [← hi] at hwidth henc
  refine ⟨hi ▸ wellFormed_decodeWords _ _ _, ?_, bytesOfWords_encode_length i⟩
  rw [henc, hwidth, bytesOfWords_map_wordAt (by omega)]

/-- A single-operand word decodes by its fields (R62). -/
theorem decodeWords_singleWord {src : SrcOperand} (hsrc : src.wellFormed) (opc pre : BitVec 3)
    (bw : Width) {x y : Word} (hext : srcExt src <+: [x, y]) :
    decodeWords (singleWord opc pre bw src) x y = singleOf opc pre bw src := by
  obtain ⟨hfamily, hpre, hopc, hbw, has, hreg⟩ := singleWord_fields opc pre bw src
  have hx : srcExt src = [] ∨ srcExt src = [x] := by
    cases src <;> simp_all [srcExt]
  simp [decodeWords, decodeSingle, hfamily, hpre, hopc, hbw, has, hreg,
    srcOperand_srcFields hsrc x hx]

/-- A double-operand word decodes by its fields (R65). -/
theorem decodeWords_doubleWord {src : SrcOperand} {dst : DstOperand} {opc : BitVec 4}
    (hopc : opc ∈ doubleOpcodes) (hwf : (src.wellFormed && dst.wellFormed) = true) (bw : Width)
    {x y : Word} (hext : srcExt src ++ dstExt dst <+: [x, y]) :
    decodeWords (doubleWord opc bw src dst) x y = doubleOf opc bw src dst := by
  obtain ⟨hsrc, hdst⟩ := Bool.and_eq_true_iff.mp hwf
  obtain ⟨hopcode, hsreg, had, hbw, has, hdreg⟩ := doubleWord_fields opc bw src dst
  have hfamily : ∀ n ∈ doubleOpcodes, 2 ≤ (n.extractLsb' 1 3).toNat := by decide
  have hx : srcExt src = [] ∨ srcExt src = [x] := by
    cases src <;> simp_all [srcExt]
  have hy : dstExt dst = [] ∨ dstExt dst = [if srcExt src = [] then x else y] := by
    cases dst <;> rcases hx with h | h <;> simp_all [dstExt]
  have hdecode : decodeWords (doubleWord opc bw src dst) x y
      = decodeDouble (doubleWord opc bw src dst) x y := by
    have h2 := hfamily opc hopc
    rw [← doubleWord_family opc bw src dst] at h2
    rcases decodeWords_cases (doubleWord opc bw src dst) x y with ⟨hf, -⟩ | ⟨hf, -⟩ | ⟨-, -, e⟩
    · simp [hf] at h2
    · simp [hf] at h2
    · exact e
  rw [hdecode, decodeDouble_eq, dstWord, hopcode, hsreg, had, hbw, has, hdreg,
    srcOperand_srcFields hsrc x hx, dstOperand_dstFields hdst _ hy, widthOfBit_bitOfWidth]

/-- Decoding an instruction's own words gives it back (R60 to R72). -/
theorem decodeWords_firstWord {i : Instr} (hwf : i.wellFormed) {x y : Word}
    (hext : extWords i <+: [x, y]) : decodeWords (firstWord i) x y = i := by
  cases i with
  | rrc pre bw src => exact decodeWords_singleWord hwf 0#3 pre bw hext
  | swpb pre bw src => exact decodeWords_singleWord hwf 1#3 pre bw hext
  | rra pre bw src => exact decodeWords_singleWord hwf 2#3 pre bw hext
  | sxt pre bw src => exact decodeWords_singleWord hwf 3#3 pre bw hext
  | push pre bw src => exact decodeWords_singleWord hwf 4#3 pre bw hext
  | call pre bw src => exact decodeWords_singleWord hwf 5#3 pre bw hext
  | reti pre bw src => exact decodeWords_singleWord hwf 6#3 pre bw hext
  | reserved7 pre bw src => exact decodeWords_singleWord hwf 7#3 pre bw hext
  | jne off => exact decodeWords_jumpWord 0#3 off x y
  | jeq off => exact decodeWords_jumpWord 1#3 off x y
  | jnc off => exact decodeWords_jumpWord 2#3 off x y
  | jc off => exact decodeWords_jumpWord 3#3 off x y
  | jn off => exact decodeWords_jumpWord 4#3 off x y
  | jge off => exact decodeWords_jumpWord 5#3 off x y
  | jl off => exact decodeWords_jumpWord 6#3 off x y
  | jmp off => exact decodeWords_jumpWord 7#3 off x y
  | mov bw src dst => exact decodeWords_doubleWord (opc := 4#4) (by decide) hwf bw hext
  | add bw src dst => exact decodeWords_doubleWord (opc := 5#4) (by decide) hwf bw hext
  | addc bw src dst => exact decodeWords_doubleWord (opc := 6#4) (by decide) hwf bw hext
  | subc bw src dst => exact decodeWords_doubleWord (opc := 7#4) (by decide) hwf bw hext
  | sub bw src dst => exact decodeWords_doubleWord (opc := 8#4) (by decide) hwf bw hext
  | cmp bw src dst => exact decodeWords_doubleWord (opc := 9#4) (by decide) hwf bw hext
  | dadd bw src dst => exact decodeWords_doubleWord (opc := 10#4) (by decide) hwf bw hext
  | bit bw src dst => exact decodeWords_doubleWord (opc := 11#4) (by decide) hwf bw hext
  | bic bw src dst => exact decodeWords_doubleWord (opc := 12#4) (by decide) hwf bw hext
  | bis bw src dst => exact decodeWords_doubleWord (opc := 13#4) (by decide) hwf bw hext
  | xor bw src dst => exact decodeWords_doubleWord (opc := 14#4) (by decide) hwf bw hext
  | and bw src dst => exact decodeWords_doubleWord (opc := 15#4) (by decide) hwf bw hext

theorem extWords_length_le (i : Instr) : (extWords i).length ≤ 2 := by
  have h := instrWidth_le i
  rw [instrWidth] at h
  omega

/-- The two words after an encoded instruction's first begin with its extension words. -/
theorem extWords_prefix_wordAt (i : Instr) (rest : List Byte) :
    extWords i <+: [wordAt (bytesOfWords (encode i) ++ rest) 1,
      wordAt (bytesOfWords (encode i) ++ rest) 2] := by
  have hword : ∀ k w, (extWords i)[k]? = some w →
      wordAt (bytesOfWords (encode i) ++ rest) (k + 1) = w := fun k w h =>
    wordAt_bytesOfWords (ws := encode i) h rest
  have hlen := extWords_length_le i
  match hext : extWords i, hlen with
  | [], _ => exact List.nil_prefix
  | [x], _ => simp [hword 0 x (by rw [hext]; rfl)]
  | [x, y], _ => simp [hword 0 x (by rw [hext]; rfl), hword 1 y (by rw [hext]; rfl)]

/-- Settles O1: the words of the encoding are read back, and an instruction's own words decode to it. -/
theorem decodingAnEncodedInstructionGivesItBack :
    Obligations.DecodingAnEncodedInstructionGivesItBack := by
  intro i rest hwf
  let bytes := bytesOfWords (encode i) ++ rest
  have hfirst : wordAt bytes 0 = firstWord i := wordAt_bytesOfWords rfl rest
  have hdecode := decodeWords_firstWord hwf (extWords_prefix_wordAt i rest)
  have hwidth : widthOfWord (firstWord i) = instrWidth i := by
    rw [← instrWidth_decodeWords, hdecode]
  have hlen : instrWidth i ≤ bytes.length := by
    rw [List.length_append, bytesOfWords_encode_length]
    exact Nat.le_add_right _ _
  have hge := instrWidth_ge i
  change decode bytes = _
  rw [decode, if_neg (by omega), hfirst, hwidth, if_neg (by omega), hdecode]

end Sys2Proof

/-! ## The instructions by the common part that runs them (R92, R120, R140, R160) -/

namespace Sys2Proof.Machine

/-- The eight jumps of one offset (R79). -/
def jumpForms (off : BitVec 10) : List Instr :=
  [.jne off, .jeq off, .jnc off, .jc off, .jn off, .jge off, .jl off, .jmp off]

/-- PUSH and CALL, each with its effective width (R93). -/
def stackForms (pre : BitVec 3) (bw : Width) (src : SrcOperand) : List (Instr × Width) :=
  [(.push pre bw src, bw), (.call pre bw src, .word)]

/-- The classes of instructions: those of one class are run by one common part. -/
inductive InstrClass (i : Instr) : Prop
  | writes (w : Width) (src : SrcOperand) (dst : DstOperand)
      (h : i ∈ Instr.mov w src dst :: computingForms w src dst)
  | compares (w : Width) (src : SrcOperand) (dst : DstOperand)
      (h : i ∈ [Instr.cmp w src dst, .bit w src dst])
  | rewrites (pre : BitVec 3) (bw w : Width) (src : SrcOperand)
      (h : (i, w) ∈ rewritingForms pre bw src)
  | pushes (pre : BitVec 3) (bw w : Width) (src : SrcOperand) (h : (i, w) ∈ stackForms pre bw src)
  | jumps (off : BitVec 10) (h : i ∈ jumpForms off)
  | stops (h : ∀ s, exec i s = .fault (.unsupported (firstWord i) s))

theorem instrClass (i : Instr) : InstrClass i := by
  cases i with
  | rrc pre bw src => exact .rewrites pre bw bw src (by simp [rewritingForms])
  | swpb pre bw src => exact .rewrites pre bw .word src (by simp [rewritingForms])
  | rra pre bw src => exact .rewrites pre bw bw src (by simp [rewritingForms])
  | sxt pre bw src => exact .rewrites pre bw .word src (by simp [rewritingForms])
  | push pre bw src => exact .pushes pre bw bw src (by simp [stackForms])
  | call pre bw src => exact .pushes pre bw .word src (by simp [stackForms])
  | reti pre bw src => exact .stops (exec_reti pre bw src)
  | reserved7 pre bw src => exact .stops (exec_reserved7 pre bw src)
  | jne off => exact .jumps off (by simp [jumpForms])
  | jeq off => exact .jumps off (by simp [jumpForms])
  | jnc off => exact .jumps off (by simp [jumpForms])
  | jc off => exact .jumps off (by simp [jumpForms])
  | jn off => exact .jumps off (by simp [jumpForms])
  | jge off => exact .jumps off (by simp [jumpForms])
  | jl off => exact .jumps off (by simp [jumpForms])
  | jmp off => exact .jumps off (by simp [jumpForms])
  | mov bw src dst => exact .writes bw src dst (by simp)
  | add bw src dst => exact .writes bw src dst (by simp [computingForms])
  | addc bw src dst => exact .writes bw src dst (by simp [computingForms])
  | subc bw src dst => exact .writes bw src dst (by simp [computingForms])
  | sub bw src dst => exact .writes bw src dst (by simp [computingForms])
  | cmp bw src dst => exact .compares bw src dst (by simp)
  | dadd bw src dst => exact .stops (exec_dadd bw src dst)
  | bit bw src dst => exact .compares bw src dst (by simp)
  | bic bw src dst => exact .writes bw src dst (by simp [computingForms])
  | bis bw src dst => exact .writes bw src dst (by simp [computingForms])
  | xor bw src dst => exact .writes bw src dst (by simp [computingForms])
  | and bw src dst => exact .writes bw src dst (by simp [computingForms])

section
variable {w bw : Width} {pre : BitVec 3} {off : BitVec 10} {src : SrcOperand} {dst : DstOperand}
  {i : Instr}

/-- An instruction that writes its destination runs `twoOperand` with its own computation; only MOV may
leave its destination unread (R103). -/
theorem exec_writingComputation {f : Word → Word → Flags → Alu}
    (h : (i, f) ∈ writingComputations w src dst) (s : State) :
    ∃ reads, (reads = false → f = aluMov) ∧
      exec i s = (twoOperand (firstWord i) reads true w src dst f s).outcome := by
  simp only [writingComputations, List.mem_cons, List.not_mem_nil, or_false, Prod.mk.injEq] at h
  rcases h with ⟨rfl, rfl⟩ | h
  · exact ⟨s.params.movReadsDst, fun _ => rfl, rfl⟩
  · refine ⟨true, nofun, ?_⟩
    rcases h with ⟨rfl, rfl⟩ | ⟨rfl, rfl⟩ | ⟨rfl, rfl⟩ | ⟨rfl, rfl⟩ | ⟨rfl, rfl⟩ | ⟨rfl, rfl⟩
      | ⟨rfl, rfl⟩ | ⟨rfl, rfl⟩ <;> rfl

theorem exists_writingComputation (h : i ∈ Instr.mov w src dst :: computingForms w src dst) :
    ∃ f, (i, f) ∈ writingComputations w src dst := by
  have hmap : (writingComputations w src dst).map Prod.fst
      = Instr.mov w src dst :: computingForms w src dst := rfl
  rw [← hmap] at h
  obtain ⟨⟨j, f⟩, hmem, rfl⟩ := List.mem_map.mp h
  exact ⟨f, hmem⟩

theorem exec_writing (h : i ∈ Instr.mov w src dst :: computingForms w src dst) (s : State) :
    ∃ reads f, exec i s = (twoOperand (firstWord i) reads true w src dst f s).outcome := by
  obtain ⟨f, hf⟩ := exists_writingComputation h
  obtain ⟨reads, -, e⟩ := exec_writingComputation hf s
  exact ⟨reads, f, e⟩

theorem exec_comparing (h : i ∈ [Instr.cmp w src dst, .bit w src dst]) (s : State) :
    ∃ f, exec i s = (twoOperand (firstWord i) true false w src dst f s).outcome := by
  rcases List.mem_pair.mp h with rfl | rfl
  · exact ⟨aluSub w, rfl⟩
  · exact ⟨aluAnd w, rfl⟩

/-- RRC, SWPB, RRA and SXT run `rewriteOperand` at their effective width (R93, R120). -/
theorem exec_rewritingComputation {p : Instr × Width × (Word → Flags → Alu)}
    (h : p ∈ rewritingComputations pre bw src) (s : State) :
    exec p.1 s = (rewriteOperand (firstWord p.1) pre p.2.1 src p.2.2 s).outcome := by
  simp only [rewritingComputations, List.mem_cons, List.not_mem_nil, or_false] at h
  rcases h with rfl | rfl | rfl | rfl <;> rfl

theorem exec_rewriting (h : (i, w) ∈ rewritingForms pre bw src) (s : State) :
    ∃ f, exec i s = (rewriteOperand (firstWord i) pre w src f s).outcome := by
  have hmap : (rewritingComputations pre bw src).map (fun p => (p.1, p.2.1))
      = rewritingForms pre bw src := rfl
  rw [← hmap] at h
  obtain ⟨p, hmem, hp⟩ := List.mem_map.mp h
  cases hp
  exact ⟨p.2.2, exec_rewritingComputation hmem s⟩

theorem exec_push (pre : BitVec 3) (w : Width) (src : SrcOperand) (s : State) :
    exec (.push pre w src) s
      = ((singleOperand (firstWord (.push pre w src)) pre w src s).andThen fun v s1 =>
          pushValue w v s1).outcome := rfl

theorem exec_call (pre : BitVec 3) (bw : Width) (src : SrcOperand) (s : State) :
    exec (.call pre bw src) s
      = ((singleOperand (firstWord (.call pre bw src)) pre .word src s).andThen fun v s1 =>
          (pushValue .word s1.regs.pc s1).andThen fun _ s2 => .ok () (s2.setReg .pc v)).outcome := rfl

theorem exec_jumping (h : i ∈ jumpForms off) (s : State) :
    ∃ taken, exec i s = jumpIf taken off s := by
  simp only [jumpForms, List.mem_cons, List.not_mem_nil, or_false] at h
  rcases h with rfl | rfl | rfl | rfl | rfl | rfl | rfl | rfl <;> exact ⟨_, rfl⟩

/-- A jump writes no register but the PC. -/
theorem exec_jumping_next (h : i ∈ jumpForms off) {s t : State} (ht : exec i s = .next t) :
    t = s ∨ ∃ v, t = s.setReg .pc v := by
  obtain ⟨taken, e⟩ := exec_jumping h s
  rw [e, jumpIf] at ht
  cases ht
  cases taken
  · exact .inl rfl
  · exact .inr ⟨_, rfl⟩

end

/-! ## What every step keeps: the bindings, the parameters and the canonical memory (R7, R41, R47) -/

/-- `t` has the bindings of `s`, and its memory is canonical if that of `s` is. -/
structure Lawful (s t : State) : Prop where
  bindings : SameBindings s t
  wf : Memory.wf s.mem → Memory.wf t.mem

theorem Lawful.refl (s : State) : Lawful s s := ⟨SameBindings.refl s, id⟩

theorem Lawful.trans {s t u : State} (h : Lawful s t) (k : Lawful t u) : Lawful s u :=
  ⟨h.bindings.trans k.bindings, k.wf ∘ h.wf⟩

theorem Asked.lawful {s t : State} (h : Asked s t) : Lawful s t := by
  obtain ⟨-, hb, -, -, hm⟩ := h
  exact ⟨hb, hm⟩

theorem lawful_setReg (s : State) (r : Reg) (v : Word) : Lawful s (s.setReg r v) :=
  ⟨SameBindings.refl s, id⟩

theorem lawful_setFlags (s : State) (f : Flags) : Lawful s (s.setFlags f) := lawful_setReg s .sr _

theorem lawful_postIncrement (o : SrcOperand) (w : Width) (s : State) :
    Lawful s (postIncrement o w s) := by
  cases o <;> exact ⟨SameBindings.refl s, id⟩

theorem lawful_putStored (s : State) (w : Width) (a v : Word) : Lawful s (s.putStored w a v) :=
  ⟨by simp [SameBindings], State.wf_putStored w a v⟩

theorem StoredAt.lawful {w : Width} {a : Word} {s t : State} (h : StoredAt w a s t) :
    Lawful s t := by
  obtain ⟨s1, h1, rfl | ⟨x, rfl⟩⟩ := h
  · exact h1.lawful
  · exact h1.lawful.trans (lawful_putStored s1 w a x)

theorem Lawful.inv {s t : State} (h : Lawful s t) (hi : s.Inv) : t.Inv := by
  obtain ⟨⟨hc, hr, hw, -, -⟩, hm⟩ := h
  obtain ⟨i1, i2, i3, i4⟩ := hi
  exact ⟨hm i1, by rwa [hr], by rwa [hw], by rwa [hc]⟩

/-- The codes of BadOperand, AddressTooHigh, AddressUnaligned and Unsupported (R191). -/
def blockCodes : List (Option Nat) := [some 2, some 3, some 4, some 5]

/-- A fault a step from `s` may end with: never TooShort, one of the block's own where no hook is bound,
and the state it leaves is lawful. -/
structure StepFault (s : State) (f : Fault) : Prop where
  lawful : Lawful s f.left
  notTooShort : f.code ≠ some 1
  blockCode : s.env.readHooks = [] → s.env.writeHooks = [] → f.code ∈ blockCodes

theorem Lawful.stepFault {s t : State} {f : Fault} (h : Lawful s t) (k : StepFault t f) :
    StepFault s f := by
  obtain ⟨kl, k1, kc⟩ := k
  obtain ⟨-, hr, hw, -, -⟩ := h.bindings
  exact ⟨h.trans kl, k1, fun er ew => kc (hr.trans er) (hw.trans ew)⟩

/-- One of the block's own faults, in a lawful state. -/
theorem stepFault_of_code {s : State} {f : Fault} (hl : Lawful s f.left) (hc : f.code ∈ blockCodes) :
    StepFault s f :=
  ⟨hl, fun h => by rw [h] at hc; exact absurd hc (by decide), fun _ _ => hc⟩

/-- A fault of an asked hook, in the state it was asked in. -/
theorem stepFault_of_hook {s : State} {f : Fault} (hl : Lawful s f.left) (h1 : f.code ≠ some 1)
    {a : Word} (hb : s.env.hooksLoad a = true ∨ s.env.hooksStore a = true) : StepFault s f := by
  refine ⟨hl, h1, fun hr hw => ?_⟩
  simp [Env.hooksLoad, Env.hooksStore, hr, hw] at hb

/-- An operation begun in `s` ends lawfully. -/
def Res.LawfulFrom {α : Type} (s : State) (r : Res α) : Prop :=
  match r with
  | .ok _ t => Lawful s t
  | .fault f => StepFault s f

theorem Res.LawfulFrom.trans {α : Type} {s t : State} {r : Res α} (h : Lawful s t)
    (k : r.LawfulFrom t) : r.LawfulFrom s := by
  cases r with
  | ok a u => exact h.trans k
  | fault f => exact h.stepFault k

theorem Res.LawfulFrom.andThen {α β : Type} {s : State} {r : Res α} {g : α → State → Res β}
    (h : r.LawfulFrom s) (k : ∀ a t, (g a t).LawfulFrom t) : (r.andThen g).LawfulFrom s := by
  cases r with
  | ok a t => exact (k a t).trans h
  | fault f => exact h

/-- The faults of an access guard (R44). -/
theorem accessGuard_cases {p : Params} {w : Width} {a : Word} {f : State → Fault}
    (h : accessGuard p w a = some f) : f = Fault.addressUnaligned a ∨ f = Fault.addressTooHigh a := by
  cases w with
  | byte => cases h
  | word =>
    unfold accessGuard at h
    dsimp only at h
    split at h
    · exact .inl (Option.some.inj h).symm
    · split at h
      · exact .inr (Option.some.inj h).symm
      · cases h

/-- The faults of a fetch guard (R45). -/
theorem fetchGuardAt_cases {p : Params} {a : Word} {f : State → Fault}
    (h : fetchGuardAt p a = some f) : f = Fault.addressUnaligned a ∨ f = Fault.addressTooHigh a := by
  unfold fetchGuardAt at h
  split at h
  · exact .inr (Option.some.inj h).symm
  · split at h
    · exact .inl (Option.some.inj h).symm
    · cases h

/-- A guard's fault leaves the state it finds, with a code of the block's own. -/
theorem stepFault_of_guard {a : Word} {f : State → Fault}
    (h : f = Fault.addressUnaligned a ∨ f = Fault.addressTooHigh a) (s : State) :
    StepFault s (f s) := by
  rcases h with rfl | rfl <;> exact stepFault_of_code (Lawful.refl s) (List.mem_of_elem_eq_true rfl)

theorem lawful_flatLoad (w : Width) (a : Word) (s : State) : (flatLoad w a s).LawfulFrom s := by
  obtain ⟨v, t, e, h⟩ := flatLoad_ok w a s
  rw [e]
  exact h.lawful

theorem lawful_load (w : Width) (a : Word) (s : State) : (load w a s).LawfulFrom s := by
  rcases load_cases w a s with ⟨f, hg, e⟩ | ⟨-, -, e⟩ | ⟨-, hb, ⟨v, l, -, e⟩ | ⟨x, l, -, e⟩ | ⟨l, -, e⟩⟩
    <;> rw [e]
  · exact stepFault_of_guard (accessGuard_cases hg) s
  · exact lawful_flatLoad w a s
  · exact (asked_sent s _).lawful
  · exact (lawful_flatLoad w a _).trans (asked_sent s _).lawful
  · exact stepFault_of_hook (asked_sent s _).lawful (by simp [Fault.code]) (.inl hb)

theorem lawful_store (w : Width) (a v : Word) (s : State) : (store w a v s).LawfulFrom s := by
  rcases store_cases w a v s with ⟨f, hg, e⟩ | ⟨-, -, e⟩
    | ⟨-, hb, ⟨x, l, -, e⟩ | ⟨x, l, -, e⟩ | ⟨l, -, e⟩⟩
    <;> rw [e]
  · exact stepFault_of_guard (accessGuard_cases hg) s
  · obtain ⟨t, e', h⟩ := flatStore_ok w a v s
    rw [e']
    exact h.lawful
  · exact (asked_sent s _).lawful
  · exact stepFault_of_hook (asked_sent s _).lawful (by simp [Fault.code]) (.inr hb)
  · exact stepFault_of_hook (asked_sent s _).lawful (by simp [Fault.code]) (.inr hb)

theorem lawful_flatFetch (a : Word) (s : State) : (flatFetch a s).LawfulFrom s := by
  obtain ⟨bytes, t, e, -, h⟩ := flatFetch_ok a s
  rw [e]
  exact h.lawful

theorem lawful_fetch6 (a : Word) (s : State) : (fetch6 a s).LawfulFrom s := by
  rcases fetch6_cases a s with ⟨f, hg, e⟩ | ⟨-, -, e⟩ | ⟨-, hb, ⟨v, l, -, e⟩ | ⟨x, l, -, e⟩ | ⟨l, -, e⟩⟩
    <;> rw [e]
  · exact stepFault_of_guard (fetchGuardAt_cases hg) s
  · exact lawful_flatFetch a s
  · exact (asked_sent s _).lawful
  · exact (lawful_flatFetch a _).trans (asked_sent s _).lawful
  · exact stepFault_of_hook (asked_sent s _).lawful (by simp [Fault.code])
      (.inl (Bool.and_eq_true_iff.mp hb).2)

theorem lawful_readLoc (l : Loc) (w : Width) (s : State) : (readLoc l w s).LawfulFrom s := by
  cases l with
  | reg r => exact Lawful.refl s
  | mem ea => exact lawful_load w ea s
  | noLoc k => exact Lawful.refl s

theorem lawful_readDst (reads : Bool) (l : Loc) (w : Width) (s : State) :
    (readDst reads l w s).LawfulFrom s := by
  cases reads
  · exact Lawful.refl s
  · exact lawful_readLoc l w s

theorem lawful_readSrc (o : SrcOperand) (w : Width) (s : State) : (readSrc o w s).LawfulFrom s :=
  (lawful_readLoc _ w s).andThen fun _ t => lawful_postIncrement o w t

theorem lawful_writeLoc (w0 : Word) (l : Loc) (w : Width) (v : Word) (s : State) :
    (writeLoc w0 l w v s).LawfulFrom s := by
  cases l with
  | reg r => exact lawful_setReg s r _
  | mem ea => exact lawful_store w ea _ s
  | noLoc k => exact stepFault_of_code (Lawful.refl s) (List.mem_of_elem_eq_true rfl)

theorem stepFault_unsupported (w0 : Word) (s : State) : StepFault s (.unsupported w0 s) :=
  stepFault_of_code (Lawful.refl s) (List.mem_of_elem_eq_true rfl)

theorem lawful_singleOperand (w0 : Word) (pre : BitVec 3) (w : Width) (o : SrcOperand) (s : State) :
    (singleOperand w0 pre w o s).LawfulFrom s := by
  unfold singleOperand
  split
  · exact stepFault_unsupported w0 s
  · exact lawful_readSrc o w s

theorem lawful_rewriteOperand (w0 : Word) (pre : BitVec 3) (w : Width) (o : SrcOperand)
    (f : Word → Flags → Alu) (s : State) : (rewriteOperand w0 pre w o f s).LawfulFrom s :=
  (lawful_singleOperand w0 pre w o s).andThen fun _ t =>
    (lawful_writeLoc w0 _ w _ _).trans (lawful_setFlags t _)

theorem lawful_pushValue (w : Width) (v : Word) (s : State) : (pushValue w v s).LawfulFrom s :=
  (lawful_store w _ v _).trans (lawful_setReg s .sp _)

theorem lawful_twoOperand (w0 : Word) (reads writes : Bool) (w : Width) (src : SrcOperand)
    (dst : DstOperand) (f : Word → Word → Flags → Alu) (s : State) :
    (twoOperand w0 reads writes w src dst f s).LawfulFrom s := by
  refine (lawful_readSrc src w s).andThen fun v s1 => (lawful_readDst _ _ w s1).andThen fun d s2 => ?_
  cases writes
  · exact lawful_setFlags s2 _
  · exact (lawful_writeLoc w0 _ w _ _).trans (lawful_setFlags s2 _)

/-- An instruction or a step begun in `s` ends lawfully, and is not refused. -/
def OutcomeLawful (s : State) (o : Host.Outcome State Fault Refusal) : Prop :=
  match o with
  | .next t => Lawful s t
  | .fault f => StepFault s f
  | .refused _ => False

theorem Res.LawfulFrom.outcome {s : State} {r : Res Unit} (h : r.LawfulFrom s) :
    OutcomeLawful s r.outcome := by
  cases r <;> exact h

theorem OutcomeLawful.trans {s t : State} {o : Host.Outcome State Fault Refusal} (h : Lawful s t)
    (k : OutcomeLawful t o) : OutcomeLawful s o := by
  cases o with
  | next u => exact h.trans k
  | fault f => exact h.stepFault k
  | refused r => exact k

theorem exec_lawful (i : Instr) (s : State) : OutcomeLawful s (exec i s) := by
  cases instrClass i with
  | writes w src dst h =>
    obtain ⟨reads, f, e⟩ := exec_writing h s
    rw [e]
    exact (lawful_twoOperand ..).outcome
  | compares w src dst h =>
    obtain ⟨f, e⟩ := exec_comparing h s
    rw [e]
    exact (lawful_twoOperand ..).outcome
  | rewrites pre bw w src h =>
    obtain ⟨f, e⟩ := exec_rewriting h s
    rw [e]
    exact (lawful_rewriteOperand ..).outcome
  | pushes pre bw w src h =>
    rcases List.mem_pair.mp h with h | h <;> cases h
    · rw [exec_push]
      exact ((lawful_singleOperand ..).andThen fun v s1 => lawful_pushValue _ v s1).outcome
    · rw [exec_call]
      refine Res.LawfulFrom.outcome ((lawful_singleOperand ..).andThen fun v s1 =>
        (lawful_pushValue ..).andThen fun _ s2 => ?_)
      exact lawful_setReg s2 .pc v
  | jumps off h =>
    obtain ⟨taken, e⟩ := exec_jumping h s
    rw [e]
    cases taken
    · exact Lawful.refl s
    · exact lawful_setReg s .pc _
  | stops h =>
    rw [h s]
    exact stepFault_unsupported _ s

/-- What every step does, whether it completes or faults. -/
theorem step_lawful (s : State) : OutcomeLawful s (step s) := by
  rcases step_cases s with ⟨f, hf, e⟩ | ⟨i, t, ht, e⟩ <;> rw [e]
  · obtain ⟨h6, -⟩ := fetchInstr_fault hf
    have h := lawful_fetch6 s.regs.pc s
    rw [h6] at h
    exact h
  · obtain ⟨bytes, s1, -, -, ha, rfl⟩ := fetchInstr_ok ht
    exact (exec_lawful i _).trans (ha.lawful.trans (lawful_setReg s1 .pc _))

theorem step_next_lawful {s t : State} (h : step s = .next t) : Lawful s t := by
  have hs := step_lawful s
  rwa [h] at hs

theorem step_fault_stepFault {s : State} {f : Fault} (h : step s = .fault f) : StepFault s f := by
  have hs := step_lawful s
  rwa [h] at hs

/-- Settles O55: a step is lawful, and what is lawful keeps the invariant. -/
theorem everyStepKeepsTheInvariant : Obligations.EveryStepKeepsTheInvariant := by
  intro s hi
  exact ⟨fun t h => (step_next_lawful h).inv hi, fun f h => (step_fault_stepFault h).lawful.inv hi⟩

/-- Settles O57: a step is lawful, and what is lawful has the bindings it began with. -/
theorem noStepChangesParametersOrBindings : Obligations.NoStepChangesParametersOrBindings := by
  intro s
  exact ⟨fun t h => (step_next_lawful h).bindings, fun f h => (step_fault_stepFault h).lawful.bindings⟩

/-- Settles O8: no outcome of a step is a refusal, and its fault is a `StepFault`. -/
theorem everyStepCompletesOrFaults : Obligations.EveryStepCompletesOrFaults := by
  intro s
  refine ⟨?_, fun hr hw f h => ?_⟩
  · have hs := step_lawful s
    cases h : step s with
    | next t => exact .inl ⟨t, rfl⟩
    | fault f => exact .inr ⟨f, rfl, (step_fault_stepFault h).notTooShort⟩
    | refused r => rw [h] at hs; exact hs.elim
  · exact (step_fault_stepFault h).blockCode hr hw

end Sys2Proof.Machine

/-! ## Frames: the bytes, the registers and the SR bits an instruction keeps -/

namespace Sys2Proof.Machine

/-- No byte outside `B` has changed from `s` to `t` unless a hook was asked on the way (R49). -/
structure BytesKept (B : Word → Prop) (s t : State) : Prop where
  requests : s.env.requests <+: t.env.requests
  bytes : t.env.requests = s.env.requests → ∀ b, ¬ B b → t.byteAt b = s.byteAt b

theorem BytesKept.refl (B : Word → Prop) (s : State) : BytesKept B s s :=
  ⟨List.prefix_refl _, fun _ _ _ => rfl⟩

/-- Requests are only added, so none at the end means none in either part. -/
theorem BytesKept.trans {B : Word → Prop} {s t u : State} (h : BytesKept B s t)
    (k : BytesKept B t u) : BytesKept B s u := by
  obtain ⟨h1, h2⟩ := h
  obtain ⟨k1, k2⟩ := k
  refine ⟨h1.trans k1, fun e b hb => ?_⟩
  have ht : t.env.requests = s.env.requests :=
    (h1.eq_of_length (le_antisymm h1.length_le (by rw [← e]; exact k1.length_le))).symm
  rw [k2 (e.trans ht.symm) b hb, h2 ht b hb]

theorem Asked.bytesKept {s t : State} (h : Asked s t) (B : Word → Prop) : BytesKept B s t := by
  obtain ⟨-, -, hpre, hmem, -⟩ := h
  exact ⟨hpre, fun e b _ => by rw [State.byteAt, hmem e, State.byteAt]⟩

theorem bytesKept_setReg (B : Word → Prop) (s : State) (r : Reg) (v : Word) :
    BytesKept B s (s.setReg r v) := ⟨List.prefix_refl _, fun _ _ _ => rfl⟩

theorem bytesKept_setFlags (B : Word → Prop) (s : State) (f : Flags) :
    BytesKept B s (s.setFlags f) := bytesKept_setReg B s .sr _

theorem bytesKept_postIncrement (B : Word → Prop) (o : SrcOperand) (w : Width) (s : State) :
    BytesKept B s (postIncrement o w s) := by
  cases o <;> exact ⟨List.prefix_refl _, fun _ _ _ => rfl⟩

/-- A store changes no byte but those it covers (R42). -/
theorem byteAt_putStored_other {w : Width} {a b : Word} (s : State) (v : Word)
    (h : ¬ Covers w a b) : (s.putStored w a v).byteAt b = s.byteAt b := by
  cases w with
  | byte => exact State.byteAt_setByte_other s _ h
  | word =>
    obtain ⟨h0, h1⟩ := not_or.mp h
    exact (State.byteAt_setByte_other _ _ h1).trans (State.byteAt_setByte_other s _ h0)

theorem StoredAt.bytesKept {w : Width} {a : Word} {s t : State} (h : StoredAt w a s t) :
    BytesKept (Covers w a) s t := by
  obtain ⟨s1, h1, rfl | ⟨x, rfl⟩⟩ := h
  · exact h1.bytesKept _
  · refine (h1.bytesKept _).trans ⟨by simp, fun _ b hb => byteAt_putStored_other s1 x hb⟩

theorem StoredAt.regs {w : Width} {a : Word} {s t : State} (h : StoredAt w a s t) :
    t.regs = s.regs := by
  obtain ⟨s1, h1, rfl | ⟨x, rfl⟩⟩ := h
  · exact h1.1
  · rw [State.putStored_regs, h1.1]

theorem Asked.reg {s t : State} (h : Asked s t) (r : Reg) : t.reg r = s.reg r := by
  rw [State.reg, h.1, State.reg]

theorem incrementOf_self (w : Width) (r : Reg) : incrementOf (.indirectInc r) w r = size w :=
  if_pos rfl

theorem incrementOf_other {src : SrcOperand} {r : Reg} (h : src ≠ .indirectInc r) (w : Width) :
    incrementOf src w r = 0#16 := if_neg h

/-- A post-increment adds `incrementOf` to every register (R99). -/
theorem postIncrement_reg (o : SrcOperand) (w : Width) (s : State) (r : Reg) :
    (postIncrement o w s).reg r = s.reg r + incrementOf o w r := by
  by_cases h : o = .indirectInc r
  · subst h
    rw [incrementOf_self]
    exact State.reg_setReg_same ..
  · rw [postIncrement_reg_other w s h, incrementOf_other h]
    exact (BitVec.add_zero _).symm

theorem srcRegister_eq_some {o : SrcOperand} {r : Reg} : srcRegister o = some r ↔ o = .reg r := by
  cases o <;> simp [srcRegister]

theorem dstRegister_eq_some {o : DstOperand} {r : Reg} : dstRegister o = some r ↔ o = .reg r := by
  cases o <;> simp [dstRegister]

/-- Address `b` is one of the bytes of an operand of width `w` at `l`. -/
def InLoc (w : Width) (l : Loc) (b : Word) : Prop := ∃ a, l = .mem a ∧ Covers w a b

/-- `t` is `s` but for the post-increment of `src`, the register `dest`, the flags and the bytes of `B`. -/
structure Frame (dest : Option Reg) (src : SrcOperand) (w : Width) (B : Word → Prop)
    (s t : State) : Prop where
  regs : ∀ r, r ≠ .sr → dest ≠ some r → t.reg r = s.reg r + incrementOf src w r
  srBits : dest ≠ some .sr → src ≠ .indirectInc .sr → ∀ k, k ∉ [0, 1, 2, 8] →
    t.regs.sr.getLsbD k = s.regs.sr.getLsbD k
  bytes : BytesKept B s t

section
variable {src : SrcOperand} {dst : DstOperand} {w bw : Width} {pre : BitVec 3} {s t s2 : State}
  {B : Word → Prop} {i : Instr}

/-- The operands read and the flags written, nothing stored yet. -/
theorem frame_setFlags (h : Asked (postIncrement src w s) s2) (f : Flags) (B : Word → Prop) :
    Frame none src w B s (s2.setFlags f) := by
  refine ⟨fun r hr _ => ?_, fun _ hsr k hk => ?_, ?_⟩
  · rw [State.setFlags_reg_other _ _ hr, h.reg, postIncrement_reg]
  · simp only [List.mem_cons, List.not_mem_nil, or_false, not_or] at hk
    obtain ⟨h0, h1, h2, h8⟩ := hk
    have hbase : s2.reg .sr = s.reg .sr := by rw [h.reg, postIncrement_reg_other w s hsr]
    exact (withFlags_getLsbD_other f _ h0 h1 h2 h8).trans (congrArg (·.getLsbD k) hbase)
  · exact ((bytesKept_postIncrement B src w s).trans (h.bytesKept B)).trans
      (bytesKept_setFlags B s2 f)

/-- Writing a register keeps the frame of every other. -/
theorem Frame.setReg (h : Frame none src w B s t) (r : Reg) (v : Word) :
    Frame (some r) src w B s (t.setReg r v) := by
  obtain ⟨hregs, hbits, hbytes⟩ := h
  refine ⟨fun q hq hr => ?_, fun hr hsr k hk => ?_, hbytes.trans (bytesKept_setReg B t r v)⟩
  · rw [State.reg_setReg_other t v (fun e => hr (congrArg some e.symm))]
    exact hregs q hq nofun
  · have hsame : (t.setReg r v).reg .sr = t.reg .sr :=
      State.reg_setReg_other t v (fun e => hr (congrArg some e.symm))
    exact (congrArg (·.getLsbD k) hsame).trans (hbits nofun hsr k hk)

/-- A store keeps the registers of the frame. -/
theorem Frame.storedAt (h : Frame none src w B s s2) {a : Word} (k : StoredAt w a s2 t)
    (hB : Covers w a = B) : Frame none src w B s t := by
  obtain ⟨hregs, hbits, hbytes⟩ := h
  refine ⟨fun r hr hd => ?_, fun hd hsr n hn => ?_, hbytes.trans (hB ▸ k.bytesKept)⟩
  · rw [State.reg, k.regs]
    exact hregs r hr hd
  · rw [k.regs]
    exact hbits hd hsr n hn

/-- The register a location is. -/
def locRegister : Loc → Option Reg
  | .reg r => some r
  | .mem _ => none
  | .noLoc _ => none

theorem locRegister_srcLoc (o : SrcOperand) (s : State) :
    locRegister (srcLoc o s) = srcRegister o := by cases o <;> rfl

theorem locRegister_locateDst (o : DstOperand) (s : State) :
    locRegister (locateDst o s) = dstRegister o := by cases o <;> rfl

/-- Writing the result keeps every register but its location. -/
theorem writeLoc_reg_other {w0 v : Word} {l : Loc} {r : Reg} (h : writeLoc w0 l w v s = .ok () t)
    (hl : locRegister l ≠ some r) : t.reg r = s.reg r := by
  rcases writeLoc_ok h with ⟨q, rfl, rfl⟩ | ⟨ea, -, hst⟩
  · exact State.reg_setReg_other s _ fun e => hl (congrArg some e.symm)
  · rw [State.reg, hst.regs, State.reg]

/-- Writing the result keeps the frame of everything but its location. -/
theorem Frame.writeLoc {l : Loc} (h : Frame none src w (InLoc w l) s s2) {w0 v : Word}
    (k : writeLoc w0 l w v s2 = .ok () t) : Frame (locRegister l) src w (InLoc w l) s t := by
  rcases writeLoc_ok k with ⟨r, rfl, rfl⟩ | ⟨ea, rfl, hst⟩
  · exact h.setReg r _
  · exact h.storedAt hst (by funext b; simp [InLoc])

theorem frame_writing (h : i ∈ Instr.mov w src dst :: computingForms w src dst)
    (ht : exec i s = .next t) :
    Frame (dstRegister dst) src w (InLoc w (dstLoc w src dst s)) s t := by
  obtain ⟨reads, f, e⟩ := exec_writing h s
  rw [e, Res.outcome_next] at ht
  obtain ⟨v, d, s2, ha, ⟨-, hw⟩ | ⟨hfalse, -⟩⟩ := twoOperand_ok ht
  · rw [← locRegister_locateDst dst (postIncrement src w s)]
    exact (frame_setFlags ha _ _).writeLoc hw
  · cases hfalse

theorem frame_comparing (h : i ∈ [Instr.cmp w src dst, .bit w src dst]) (ht : exec i s = .next t) :
    Frame none src w (fun _ => False) s t := by
  obtain ⟨f, e⟩ := exec_comparing h s
  rw [e, Res.outcome_next] at ht
  obtain ⟨v, d, s2, ha, ⟨htrue, -⟩ | ⟨-, rfl⟩⟩ := twoOperand_ok ht
  · cases htrue
  · exact frame_setFlags ha _ _

theorem frame_rewriting (h : (i, w) ∈ rewritingForms pre bw src) (ht : exec i s = .next t) :
    Frame (srcRegister src) src w (InLoc w (srcLoc src s)) s t := by
  obtain ⟨f, e⟩ := exec_rewriting h s
  rw [e, Res.outcome_next] at ht
  obtain ⟨v, s1, ha, hw⟩ := rewriteOperand_ok ht
  rw [← locRegister_srcLoc src s]
  exact (frame_setFlags (postIncrement_asked ha) _ _).writeLoc hw

/-- The frame's registers, in the two cases of the post-increment (R99). -/
theorem Frame.reg_other {dest : Option Reg} (h : Frame dest src w B s t) {r : Reg} (hr : r ≠ .sr)
    (hd : dest ≠ some r) (hsrc : src ≠ .indirectInc r) : t.reg r = s.reg r := by
  rw [h.regs r hr hd, incrementOf_other hsrc]
  exact BitVec.add_zero _

theorem Frame.reg_incremented {dest : Option Reg} (h : Frame dest src w B s t) {r : Reg}
    (hr : r ≠ .sr) (hd : dest ≠ some r) (hsrc : src = .indirectInc r) :
    t.reg r = s.reg r + size w := by
  rw [h.regs r hr hd, hsrc, incrementOf_self]

/-- The bytes outside an operand's location: all but those covered, or all. -/
theorem Frame.bytes_outside {dest : Option Reg} {l : Loc} (h : Frame dest src w (InLoc w l) s t)
    (he : t.env.requests = s.env.requests) :
    (∀ a, l = .mem a → ∀ b, ¬ Covers w a b → t.byteAt b = s.byteAt b)
      ∧ ((∀ a, l ≠ .mem a) → ∀ b, t.byteAt b = s.byteAt b) := by
  refine ⟨fun a hl b hb => h.bytes.bytes he b ?_, fun hl b => h.bytes.bytes he b ?_⟩
  · rintro ⟨a', hl', hb'⟩
    cases hl.symm.trans hl'
    exact hb hb'
  · rintro ⟨a', hl', -⟩
    exact hl a' hl'

end

/-- Settles O36: the frame of the common part, which writes the destination's location only. -/
theorem writingDoubleOperandFrame : Obligations.WritingDoubleOperandFrame := by
  intro w src dst s t i hi ht
  have h := frame_writing hi ht
  exact ⟨fun r hr hd hsrc => h.reg_other hr (dstRegister_eq_some.not.mpr hd) hsrc,
    fun r hr hd hsrc => h.reg_incremented hr (dstRegister_eq_some.not.mpr hd) hsrc,
    fun hd => h.srBits (dstRegister_eq_some.not.mpr hd), h.bytes_outside⟩

/-- Settles O37: the frame of the common part that writes no location. -/
theorem comparingDoubleOperandFrame : Obligations.ComparingDoubleOperandFrame := by
  intro w src dst s t i hi ht
  have h := frame_comparing hi ht
  exact ⟨fun r hr => h.reg_other hr nofun, fun r hr => h.reg_incremented hr nofun,
    h.srBits nofun, fun he b => h.bytes.bytes he b id⟩

/-- Settles O38: the frame of the common part, which writes the operand's own location only. -/
theorem rewritingSingleOperandFrame : Obligations.RewritingSingleOperandFrame := by
  intro pre bw src s t p hp ht
  have h := frame_rewriting hp ht
  exact ⟨fun r hr hd hsrc => h.reg_other hr (srcRegister_eq_some.not.mpr hd) hsrc,
    fun r hr hsrc => h.reg_incremented hr (by rw [hsrc]; nofun) hsrc,
    fun hd => h.srBits (srcRegister_eq_some.not.mpr hd), h.bytes_outside⟩

/-- `t` is `s` after the post-increment of `src` and a push of width `w`: SP has gone down by 2, the other
registers of `R` and SR are kept whole, and only the bytes at SP may have changed (R22, R125, R126). -/
structure StackFrame (R : Reg → Prop) (src : SrcOperand) (w : Width) (s t : State) : Prop where
  sp : t.reg .sp = (postIncrement src w s).reg .sp - 2#16
  regs : ∀ r, r ≠ .sp → R r → t.reg r = s.reg r + incrementOf src w r
  bytes : BytesKept (Covers w ((postIncrement src w s).reg .sp - 2#16)) s t

section
variable {src : SrcOperand} {w bw : Width} {pre : BitVec 3} {s t u : State} {i : Instr}

theorem stackFrame_pushValue (h : Asked (postIncrement src w s) u) {v : Word}
    (k : pushValue w v u = .ok () t) : StackFrame (fun _ => True) src w s t := by
  have hst := pushValue_ok k
  have hsp : u.reg .sp = (postIncrement src w s).reg .sp := h.reg .sp
  have hreg : ∀ r, t.reg r = (u.setReg .sp (u.reg .sp - 2#16)).reg r := fun r => by
    rw [State.reg, hst.regs]
    rfl
  refine ⟨?_, fun r hr _ => ?_, ?_⟩
  · rw [hreg, State.reg_setReg_same, hsp]
  · rw [hreg, State.reg_setReg_other u _ hr, h.reg, postIncrement_reg]
  · rw [← hsp]
    exact (((bytesKept_postIncrement _ src w s).trans (h.bytesKept _)).trans
      (bytesKept_setReg _ u .sp _)).trans hst.bytesKept

theorem StackFrame.setPc (h : StackFrame (fun _ => True) src w s t) (v : Word) :
    StackFrame (· ≠ .pc) src w s (t.setReg .pc v) := by
  obtain ⟨hsp, hregs, hbytes⟩ := h
  exact ⟨hsp, fun r hr hpc => (State.reg_setReg_other t v hpc).trans (hregs r hr trivial),
    hbytes.trans (bytesKept_setReg _ t .pc v)⟩

theorem stackFrame_push (ht : exec (.push pre w src) s = .next t) :
    StackFrame (fun _ => True) src w s t := by
  rw [exec_push, Res.outcome_next] at ht
  obtain ⟨v, s2, h1, h2⟩ := Res.andThen_ok ht
  obtain ⟨s1, ha, rfl⟩ := singleOperand_ok h1
  exact stackFrame_pushValue (postIncrement_asked ha) h2

theorem stackFrame_call (ht : exec (.call pre bw src) s = .next t) :
    StackFrame (· ≠ .pc) src .word s t := by
  rw [exec_call, Res.outcome_next] at ht
  obtain ⟨v, s2, h1, h2⟩ := Res.andThen_ok ht
  obtain ⟨s1, ha, rfl⟩ := singleOperand_ok h1
  obtain ⟨_, s3, h3, h4⟩ := Res.andThen_ok h2
  cases h4
  exact (stackFrame_pushValue (postIncrement_asked ha) h3).setPc v

theorem StackFrame.mono {R R' : Reg → Prop} (h : StackFrame R src w s t) (hR : ∀ r, R' r → R r) :
    StackFrame R' src w s t :=
  ⟨h.sp, fun r hr hr' => h.regs r hr (hR r hr'), h.bytes⟩

theorem stackFrame_pushing (h : (i, w) ∈ stackForms pre bw src) (ht : exec i s = .next t) :
    StackFrame (fun r => i = .push pre bw src ∨ r ≠ .pc) src w s t := by
  rcases List.mem_pair.mp h with h | h <;> cases h
  · exact (stackFrame_push ht).mono fun _ _ => trivial
  · exact (stackFrame_call ht).mono fun r hr => hr.resolve_left nofun

end

/-- Settles O39: the frame of the push, after which CALL writes the PC alone. -/
theorem stackInstructionFrame : Obligations.StackInstructionFrame := by
  intro pre bw src s t p hp ht
  have h := stackFrame_pushing hp ht
  refine ⟨h.sp, fun r hr hsrc hpc => ?_, fun r hr hsrc hpc => ?_, fun he b => h.bytes.bytes he b⟩
  · rw [h.regs r hr hpc, incrementOf_other hsrc]
    exact BitVec.add_zero _
  · rw [h.regs r hr hpc, hsrc, incrementOf_self]

/-! ## Frames of the whole instruction set (R22 to R27) -/

/-- The destination register, the post-incremented operand, whether an instruction pushes, and what its
well-formedness says of the operand. -/
structure HasOperands (i : Instr) (dest : Option Reg) (src : SrcOperand) (w : Width)
    (stack : Bool) : Prop where
  dest : destRegister i = dest
  increment : ∀ r, postIncrementOf i r = incrementOf src w r
  stack : isStackInstr i = stack
  wellFormed : i.wellFormed = true → src.wellFormed = true

section
variable {src : SrcOperand} {dst : DstOperand} {w bw : Width} {pre : BitVec 3} {i : Instr}

theorem hasOperands_writing (h : i ∈ Instr.mov w src dst :: computingForms w src dst) :
    HasOperands i (dstRegister dst) src w false := by
  simp only [computingForms, List.mem_cons, List.not_mem_nil, or_false] at h
  rcases h with rfl | rfl | rfl | rfl | rfl | rfl | rfl | rfl | rfl <;>
    exact ⟨rfl, fun _ => rfl, rfl, fun hw => (Bool.and_eq_true_iff.mp hw).1⟩

theorem hasOperands_comparing (h : i ∈ [Instr.cmp w src dst, .bit w src dst]) :
    HasOperands i none src w false := by
  rcases List.mem_pair.mp h with rfl | rfl <;>
    exact ⟨rfl, fun _ => rfl, rfl, fun hw => (Bool.and_eq_true_iff.mp hw).1⟩

theorem hasOperands_rewriting (h : (i, w) ∈ rewritingForms pre bw src) :
    HasOperands i (srcRegister src) src w false := by
  simp only [rewritingForms, List.mem_cons, List.not_mem_nil, or_false] at h
  rcases h with h | h | h | h <;> cases h <;> exact ⟨rfl, fun _ => rfl, rfl, id⟩

theorem hasOperands_pushing (h : (i, w) ∈ stackForms pre bw src) :
    HasOperands i none src w true := by
  rcases List.mem_pair.mp h with h | h <;> cases h <;> exact ⟨rfl, fun _ => rfl, rfl, id⟩

/-- A jump has no destination, no operand and no push. -/
theorem registers_jumping {off : BitVec 10} (h : i ∈ jumpForms off) :
    (∀ r, postIncrementOf i r = 0#16) ∧ isStackInstr i = false := by
  simp only [jumpForms, List.mem_cons, List.not_mem_nil, or_false] at h
  rcases h with rfl | rfl | rfl | rfl | rfl | rfl | rfl | rfl <;> exact ⟨fun _ => rfl, rfl⟩

end

/-- What an instruction's push takes off register `r` (R22). -/
def pushedOf (i : Instr) (r : Reg) : Word := if isStackInstr i = true ∧ r = .sp then 2#16 else 0#16

theorem pushedOf_of_not_stack {i : Instr} (h : isStackInstr i = false) (r : Reg) :
    pushedOf i r = 0#16 := if_neg (by simp [h])

/-- A register that is not the destination changes by the post-increment and the push alone. -/
theorem Frame.reg_exec {i : Instr} {dest : Option Reg} {src : SrcOperand} {w : Width}
    {B : Word → Prop} {s t : State} (h : Frame dest src w B s t) (hi : HasOperands i dest src w false)
    {r : Reg} (hr : r ≠ .sr) (hd : destRegister i ≠ some r) :
    t.reg r = s.reg r + postIncrementOf i r - pushedOf i r := by
  rw [h.regs r hr (hi.dest ▸ hd), hi.increment, pushedOf_of_not_stack hi.stack]
  exact (BitVec.sub_zero _).symm

/-- Every register but PC and SR, for every instruction in every state (R22, R26). -/
theorem exec_reg {i : Instr} {s t : State} (ht : exec i s = .next t) {r : Reg} (hpc : r ≠ .pc)
    (hsr : r ≠ .sr) (hd : destRegister i ≠ some r) :
    t.reg r = s.reg r + postIncrementOf i r - pushedOf i r := by
  cases instrClass i with
  | writes w src dst h => exact (frame_writing h ht).reg_exec (hasOperands_writing h) hsr hd
  | compares w src dst h => exact (frame_comparing h ht).reg_exec (hasOperands_comparing h) hsr hd
  | rewrites pre bw w src h => exact (frame_rewriting h ht).reg_exec (hasOperands_rewriting h) hsr hd
  | pushes pre bw w src h =>
    have hf := stackFrame_pushing h ht
    have hi := hasOperands_pushing h
    rw [hi.increment]
    by_cases hsp : r = .sp
    · subst hsp
      rw [hf.sp, postIncrement_reg, pushedOf, if_pos ⟨hi.stack, rfl⟩]
    · rw [hf.regs r hsp (.inr hpc), pushedOf, if_neg (fun hp => hsp hp.2)]
      exact (BitVec.sub_zero _).symm
  | jumps off h =>
    obtain ⟨hinc, hstack⟩ := registers_jumping h
    have hkept : t.reg r = s.reg r := by
      rcases exec_jumping_next h ht with rfl | ⟨v, rfl⟩
      · rfl
      · exact State.reg_setReg_other s v hpc
    rw [hkept, hinc, pushedOf_of_not_stack hstack]
    exact ((BitVec.sub_zero _).trans (BitVec.add_zero _)).symm
  | stops h =>
    rw [h s] at ht
    cases ht

/-- Settles O41: `exec_reg` at SP. -/
theorem theStackPointerChangesOnlyAsSaid : Obligations.TheStackPointerChangesOnlyAsSaid := by
  intro i s t ht hd
  have hpush : pushedOf i .sp = if isStackInstr i then 2#16 else 0#16 := by simp [pushedOf]
  rw [← hpush]
  exact exec_reg (r := .sp) ht nofun nofun hd

/-- Settles O42: `exec_reg` at r4 to r15, which no push moves. -/
theorem aGeneralRegisterChangesOnlyAsSaid : Obligations.AGeneralRegisterChangesOnlyAsSaid := by
  intro i s t r ht hr hd
  simp only [List.mem_cons, List.not_mem_nil, or_false, not_or] at hr
  obtain ⟨hpc, hsp, hsr⟩ := hr
  rw [exec_reg ht hpc hsr hd, pushedOf, if_neg (fun hp => hsp hp.2)]
  exact BitVec.sub_zero _

/-- No well-formed operand increments SR (R66). -/
theorem SrcOperand.ne_indirectInc_sr {src : SrcOperand} (h : src.wellFormed = true) :
    src ≠ .indirectInc .sr := by
  rintro rfl
  cases h

/-- No well-formed operand increments the PC (R66). -/
theorem SrcOperand.ne_indirectInc_pc {src : SrcOperand} (h : src.wellFormed = true) :
    src ≠ .indirectInc .pc := by
  rintro rfl
  cases h

/-- Settles O43: each class keeps the bits of SR that are no flags. -/
theorem controlBitsChangeOnlyWhenSrIsTheDestination :
    Obligations.ControlBitsChangeOnlyWhenSrIsTheDestination := by
  intro i s t k hwf ht hd hk
  cases instrClass i with
  | writes w src dst h =>
    have hi := hasOperands_writing h
    have hsrc := SrcOperand.ne_indirectInc_sr (hi.wellFormed hwf)
    exact (frame_writing h ht).srBits (hi.dest ▸ hd) hsrc k hk
  | compares w src dst h =>
    have hi := hasOperands_comparing h
    have hsrc := SrcOperand.ne_indirectInc_sr (hi.wellFormed hwf)
    exact (frame_comparing h ht).srBits nofun hsrc k hk
  | rewrites pre bw w src h =>
    have hi := hasOperands_rewriting h
    have hsrc := SrcOperand.ne_indirectInc_sr (hi.wellFormed hwf)
    exact (frame_rewriting h ht).srBits (hi.dest ▸ hd) hsrc k hk
  | pushes pre bw w src h =>
    have hsrc := SrcOperand.ne_indirectInc_sr ((hasOperands_pushing h).wellFormed hwf)
    have hsr := (stackFrame_pushing h ht).regs .sr nofun (.inr nofun)
    rw [incrementOf_other hsrc] at hsr
    exact congrArg (·.getLsbD k) (hsr.trans (BitVec.add_zero _))
  | jumps off h => rcases exec_jumping_next h ht with rfl | ⟨v, rfl⟩ <;> rfl
  | stops h =>
    rw [h s] at ht
    cases ht

/-! ## Flags kept, and byte results (R27, R105) -/

/-- A computation that keeps the flags. -/
def KeepsFlags (f : Word → Word → Flags → Alu) : Prop := ∀ v d old, (f v d old).flags = old

/-- SR after a double-operand instruction whose computation keeps the flags. -/
theorem twoOperand_keeps_sr {w0 : Word} {reads : Bool} {w : Width} {src : SrcOperand}
    {dst : DstOperand} {f : Word → Word → Flags → Alu} {s t : State} (hf : KeepsFlags f)
    (hd : dst ≠ .reg .sr) (h : twoOperand w0 reads true w src dst f s = .ok () t) :
    t.reg .sr = (postIncrement src w s).reg .sr := by
  obtain ⟨v, d, s2, ha, ⟨-, hw⟩ | ⟨hfalse, -⟩⟩ := twoOperand_ok h
  · rw [hf, State.setFlags_flags] at hw
    rw [← ha.reg]
    refine writeLoc_reg_other hw ?_
    rw [dstLoc, locRegister_locateDst]
    exact dstRegister_eq_some.not.mpr hd
  · cases hfalse

/-- SR after SWPB. -/
theorem exec_swpb_keeps_sr {pre : BitVec 3} {bw : Width} {src : SrcOperand} {s t : State}
    (hd : src ≠ .reg .sr) (h : exec (.swpb pre bw src) s = .next t) :
    t.reg .sr = (postIncrement src .word s).reg .sr := by
  obtain ⟨v, s1, ha, hw⟩ := rewriteOperand_ok (Res.outcome_next.mp h)
  rw [aluSwpb, State.setFlags_flags] at hw
  rw [← (postIncrement_asked ha).reg]
  refine writeLoc_reg_other hw ?_
  rw [locRegister_srcLoc]
  exact srcRegister_eq_some.not.mpr hd

/-- Settles O40: the flags written are those found, or none are written at all. -/
theorem someInstructionsChangeNoFlag : Obligations.SomeInstructionsChangeNoFlag := by
  intro pre w src dst off s t hwf i hi ht
  have hsrc := SrcOperand.ne_indirectInc_sr hwf
  have hdouble : ∀ f, (i, f) ∈ writingComputations w src dst → KeepsFlags f → dst ≠ .reg .sr →
      t.reg .sr = s.reg .sr := fun f hmem hf hd => by
    obtain ⟨reads, -, e⟩ := exec_writingComputation hmem s
    rw [e, Res.outcome_next] at ht
    rw [twoOperand_keeps_sr hf hd ht, postIncrement_reg_other w s hsrc]
  have hpush : ∀ p, (i, p) ∈ stackForms pre w src → t.reg .sr = s.reg .sr := fun p hmem => by
    have hsr := (stackFrame_pushing hmem ht).regs .sr nofun (.inr nofun)
    rw [hsr, incrementOf_other hsrc]
    exact BitVec.add_zero _
  rcases hi with ⟨hi, hd⟩ | ⟨rfl, hd⟩ | hi
  · simp only [List.mem_cons, List.not_mem_nil, or_false] at hi
    rcases hi with rfl | rfl | rfl
    · exact hdouble aluMov (by simp [writingComputations]) (fun _ _ _ => rfl) hd
    · exact hdouble (aluBic w) (by simp [writingComputations]) (fun _ _ _ => rfl) hd
    · exact hdouble aluBis (by simp [writingComputations]) (fun _ _ _ => rfl) hd
  · exact (exec_swpb_keeps_sr hd ht).trans (postIncrement_reg_other .word s hsrc)
  · rcases List.mem_cons.mp hi with rfl | hi
    · exact hpush w (by simp [stackForms])
    rcases List.mem_cons.mp hi with rfl | hi
    · exact hpush .word (by simp [stackForms])
    · rcases exec_jumping_next (off := off) hi ht with rfl | ⟨v, rfl⟩ <;> rfl

/-- What is written to a register in byte mode is at most 0xFF (R105). -/
theorem writeLoc_reg_byte_le {w0 v : Word} {r : Reg} {s t : State}
    (h : writeLoc w0 (.reg r) .byte v s = .ok () t) : (t.reg r).toNat ≤ 0xFF := by
  cases h
  rw [State.reg_setReg_same]
  exact toNat_and_mask_le .byte v

/-- Settles O44: every one of these instructions writes its register through `writeLoc`. -/
theorem byteResultsFitInAByte : Obligations.ByteResultsFitInAByte := by
  intro pre src r s t i hi ht
  have hrewrite : (i, Width.byte) ∈ rewritingForms pre .byte (.reg r) → (t.reg r).toNat ≤ 0xFF :=
    fun hmem => by
      obtain ⟨f, e⟩ := exec_rewriting hmem s
      rw [e, Res.outcome_next] at ht
      obtain ⟨v, s1, -, hw⟩ := rewriteOperand_ok ht
      exact writeLoc_reg_byte_le hw
  rcases List.mem_cons.mp hi with rfl | hi
  · exact hrewrite (by simp [rewritingForms])
  rcases List.mem_cons.mp hi with rfl | hi
  · exact hrewrite (by simp [rewritingForms])
  · obtain ⟨reads, f, e⟩ := exec_writing hi s
    rw [e, Res.outcome_next] at ht
    obtain ⟨v, d, s2, -, ⟨-, hw⟩ | ⟨hfalse, -⟩⟩ := twoOperand_ok ht
    · exact writeLoc_reg_byte_le hw
    · cases hfalse

/-! ## What a faulting step leaves (R197) -/

/-- `t` has the PC of `s`, and its bytes unless a hook was asked. -/
structure FaultKept (s t : State) : Prop where
  pc : t.reg .pc = s.reg .pc
  bytes : BytesKept (fun _ => False) s t

theorem FaultKept.trans {s t u : State} (h : FaultKept s t) (k : FaultKept t u) : FaultKept s u :=
  ⟨k.pc.trans h.pc, h.bytes.trans k.bytes⟩

theorem Asked.faultKept {s t : State} (h : Asked s t) : FaultKept s t := ⟨h.reg .pc, h.bytesKept _⟩

theorem faultKept_setReg (s : State) {r : Reg} (hr : Reg.pc ≠ r) (v : Word) :
    FaultKept s (s.setReg r v) := ⟨State.reg_setReg_other s v hr, bytesKept_setReg _ s r v⟩

theorem faultKept_setFlags (s : State) (f : Flags) : FaultKept s (s.setFlags f) :=
  faultKept_setReg s (r := .sr) nofun _

section
variable {src : SrcOperand} {w : Width} {s : State} {f : Fault}

theorem faultKept_postIncrement (h : src ≠ .indirectInc .pc) (w : Width) (s : State) :
    FaultKept s (postIncrement src w s) :=
  ⟨postIncrement_reg_other w s h, bytesKept_postIncrement _ src w s⟩

theorem twoOperand_faultKept {w0 : Word} {reads writes : Bool} {dst : DstOperand}
    {g : Word → Word → Flags → Alu} (hsrc : src ≠ .indirectInc .pc)
    (h : twoOperand w0 reads writes w src dst g s = .fault f) : FaultKept s f.left := by
  have hinc := faultKept_postIncrement hsrc w s
  rcases twoOperand_fault h with ha | ha | ⟨v, d, s2, ha, hl⟩
  · exact ha.faultKept
  · exact hinc.trans ha.faultKept
  · exact ((hinc.trans ha.faultKept).trans (faultKept_setFlags s2 _)).trans hl.faultKept

theorem rewriteOperand_faultKept {w0 : Word} {pre : BitVec 3} {g : Word → Flags → Alu}
    (hsrc : src ≠ .indirectInc .pc) (h : rewriteOperand w0 pre w src g s = .fault f) :
    FaultKept s f.left := by
  rcases rewriteOperand_fault h with ha | ⟨v, s1, ha, hl⟩
  · exact ha.faultKept
  · exact ((ha.faultKept.trans (faultKept_postIncrement hsrc w s1)).trans
      (faultKept_setFlags _ _)).trans hl.faultKept

/-- An operand read and then a push, which may fault in either. -/
theorem push_faultKept {w0 v : Word} {pre : BitVec 3} {s2 : State} (hsrc : src ≠ .indirectInc .pc)
    (h : singleOperand w0 pre w src s = .ok v s2) {x : Word} {w' : Width}
    (k : pushValue w' x s2 = .fault f) : FaultKept s f.left := by
  obtain ⟨s1, ha, rfl⟩ := singleOperand_ok h
  exact ((ha.faultKept.trans (faultKept_postIncrement hsrc w s1)).trans
    (faultKept_setReg _ (r := .sp) nofun _)).trans (pushValue_fault k).faultKept

end

/-- An instruction that faults leaves the PC it found, and every byte unless a hook was asked. -/
theorem exec_faultKept {i : Instr} {s : State} {f : Fault} (hwf : i.wellFormed = true)
    (h : exec i s = .fault f) : FaultKept s f.left := by
  cases instrClass i with
  | writes w src dst hi =>
    obtain ⟨reads, g, e⟩ := exec_writing hi s
    rw [e, Res.outcome_fault] at h
    have hsrc := SrcOperand.ne_indirectInc_pc ((hasOperands_writing hi).wellFormed hwf)
    exact twoOperand_faultKept hsrc h
  | compares w src dst hi =>
    obtain ⟨g, e⟩ := exec_comparing hi s
    rw [e, Res.outcome_fault] at h
    have hsrc := SrcOperand.ne_indirectInc_pc ((hasOperands_comparing hi).wellFormed hwf)
    exact twoOperand_faultKept hsrc h
  | rewrites pre bw w src hi =>
    obtain ⟨g, e⟩ := exec_rewriting hi s
    rw [e, Res.outcome_fault] at h
    have hsrc := SrcOperand.ne_indirectInc_pc ((hasOperands_rewriting hi).wellFormed hwf)
    exact rewriteOperand_faultKept hsrc h
  | pushes pre bw w src hi =>
    have hsrc := (SrcOperand.ne_indirectInc_pc ((hasOperands_pushing hi).wellFormed hwf))
    rcases List.mem_pair.mp hi with hi | hi <;> cases hi
    · rw [exec_push, Res.outcome_fault] at h
      rcases Res.andThen_fault h with h | ⟨v, s2, h1, h2⟩
      · exact (singleOperand_fault h).faultKept
      · exact push_faultKept hsrc h1 h2
    · rw [exec_call, Res.outcome_fault] at h
      rcases Res.andThen_fault h with h | ⟨v, s2, h1, h2⟩
      · exact (singleOperand_fault h).faultKept
      · rcases Res.andThen_fault h2 with h2 | ⟨_, s3, -, h3⟩
        · exact push_faultKept hsrc h1 h2
        · cases h3
  | jumps off hi =>
    obtain ⟨taken, e⟩ := exec_jumping hi s
    rw [e] at h
    cases h
  | stops hi =>
    rw [hi s] at h
    cases h
    exact (Asked.refl s).faultKept

/-- Settles O10: a fetch that faults only asked the environment, and an instruction that faults keeps the
PC the step advanced. -/
theorem aFaultingStepStoresNothingAndKeepsItsPc :
    Obligations.AFaultingStepStoresNothingAndKeepsItsPc := by
  intro s f h
  rcases step_cases s with ⟨g, hg, e⟩ | ⟨i, t, ht, e⟩ <;> rw [e] at h
  · cases h
    obtain ⟨h6, ha⟩ := fetchInstr_fault hg
    exact ⟨fun he a => (ha.bytesKept fun _ => False).bytes he a id, .inl ⟨h6, ha.1⟩⟩
  · obtain ⟨bytes, s1, -, hdec, ha, rfl⟩ := fetchInstr_ok ht
    have hwf : i.wellFormed = true := (encodingADecodedInstructionGivesItsBytesBack bytes i hdec).1
    obtain ⟨hpc, hbytes⟩ := exec_faultKept hwf h
    have hkept : BytesKept (fun _ => False) s f.left :=
      ((ha.bytesKept _).trans (bytesKept_setReg _ s1 _ _)).trans hbytes
    exact ⟨fun he a => hkept.bytes he a id, .inr ⟨i, _, ht, hpc⟩⟩

end Sys2Proof.Machine

/-! ## The arithmetic of a width (00_scope.md R11; 43_double_operand.md R173) -/

namespace Sys2Proof.Machine

/-- The value of the most significant bit of a width. -/
def half : Width → Nat
  | .word => 32768
  | .byte => 128

theorem two_pow_bitsOf (w : Width) : 2 ^ bitsOf w = 2 * half w := by cases w <;> rfl

theorem two_pow_bitsOf_sub_one (w : Width) : 2 ^ (bitsOf w - 1) = half w := by cases w <;> rfl

theorem half_pos (w : Width) : 0 < half w := by cases w <;> decide

theorem half_le (w : Width) : half w ≤ 32768 := by cases w <;> decide

theorem mask_toNat (w : Width) : (mask w).toNat = 2 * half w - 1 := by cases w <;> rfl

/-- `v` is a value of width `w`. -/
def Fits (w : Width) (v : Word) : Prop := v.toNat < 2 * half w

theorem toNat_and_mask (w : Width) (v : Word) : (v &&& mask w).toNat = v.toNat % (2 * half w) := by
  rw [BitVec.toNat_and, mask_toNat, ← two_pow_bitsOf, Nat.and_two_pow_sub_one_eq_mod]

theorem fits_and_mask (w : Width) (v : Word) : Fits w (v &&& mask w) := by
  rw [Fits, toNat_and_mask]
  exact Nat.mod_lt _ (by have := half_pos w; omega)

theorem Fits.and_mask {w : Width} {v : Word} (h : Fits w v) : v &&& mask w = v :=
  BitVec.eq_of_toNat_eq (by rw [toNat_and_mask, Nat.mod_eq_of_lt h])

/-- What an operand is read as fits its width. -/
theorem fits_valueAt (l : Loc) (w : Width) (s : State) : Fits w (valueAt l w s) := by
  cases l with
  | reg r => exact fits_and_mask w _
  | mem ea =>
    cases w with
    | word => exact (s.stored .word ea).isLt
    | byte =>
      have h : (s.stored .byte ea).toNat = (s.byteAt ea).toNat :=
        BitVec.toNat_setWidth_of_le (by decide)
      rw [valueAt, Fits, h]
      exact (s.byteAt ea).isLt
  | noLoc k => exact fits_and_mask w _

theorem fits_srcValue (w : Width) (src : SrcOperand) (s : State) : Fits w (srcValue w src s) :=
  fits_valueAt _ w s

theorem fits_dstValue (w : Width) (src : SrcOperand) (dst : DstOperand) (s : State) :
    Fits w (dstValue w src dst s) := fits_valueAt _ w _

/-- The top bit says whether a value is at least half the range. -/
theorem topBit_eq {w : Width} {v : Word} (h : Fits w v) : topBit w v = decide (half w ≤ v.toNat) := by
  cases w with
  | word => exact (BitVec.msb_eq_getLsbD_last v).symm.trans (BitVec.msb_eq_decide v)
  | byte =>
    have hv : v.toNat < 256 := h
    have ht : topBit .byte v = decide (v.toNat / 2 ^ 7 % 2 = 1) := Nat.testBit_eq_decide_div_mod_eq
    rw [ht, decide_eq_decide, half]
    omega

theorem topBit_iff {w : Width} {v : Word} (h : Fits w v) : topBit w v = true ↔ half w ≤ v.toNat := by
  rw [topBit_eq h, decide_eq_true_iff]

theorem lowByte_toNat (v : Word) : (lowByte v).toNat = v.toNat % 256 :=
  congrArg (· % 2 ^ 8) (Nat.shiftRight_zero (n := v.toNat))

theorem highByte_toNat (v : Word) : (highByte v).toNat = v.toNat / 256 := by
  have hv := v.isLt
  rw [highByte, BitVec.extractLsb'_toNat, Nat.shiftRight_eq_div_pow]
  omega

/-- The signed view of a value that fits (R173). -/
theorem signedAt_cases {w : Width} {v : Word} (h : Fits w v) :
    (v.toNat < half w ∧ signedAt w v = v.toNat)
      ∨ (half w ≤ v.toNat ∧ signedAt w v = v.toNat - (2 * half w : Nat)) := by
  unfold Fits at h
  cases w with
  | word =>
    simp only [signedAt, BitVec.toInt_eq_toNat_cond, half] at h ⊢
    split <;> omega
  | byte =>
    simp only [signedAt, BitVec.toInt_eq_toNat_cond, lowByte_toNat, half] at h ⊢
    split <;> omega

theorem signedAt_neg_iff {w : Width} {v : Word} (h : Fits w v) :
    signedAt w v < 0 ↔ topBit w v = true := by
  rw [topBit_iff h]
  have hv := signedAt_cases h
  unfold Fits at h
  omega

/-- A value's top bit, alone. -/
theorem and_msb (w : Width) (v : Word) : v &&& msb w = flagBit (topBit w v) (msb w) := by
  have hmsb : msb w = BitVec.twoPow 16 (bitsOf w - 1) := by cases w <;> rfl
  rw [hmsb, BitVec.and_twoPow]
  rfl

/-- The N of a result is its top bit (R106). -/
theorem negative_eq_topBit (r : Word) (w : Width) : negative r w = topBit w r := by
  rw [negative, and_msb]
  cases topBit w r <;> cases w <;> rfl

theorem emod_range_lt (w : Width) (x : Int) : x % (2 * half w : Nat) < (2 * half w : Nat) :=
  Int.emod_lt_of_pos _ (by have := half_pos w; omega)

theorem narrow_toNat (w : Width) (x : Int) : (narrow w x).toNat = (x % (2 * half w : Nat)).toNat := by
  have h : (2 : Int) ^ bitsOf w = (2 * half w : Nat) := by rw [← two_pow_bitsOf]; norm_cast
  have hlt := emod_range_lt w x
  have hle := half_le w
  rw [narrow, h, BitVec.toNat_ofNat, Nat.mod_eq_of_lt (by omega)]

theorem fits_narrow (w : Width) (x : Int) : Fits w (narrow w x) := by
  have hlt := emod_range_lt w x
  have := half_pos w
  rw [Fits, narrow_toNat]
  omega

/-- Integers that differ by the range of a width narrow alike. -/
theorem narrow_add_range (w : Width) (x : Int) : narrow w (x + (2 * half w : Nat)) = narrow w x :=
  BitVec.eq_of_toNat_eq (by rw [narrow_toNat, narrow_toNat, Int.add_emod_right])

theorem narrow_ofNat (w : Width) (t : Nat) : narrow w t = BitVec.ofNat 16 t &&& mask w := by
  apply BitVec.eq_of_toNat_eq
  have hdvd : 2 * half w ∣ 2 ^ 16 := by cases w <;> decide
  rw [narrow_toNat, toNat_and_mask, BitVec.toNat_ofNat, Nat.mod_mod_of_dvd _ hdvd]
  norm_cast

theorem outOfRange_iff (w : Width) (x : Int) :
    outOfRange w x = true ↔ x < -(half w : Int) ∨ (half w : Int) ≤ x := by
  have h : (2 : Int) ^ (bitsOf w - 1) = half w := by rw [← two_pow_bitsOf_sub_one]; norm_cast
  rw [outOfRange, decide_eq_true_iff, h]

/-! ## The adder and the subtractions (R107) -/

/-- The V of the adder: both operands' top bits differ from the result's exactly when the signed sum is out
of range. -/
theorem addCore_overflow {w : Width} {a b r : Word} (ha : Fits w a) (hb : Fits w b) (c : Bool)
    (hr : r = narrow w (a.toNat + b.toNat + c.toNat : Nat)) :
    ((a ^^^ r) &&& (b ^^^ r) &&& msb w != 0#16)
      = outOfRange w (signedAt w a + signedAt w b + c.toNat) := by
  have hfits : Fits w r := hr ▸ fits_narrow w _
  have hnat : r.toNat = (a.toNat + b.toNat + c.toNat) % (2 * half w) := by
    rw [hr, narrow_toNat]
    norm_cast
  have hbits : ((a ^^^ r) &&& (b ^^^ r) &&& msb w != 0#16)
      = ((topBit w a ^^ topBit w r) && (topBit w b ^^ topBit w r)) := by
    refine (negative_eq_topBit _ w).trans ?_
    simp only [topBit, BitVec.getLsbD_and, BitVec.getLsbD_xor]
  have hc : c.toNat ≤ 1 := Bool.toNat_le c
  have hsa := signedAt_cases ha
  have hsb := signedAt_cases hb
  rw [hbits, topBit_eq ha, topBit_eq hb, topBit_eq hfits, Bool.eq_iff_iff, outOfRange_iff,
    Bool.and_eq_true, bne_iff_ne, bne_iff_ne, ne_eq, ne_eq, decide_eq_decide, decide_eq_decide, hnat]
  unfold Fits at ha hb
  cases w <;> simp only [half] at ha hb hsa hsb ⊢ <;> omega

/-- The adder on values of its width, from exact integers. -/
theorem addCore_eq {w : Width} {a b : Word} (ha : Fits w a) (hb : Fits w b) (c : Bool) :
    addCore a b c w =
      { val := narrow w (a.toNat + b.toNat + c.toNat),
        flags := { c := decide (2 ^ bitsOf w ≤ a.toNat + b.toNat + c.toNat),
                   z := narrow w (a.toNat + b.toNat + c.toNat) == 0#16,
                   n := topBit w (narrow w (a.toNat + b.toNat + c.toNat)),
                   v := outOfRange w (signedAt w a + signedAt w b + c.toNat) } } := by
  have hval : BitVec.ofNat 16 (a.toNat + b.toNat + c.toNat) &&& mask w
      = narrow w (a.toNat + b.toNat + c.toNat) := by
    rw [← narrow_ofNat]
    norm_cast
  have hcarry : (mask w).toNat < a.toNat + b.toNat + c.toNat
      ↔ 2 ^ bitsOf w ≤ a.toNat + b.toNat + c.toNat := by
    have := half_pos w
    rw [mask_toNat, two_pow_bitsOf]
    omega
  simp only [addCore, hval, hcarry, negative_eq_topBit, isZero]
  rw [addCore_overflow ha hb c (by norm_cast)]

theorem toNat_complement {w : Width} {v : Word} (h : Fits w v) :
    (~~~v &&& mask w).toNat = 2 * half w - 1 - v.toNat := by
  rw [toNat_and_mask, BitVec.toNat_not]
  unfold Fits at h
  cases w <;> simp only [half] at h ⊢ <;> omega

theorem signedAt_complement {w : Width} {v : Word} (h : Fits w v) :
    signedAt w (~~~v &&& mask w) = -1 - signedAt w v := by
  have hv := signedAt_cases h
  have hc := signedAt_cases (fits_and_mask w (~~~v))
  rw [toNat_complement h] at hc
  unfold Fits at h
  omega

/-- The adder on a complemented operand is a subtraction: `d - s - 1 + c`, with C the NOT-borrow (R164,
R165). -/
theorem addCore_complement {w : Width} {s d : Word} (hs : Fits w s) (hd : Fits w d) (c : Bool) :
    addCore d (~~~s &&& mask w) c w =
      { val := narrow w ((d.toNat : Int) - s.toNat - 1 + c.toNat),
        flags := { c := decide (s.toNat + 1 ≤ d.toNat + c.toNat),
                   z := narrow w ((d.toNat : Int) - s.toNat - 1 + c.toNat) == 0#16,
                   n := topBit w (narrow w ((d.toNat : Int) - s.toNat - 1 + c.toNat)),
                   v := outOfRange w (signedAt w d - signedAt w s - 1 + c.toNat) } } := by
  have hlt : s.toNat < 2 * half w := hs
  have hexact : (d.toNat : Int) + (~~~s &&& mask w).toNat + c.toNat
      = ((d.toNat : Int) - s.toNat - 1 + c.toNat) + (2 * half w : Nat) := by
    rw [toNat_complement hs]
    omega
  have hcarry : 2 ^ bitsOf w ≤ d.toNat + (~~~s &&& mask w).toNat + c.toNat
      ↔ s.toNat + 1 ≤ d.toNat + c.toNat := by
    rw [two_pow_bitsOf, toNat_complement hs]
    omega
  have hsigned : signedAt w d + signedAt w (~~~s &&& mask w) + c.toNat
      = signedAt w d - signedAt w s - 1 + c.toNat := by
    rw [signedAt_complement hs]
    ring
  rw [addCore_eq hd (fits_and_mask w _)]
  simp only [hexact, hcarry, hsigned, narrow_add_range]

/-- SUB and CMP (R165, R166). -/
theorem aluSub_eq {w : Width} {s d : Word} (hs : Fits w s) (hd : Fits w d) (old : Flags) :
    aluSub w s d old =
      { val := narrow w ((d.toNat : Int) - s.toNat),
        flags := { c := decide (s.toNat ≤ d.toNat),
                   z := narrow w ((d.toNat : Int) - s.toNat) == 0#16,
                   n := topBit w (narrow w ((d.toNat : Int) - s.toNat)),
                   v := outOfRange w (signedAt w d - signedAt w s) } } := by
  rw [aluSub, addCore_complement hs hd]
  simp

/-- The difference narrows to 0 exactly when the operands are equal. -/
theorem narrow_sub_eq_zero {w : Width} {s d : Word} (hs : Fits w s) (hd : Fits w d) :
    narrow w ((d.toNat : Int) - s.toNat) = 0#16 ↔ s = d := by
  unfold Fits at hs hd
  rw [← BitVec.toNat_inj, ← BitVec.toNat_inj, narrow_toNat]
  cases w <;> simp only [half, BitVec.toNat_zero] at hs hd ⊢ <;> omega

/-! ## Double-operand results (R161 to R172) -/

theorem flags_postIncrement {src : SrcOperand} (h : src.wellFormed = true) (w : Width) (s : State) :
    (postIncrement src w s).flags = s.flags :=
  congrArg flagsOf (postIncrement_reg_other w s (SrcOperand.ne_indirectInc_sr h))

section
variable {w0 : Word} {w : Width} {src : SrcOperand} {dst : DstOperand}
  {f : Word → Word → Flags → Alu} {s : State} {r : Word} {fl : Flags}

/-- A writing instruction whose operands need no answer, with its result worked out as `r` and `fl`. -/
theorem twoOperand_writes (hb : BothReady w src dst s) (hw : DstWritable w src dst s)
    (hf : f (srcValue w src s) (dstValue w src dst s) (postIncrement src w s).flags = ⟨r, fl⟩) :
    (twoOperand w0 true true w src dst f s).outcome
      = .next (putAt (dstLoc w src dst s) w r ((postIncrement src w s).setFlags fl)) := by
  rw [twoOperand_writes_plain hb hw, hf]
  rfl

/-- The same where the computation keeps the flags. -/
theorem twoOperand_writes_only (hb : BothReady w src dst s) (hw : DstWritable w src dst s)
    (hf : f (srcValue w src s) (dstValue w src dst s) (postIncrement src w s).flags
      = ⟨r, (postIncrement src w s).flags⟩) :
    (twoOperand w0 true true w src dst f s).outcome
      = .next (putAt (dstLoc w src dst s) w r (postIncrement src w s)) := by
  rw [twoOperand_writes hb hw hf, State.setFlags_flags]

/-- A comparing instruction whose operands need no answer. -/
theorem twoOperand_compares (hb : BothReady w src dst s)
    (hf : f (srcValue w src s) (dstValue w src dst s) (postIncrement src w s).flags = ⟨r, fl⟩) :
    (twoOperand w0 true false w src dst f s).outcome = .next ((postIncrement src w s).setFlags fl) := by
  rw [twoOperand_compares_plain hb, hf]
  rfl

theorem readDst_plain {reads : Bool} {l : Loc} (h : reads = true → Readable l w s) :
    ∃ d, readDst reads l w s = .ok d s := by
  cases reads
  · exact ⟨_, rfl⟩
  · exact ⟨_, readLoc_plain (h rfl)⟩

/-- A computation that keeps the flags and does not look at the destination (MOV). -/
theorem twoOperand_mov {reads : Bool} (hs : SrcReady w src s)
    (hb : reads = true → BothReady w src dst s) (hw : DstWritable w src dst s) :
    (twoOperand w0 reads true w src dst aluMov s).outcome
      = .next (putAt (dstLoc w src dst s) w (srcValue w src s) (postIncrement src w s)) := by
  obtain ⟨d, hd⟩ := readDst_plain (w := w) (s := postIncrement src w s)
    (l := dstLoc w src dst s) (fun h => (hb h).2)
  unfold twoOperand
  rw [readSrc_plain hs, Res.ok_andThen]
  change ((readDst reads (dstLoc w src dst s) w (postIncrement src w s)).andThen _).outcome = _
  rw [hd, Res.ok_andThen, if_pos rfl, aluMov, State.setFlags_flags]
  exact congrArg Res.outcome (writeLoc_plain hw)

end

/-- Settles O11: MOV writes the source and no flag, whether it reads its destination or not. -/
theorem movCopiesTheSource : Obligations.MovCopiesTheSource := by
  intro w src dst s hs hb hw
  exact twoOperand_mov hs hb hw

/-- Settles O12: the adder with no carry in. -/
theorem addStoresTheSum : Obligations.AddStoresTheSum := by
  intro w src dst s hb hw a d r
  refine twoOperand_writes hb hw ?_
  rw [aluAdd, addCore_eq (fits_dstValue w src dst s) (fits_srcValue w src s)]
  simp [a, d, r]

/-- Settles O13: the adder with the C that the post-increment leaves as it was. -/
theorem addcAddsTheCarry : Obligations.AddcAddsTheCarry := by
  intro w src dst s hwf hb hw a d k r
  refine twoOperand_writes hb hw ?_
  rw [aluAddc, flags_postIncrement hwf,
    addCore_eq (fits_dstValue w src dst s) (fits_srcValue w src s)]
  rfl

/-- Settles O14: the adder on the complemented source, with the C before. -/
theorem subcSubtractsTheBorrow : Obligations.SubcSubtractsTheBorrow := by
  intro w src dst s hwf hb hw a d k r
  refine twoOperand_writes hb hw ?_
  rw [aluSubc, flags_postIncrement hwf,
    addCore_complement (fits_srcValue w src s) (fits_dstValue w src dst s)]
  rfl

/-- Settles O15: the adder on the complemented source, with a carry in of 1. -/
theorem subStoresTheDifference : Obligations.SubStoresTheDifference := by
  intro w src dst s hb hw a d r
  exact twoOperand_writes hb hw (aluSub_eq (fits_srcValue w src s) (fits_dstValue w src dst s) _)

/-- Settles O16: the flags of SUB, whose result is 0 exactly when the operands are equal. -/
theorem cmpOnlySetsTheFlagsOfSub : Obligations.CmpOnlySetsTheFlagsOfSub := by
  intro w src dst s hb a d
  have hs := fits_srcValue w src s
  have hd := fits_dstValue w src dst s
  have hz : (narrow w ((d.toNat : Int) - a.toNat) == 0#16) = decide (a = d) := by
    rw [Bool.eq_iff_iff, beq_iff_eq, decide_eq_true_iff, narrow_sub_eq_zero hs hd]
  rw [← hz]
  exact twoOperand_compares hb (aluSub_eq hs hd _)

/-- The conjunction and its flags (R168, R172). -/
theorem aluAnd_eq (w : Width) (s d : Word) (old : Flags) :
    aluAnd w s d old =
      ⟨s &&& d,
        { c := s &&& d != 0#16, z := s &&& d == 0#16, n := topBit w (s &&& d), v := false }⟩ := by
  rw [aluAnd, negative_eq_topBit]
  rfl

/-- Settles O17: BIT and AND compute alike, and only AND writes. -/
theorem bitTestsAndAndStoresTheConjunction : Obligations.BitTestsAndAndStoresTheConjunction := by
  intro w src dst s hb r t
  exact ⟨twoOperand_compares hb (aluAnd_eq ..), fun hw => twoOperand_writes hb hw (aluAnd_eq ..)⟩

/-- The bits of `s` cleared in `d`, a value of the width (R169). -/
theorem aluBic_eq {w : Width} {d : Word} (hd : Fits w d) (s : Word) (old : Flags) :
    aluBic w s d old = ⟨d &&& ~~~s, old⟩ := by
  rw [aluBic, BitVec.and_assoc, BitVec.and_comm (mask w), hd.and_mask, BitVec.and_comm]

/-- Settles O18: both computations keep the flags. -/
theorem bicClearsAndBisSetsBits : Obligations.BicClearsAndBisSetsBits := by
  intro w src dst s hb hw
  refine ⟨twoOperand_writes_only hb hw (aluBic_eq (fits_dstValue w src dst s) _ _),
    twoOperand_writes_only hb hw ?_⟩
  rw [aluBis, BitVec.or_comm]

/-- The exclusive or and its flags (R171). -/
theorem aluXor_eq {w : Width} {s d : Word} (hs : Fits w s) (hd : Fits w d) (old : Flags) :
    aluXor w s d old =
      ⟨s ^^^ d,
        { c := decide (s ≠ d), z := decide (s = d), n := topBit w s ^^ topBit w d,
          v := decide (signedAt w s < 0 ∧ signedAt w d < 0) }⟩ := by
  have hz : isZero (s ^^^ d) = decide (s = d) := by
    rw [isZero, Bool.eq_iff_iff, beq_iff_eq, decide_eq_true_iff, BitVec.xor_eq_zero_iff]
  have hn : topBit w (s ^^^ d) = (topBit w s ^^ topBit w d) := BitVec.getLsbD_xor
  have hv : (topBit w s && topBit w d) = decide (signedAt w s < 0 ∧ signedAt w d < 0) := by
    rw [Bool.eq_iff_iff, Bool.and_eq_true, decide_eq_true_iff, signedAt_neg_iff hs,
      signedAt_neg_iff hd]
  simp only [aluXor, hz, negative_eq_topBit, hn, hv, decide_not]

/-- Settles O19: the exclusive or is 0 exactly when the operands are equal. -/
theorem xorStoresTheExclusiveOr : Obligations.XorStoresTheExclusiveOr := by
  intro w src dst s hb hw a d
  exact twoOperand_writes hb hw (aluXor_eq (fits_srcValue w src s) (fits_dstValue w src dst s) _)

/-! ## Single-operand results (R121 to R124) -/

section
variable {w0 : Word} {pre : BitVec 3} {w : Width} {src : SrcOperand} {f : Word → Flags → Alu}
  {s : State} {r : Word} {fl : Flags}

/-- RRC, SWPB, RRA and SXT on an operand that needs no answer, with the result worked out. -/
theorem rewriteOperand_writes (hp : PrefixOk pre s) (hs : SrcReady w src s)
    (hw : Writable (srcLoc src s) w s)
    (hf : f (srcValue w src s) (postIncrement src w s).flags = ⟨r, fl⟩) :
    (rewriteOperand w0 pre w src f s).outcome
      = .next (putAt (srcLoc src s) w r ((postIncrement src w s).setFlags fl)) := by
  rw [rewriteOperand_plain hp hs hw, hf]
  rfl

end

/-- Halving with a bit entering at the top (R121, R123). -/
theorem shiftRight_or_toNat {w : Width} {v : Word} (h : Fits w v) (b : Bool) :
    ((v >>> 1) ||| flagBit b (msb w)).toNat = v.toNat / 2 + (if b then half w else 0) := by
  have hshift : (v >>> 1).toNat = v.toNat / 2 := Nat.shiftRight_eq_div_pow ..
  cases b with
  | false => simp [flagBit, hshift]
  | true =>
    have hmsb : (msb w).toNat = 2 ^ (bitsOf w - 1) * 1 := by cases w <;> rfl
    have hlt : v.toNat / 2 < 2 ^ (bitsOf w - 1) := by
      unfold Fits at h
      rw [two_pow_bitsOf_sub_one]
      omega
    rw [flagBit, if_pos rfl, BitVec.toNat_or, hshift, hmsb, Nat.or_comm,
      ← Nat.two_pow_add_eq_or_of_lt hlt, Nat.mul_one, two_pow_bitsOf_sub_one, if_pos rfl, Nat.add_comm]

theorem fits_shiftRight_or {w : Width} {v : Word} (h : Fits w v) (b : Bool) :
    Fits w ((v >>> 1) ||| flagBit b (msb w)) := by
  unfold Fits at h ⊢
  rw [shiftRight_or_toNat h]
  split <;> omega

/-- The bit that entered is the top bit of the result. -/
theorem topBit_shiftRight_or {w : Width} {v : Word} (h : Fits w v) (b : Bool) :
    topBit w ((v >>> 1) ||| flagBit b (msb w)) = b := by
  rw [topBit_eq (fits_shiftRight_or h b), shiftRight_or_toNat h]
  unfold Fits at h
  cases b with
  | false => exact decide_eq_false (by rw [if_neg nofun]; omega)
  | true => exact decide_eq_true (by rw [if_pos rfl]; omega)

/-- RRC (R121). -/
theorem aluRrc_eq {w : Width} {v : Word} (h : Fits w v) (old : Flags) :
    aluRrc w v old =
      ⟨BitVec.ofNat 16 (v.toNat / 2 + if old.c then 2 ^ (bitsOf w - 1) else 0),
        { c := v.getLsbD 0,
          z := BitVec.ofNat 16 (v.toNat / 2 + if old.c then 2 ^ (bitsOf w - 1) else 0) == 0#16,
          n := old.c, v := false }⟩ := by
  have hval : (v >>> 1) ||| flagBit old.c (msb w)
      = BitVec.ofNat 16 (v.toNat / 2 + if old.c then 2 ^ (bitsOf w - 1) else 0) := by
    rw [two_pow_bitsOf_sub_one, ← shiftRight_or_toNat h, BitVec.ofNat_toNat, BitVec.setWidth_eq]
  rw [aluRrc, negative_eq_topBit, topBit_shiftRight_or h, hval]
  rfl

/-- Settles O20: the old C enters at the top. -/
theorem rrcRotatesThroughTheCarry : Obligations.RrcRotatesThroughTheCarry := by
  intro pre w src s hwf hp hs hw v c r
  refine rewriteOperand_writes hp hs hw ?_
  rw [flags_postIncrement hwf]
  exact aluRrc_eq (fits_srcValue w src s) _

/-- RRA (R123): the sign bit entering at the top halves the signed value. -/
theorem aluRra_eq {w : Width} {v : Word} (h : Fits w v) (old : Flags) :
    aluRra w v old =
      ⟨narrow w (signedAt w v / 2),
        { c := v.getLsbD 0, z := decide (v.toNat < 2), n := topBit w v, v := false }⟩ := by
  have hv := signedAt_cases h
  have hval : (v >>> 1) ||| flagBit (topBit w v) (msb w) = narrow w (signedAt w v / 2) := by
    apply BitVec.eq_of_toNat_eq
    rw [shiftRight_or_toNat h, topBit_eq h, narrow_toNat]
    simp only [decide_eq_true_iff]
    unfold Fits at h
    split <;> cases w <;> simp only [half] at * <;> omega
  have hz : isZero (narrow w (signedAt w v / 2)) = decide (v.toNat < 2) := by
    rw [isZero, Bool.eq_iff_iff, beq_iff_eq, decide_eq_true_iff, ← BitVec.toNat_inj, narrow_toNat]
    unfold Fits at h
    cases w <;> simp only [half, BitVec.toNat_zero] at h hv ⊢ <;> omega
  simp only [aluRra, and_msb, negative_eq_topBit, topBit_shiftRight_or h]
  rw [hval, hz]

/-- Settles O21: the sign bit enters at the top. -/
theorem rraHalvesTheSignedOperand : Obligations.RraHalvesTheSignedOperand := by
  intro pre w src s hp hs hw v r
  exact rewriteOperand_writes hp hs hw (aluRra_eq (fits_srcValue w src s) _)

theorem wordOfBytes_toNat (lo hi : Byte) : (wordOfBytes lo hi).toNat = hi.toNat * 256 + lo.toNat := by
  rw [wordOfBytes, BitVec.toNat_append, ← Nat.shiftLeft_add_eq_or_of_lt lo.isLt, Nat.shiftLeft_eq]

/-- Settles O22: the two bytes of the word change places, and the flags are written back as found. -/
theorem swpbExchangesTheBytes : Obligations.SwpbExchangesTheBytes := by
  intro pre bw src s hp hs hw v
  have hval : wordOfBytes (highByte v) (lowByte v)
      = BitVec.ofNat 16 (v.toNat % 256 * 256 + v.toNat / 256) := by
    rw [← highByte_toNat, ← lowByte_toNat, ← wordOfBytes_toNat, BitVec.ofNat_toNat, BitVec.setWidth_eq]
  have hrun : exec (.swpb pre bw src) s = .next (putAt (srcLoc src s) .word _
      ((postIncrement src .word s).setFlags (postIncrement src .word s).flags)) :=
    rewriteOperand_writes hp hs hw (congrArg (Alu.mk · _) hval)
  rwa [State.setFlags_flags] at hrun

/-- A signed integer taken to a word is narrowed to it. -/
theorem ofInt_eq_narrow (x : Int) : BitVec.ofInt 16 x = narrow .word x :=
  BitVec.eq_of_toNat_eq (by rw [BitVec.toNat_ofInt, narrow_toNat]; rfl)

/-- SXT (R124). -/
theorem aluSxt_eq (v : Word) (old : Flags) :
    aluSxt v old =
      ⟨narrow .word (signedAt .byte v),
        { c := decide (v.toNat % 256 ≠ 0), z := decide (v.toNat % 256 = 0), n := v.getLsbD 7,
          v := false }⟩ := by
  have hval : (lowByte v).signExtend 16 = narrow .word (signedAt .byte v) := ofInt_eq_narrow _
  have hz : isZero ((lowByte v).signExtend 16) = decide (v.toNat % 256 = 0) := by
    have hlow : (v.toNat % 256) < 256 := Nat.mod_lt _ (by decide)
    rw [hval, isZero, Bool.eq_iff_iff, beq_iff_eq, decide_eq_true_iff, ← BitVec.toNat_inj, narrow_toNat,
      signedAt, BitVec.toInt_eq_toNat_cond, lowByte_toNat, half, BitVec.toNat_zero]
    split <;> omega
  have hn : topBit .word ((lowByte v).signExtend 16) = v.getLsbD 7 := by
    rw [topBit, BitVec.getLsbD_signExtend]
    simp [bitsOf, BitVec.msb_eq_getLsbD_last, lowByte]
  simp only [aluSxt, negative_eq_topBit, hz, hn, decide_not]
  rw [hval]

/-- Settles O23: the byte's sign is extended. -/
theorem sxtExtendsTheLowByte : Obligations.SxtExtendsTheLowByte := by
  intro pre bw src s hp hs hw v
  exact rewriteOperand_writes hp hs hw (aluSxt_eq v _)

/-- What can be stored to does not depend on the registers. -/
theorem plainStore_congr {w : Width} {a : Word} {s t : State} (he : t.env = s.env)
    (hp : t.params = s.params) : PlainStore w a t ↔ PlainStore w a s :=
  writable_congr (l := .mem a) he hp

/-- Settles O24: the operand is read, then pushed. -/
theorem pushStoresBelowTheStackPointer : Obligations.PushStoresBelowTheStackPointer := by
  intro pre w src s hp hs s1 hw
  rw [exec_push, singleOperand_plain hp hs, Res.ok_andThen,
    pushValue_plain ((plainStore_congr (postIncrement_env ..) (postIncrement_params ..)).mpr hw)]
  rfl

/-- Settles O25: the PC pushed is the one found, since no well-formed operand increments it. -/
theorem callPushesTheReturnAddressAndJumps : Obligations.CallPushesTheReturnAddressAndJumps := by
  intro pre bw src s hwf hp hs s1 hw
  have hpc : (postIncrement src .word s).regs.pc = s.regs.pc :=
    postIncrement_reg_other .word s (SrcOperand.ne_indirectInc_pc hwf)
  rw [exec_call, singleOperand_plain hp hs, Res.ok_andThen, hpc,
    pushValue_plain ((plainStore_congr (postIncrement_env ..) (postIncrement_params ..)).mpr hw)]
  rfl

/-! ## The jumps on carry, and the jumps after CMP (R143, R144, R166) -/

theorem exec_jnc (off : BitVec 10) (s : State) :
    exec (.jnc off) s = jumpIf (!s.regs.sr.getLsbD 0) off s := rfl

theorem exec_jc (off : BitVec 10) (s : State) :
    exec (.jc off) s = jumpIf (s.regs.sr.getLsbD 0) off s := rfl

/-- Settles O27: each jump is `jumpIf` on C, negated for JNC. -/
theorem jncAndJcFollowCarry : Obligations.JncAndJcFollowCarry := by
  intro off x y s
  refine ⟨decodeWords_jumpRow 2#3 off x y, decodeWords_jumpRow 3#3 off x y, ?_, ?_⟩
  · rw [exec_jnc]
    exact jumpIf_of_iff (by rw [Bool.not_eq_true']) off s
  · rw [exec_jc]
    exact jumpIf_of_iff Iff.rfl off s

/-- N xor V after a subtraction is the sign of the exact signed difference. -/
theorem topBit_xor_outOfRange {w : Width} {s d : Word} (hs : Fits w s) (hd : Fits w d) :
    (topBit w (narrow w ((d.toNat : Int) - s.toNat)) ^^ outOfRange w (signedAt w d - signedAt w s))
      = decide (signedAt w d < signedAt w s) := by
  have hss := signedAt_cases hs
  have hsd := signedAt_cases hd
  rw [Bool.eq_iff_iff, bne_iff_ne, ne_eq, Bool.eq_iff_iff, topBit_iff (fits_narrow w _), outOfRange_iff,
    decide_eq_true_iff, narrow_toNat]
  unfold Fits at hs hd
  cases w <;> simp only [half] at hs hd hss hsd ⊢ <;> omega

/-- A jump whose condition is `p`, and one whose condition is its negation. -/
theorem jumpIf_decide {taken : Bool} {p : Prop} [Decidable p] (h : taken = decide p)
    (off : BitVec 10) (t : State) :
    jumpIf taken off t = .next (if p then t.setReg .pc (t.regs.pc + jumpOffset off) else t)
      ∧ jumpIf (!taken) off t
        = .next (if p then t else t.setReg .pc (t.regs.pc + jumpOffset off)) := by
  subst h
  by_cases hp : p <;> simp [jumpIf, hp]

/-- The flags CMP leaves of source `a` and destination `d` (R166). -/
def cmpFlags (w : Width) (a d : Word) : Flags :=
  { c := decide (a.toNat ≤ d.toNat), z := decide (a = d),
    n := topBit w (narrow w ((d.toNat : Int) - a.toNat)),
    v := outOfRange w (signedAt w d - signedAt w a) }

/-- The six jumps where those flags stand compare the operands. -/
theorem jumps_of_cmpFlags {w : Width} {a d : Word} {t : State} (ha : Fits w a) (hd : Fits w d)
    (hflags : t.flags = cmpFlags w a d) (off : BitVec 10) :
    let jumped := t.setReg .pc (t.regs.pc + jumpOffset off)
    exec (.jc off) t = .next (if a.toNat ≤ d.toNat then jumped else t)
      ∧ exec (.jnc off) t = .next (if a.toNat ≤ d.toNat then t else jumped)
      ∧ exec (.jge off) t = .next (if signedAt w a ≤ signedAt w d then jumped else t)
      ∧ exec (.jl off) t = .next (if signedAt w a ≤ signedAt w d then t else jumped)
      ∧ exec (.jeq off) t = .next (if a = d then jumped else t)
      ∧ exec (.jne off) t = .next (if a = d then t else jumped) := by
  have hc : t.flags.c = decide (a.toNat ≤ d.toNat) := congrArg Flags.c hflags
  have hz : t.flags.z = decide (a = d) := congrArg Flags.z hflags
  have hnv : (!(t.flags.n ^^ t.flags.v)) = decide (signedAt w a ≤ signedAt w d) := by
    rw [hflags, cmpFlags, topBit_xor_outOfRange ha hd, ← decide_not, decide_eq_decide, not_lt]
  obtain ⟨hjc, hjnc⟩ := jumpIf_decide hc off t
  obtain ⟨hjge, hjl⟩ := jumpIf_decide hnv off t
  obtain ⟨hjeq, hjne⟩ := jumpIf_decide hz off t
  rw [Bool.not_not] at hjl
  exact ⟨hjc, hjnc, hjge, hjl, hjeq, hjne⟩

/-- Settles O45: the flags CMP leaves are C, Z and N xor V of the comparisons. -/
theorem jumpsAfterCmpCompareTheOperands : Obligations.JumpsAfterCmpCompareTheOperands := by
  intro w src dst off s hb
  exact ⟨_, cmpOnlySetsTheFlagsOfSub w src dst s hb,
    jumps_of_cmpFlags (fits_srcValue w src s) (fits_dstValue w src dst s)
      (State.flags_setFlags _ _) off⟩

end Sys2Proof.Machine

/-! ## The step (R90, R109) and its fetch guards (R45) -/

namespace Sys2Proof.Machine

theorem step_of_fetch_fault {s : State} {f : Fault} (h : fetch6 s.regs.pc s = .fault f) :
    step s = .fault f := by
  simp only [step, fetchInstr, h, Res.fault_andThen]

theorem step_of_fetch_ok {s s1 : State} {bytes : List Byte} {i : Instr}
    (h : fetch6 s.regs.pc s = .ok bytes s1) (hd : decode bytes = .ok i) :
    step s = exec i (s1.setReg .pc (s.regs.pc + BitVec.ofNat 16 (instrWidth i))) := by
  simp only [step, fetchInstr, h, Res.ok_andThen, hd]

/-- The status of a completed step is the level of SR[4] (R109). -/
theorem stepStatus_of_next {s t : State} (h : step s = .next t) :
    stepStatus s = if t.regs.sr.getLsbD 4 then .halted else .ok := by
  simp only [stepStatus, h, statusOf]
  rfl

/-- Settles O7: a step is its fetch, and then the decoded instruction. -/
theorem aStepRunsTheDecodedInstruction : Obligations.AStepRunsTheDecodedInstruction := by
  intro s
  exact ⟨fun f => step_of_fetch_fault, fun bytes s1 i => step_of_fetch_ok, fun i => step_plain,
    fun t => stepStatus_of_next⟩

theorem step_of_fetchGuard {s : State} {f : State → Fault}
    (h : fetchGuardAt s.params s.regs.pc = some f) : step s = .fault (f s) :=
  step_of_fetch_fault (by simp only [fetch6, h]; rfl)

/-- Settles O9: each guard is the fetch's first test. -/
theorem theFetchGuardsStopAStep : Obligations.TheFetchGuardsStopAStep := by
  intro s
  refine ⟨fun h => step_of_fetchGuard ?_, fun h hodd => step_of_fetchGuard ?_⟩
  · rw [fetchGuardAt, if_pos h]
  · rw [fetchGuardAt, if_neg h, if_pos hodd]

/-! ## Where the guards of a word access stop an instruction (R44, R197) -/

theorem accessGuard_odd {a : Word} (h : a.getLsbD 0 = true) (p : Params) :
    accessGuard p .word a = some (Fault.addressUnaligned a) := if_pos h

theorem accessGuard_high {a : Word} {p : Params} (h : a.getLsbD 0 = false)
    (hg : 0xFFFF - a.toNat < p.wordGuard) :
    accessGuard p .word a = some (Fault.addressTooHigh a) := by
  rw [accessGuard, if_neg (by rw [h]; nofun), if_pos hg]

/-- An outcome for every guard is one for an odd address and one for a high address. -/
theorem guard_outcomes {a : Word} {s u : State} {o : Host.Outcome State Fault Refusal}
    (h : ∀ f, accessGuard s.params .word a = some f → o = .fault (f u)) :
    (a.getLsbD 0 = true → o = .fault (.addressUnaligned a u))
      ∧ (a.getLsbD 0 = false → 0xFFFF - a.toNat < s.params.wordGuard →
          o = .fault (.addressTooHigh a u)) :=
  ⟨fun hodd => h _ (accessGuard_odd hodd _), fun heven hhigh => h _ (accessGuard_high heven hhigh)⟩

section
variable {w : Width} {a v w0 : Word} {s : State} {f : State → Fault} {src : SrcOperand}
  {dst : DstOperand} {pre : BitVec 3}

theorem load_of_guard (h : accessGuard s.params w a = some f) : load w a s = .fault (f s) := by
  simp only [load, h, raise]

theorem store_of_guard (h : accessGuard s.params w a = some f) : store w a v s = .fault (f s) := by
  simp only [store, h, raise]

theorem readSrc_of_guard (hl : srcLoc src s = .mem a) (h : accessGuard s.params w a = some f) :
    readSrc src w s = .fault (f s) := by
  rw [readSrc, hl, readLoc, load_of_guard h, Res.fault_andThen]

theorem singleOperand_of_guard (hp : PrefixOk pre s) (hl : srcLoc src s = .mem a)
    (h : accessGuard s.params w a = some f) : singleOperand w0 pre w src s = .fault (f s) := by
  rw [singleOperand, prefixRefused_of_ok hp, if_neg nofun, readSrc_of_guard hl h]

theorem twoOperand_of_src_guard {reads writes : Bool} {g : Word → Word → Flags → Alu}
    (hl : srcLoc src s = .mem a) (h : accessGuard s.params w a = some f) :
    twoOperand w0 reads writes w src dst g s = .fault (f s) := by
  rw [twoOperand, readSrc_of_guard hl h, Res.fault_andThen]

/-- A destination's guard stops the read, or the store of an instruction that keeps the flags and does not
read. -/
theorem twoOperand_of_dst_guard {reads writes : Bool} {g : Word → Word → Flags → Alu}
    (hs : SrcReady w src s) (hl : dstLoc w src dst s = .mem a)
    (h : accessGuard s.params w a = some f)
    (hr : reads = false → writes = true ∧ KeepsFlags g) :
    twoOperand w0 reads writes w src dst g s = .fault (f (postIncrement src w s)) := by
  have hg : accessGuard (postIncrement src w s).params w a = some f := by
    rwa [postIncrement_params]
  have hl' : locateDst dst (postIncrement src w s) = .mem a := hl
  rw [twoOperand, readSrc_plain hs, Res.ok_andThen, hl']
  cases reads with
  | true => rw [readDst, if_pos rfl, readLoc, load_of_guard hg, Res.fault_andThen]
  | false =>
    obtain ⟨rfl, hkeep⟩ := hr rfl
    rw [readDst, if_neg nofun, Res.ok_andThen, if_pos rfl, hkeep, State.setFlags_flags, writeLoc,
      store_of_guard hg]

end

/-- The double-operand instructions but DADD write their result or compare. -/
theorem doubleForms_cases {i : Instr} {w : Width} {src : SrcOperand} {dst : DstOperand}
    (h : i ∈ [.mov w src dst, .cmp w src dst, .bit w src dst] ++ computingForms w src dst) :
    i ∈ Instr.mov w src dst :: computingForms w src dst ∨ i ∈ [Instr.cmp w src dst, .bit w src dst] := by
  simp only [List.cons_append, List.nil_append, List.mem_cons] at h
  rcases h with rfl | rfl | rfl | h
  · exact .inl List.mem_cons_self
  · exact .inr (by simp)
  · exact .inr (by simp)
  · exact .inl (List.mem_cons_of_mem _ h)

/-- A word-sized source read is the first access of every instruction that reads one. -/
theorem exec_of_src_guard {i : Instr} {pre : BitVec 3} {bw : Width} {src : SrcOperand}
    {dst : DstOperand} {s : State} {a : Word} {f : State → Fault}
    (hi : (PrefixOk pre s ∧ (i, Width.word) ∈ readingForms pre bw src)
      ∨ i ∈ [.mov .word src dst, .cmp .word src dst, .bit .word src dst]
          ++ computingForms .word src dst)
    (hl : srcLoc src s = .mem a) (h : accessGuard s.params .word a = some f) :
    exec i s = .fault (f s) := by
  rcases hi with ⟨hp, hi⟩ | hi
  · rcases List.mem_append.mp hi with hi | hi
    · obtain ⟨g, e⟩ := exec_rewriting hi s
      rw [e, rewriteOperand, singleOperand_of_guard hp hl h]
      rfl
    · rcases List.mem_pair.mp hi with hi | hi <;> cases hi
      · rw [exec_push, singleOperand_of_guard hp hl h]
        rfl
      · rw [exec_call, singleOperand_of_guard hp hl h]
        rfl
  · rcases doubleForms_cases hi with hi | hi
    · obtain ⟨reads, g, e⟩ := exec_writing hi s
      rw [e, twoOperand_of_src_guard hl h]
      rfl
    · obtain ⟨g, e⟩ := exec_comparing hi s
      rw [e, twoOperand_of_src_guard hl h]
      rfl

/-- Settles O33: the guard of the source read stops the instruction in the state it found. -/
theorem aBadSourceAddressFaultsFirst : Obligations.ABadSourceAddressFaultsFirst := by
  intro pre bw src dst s a hl i hi
  exact guard_outcomes fun f h => exec_of_src_guard hi hl h

/-- A destination's guard stops every double-operand instruction, the post-increment made. -/
theorem exec_of_dst_guard {i : Instr} {w : Width} {src : SrcOperand} {dst : DstOperand} {s : State}
    {a : Word} {f : State → Fault}
    (hi : i ∈ [.mov w src dst, .cmp w src dst, .bit w src dst] ++ computingForms w src dst)
    (hs : SrcReady w src s) (hl : dstLoc w src dst s = .mem a)
    (h : accessGuard s.params w a = some f) : exec i s = .fault (f (postIncrement src w s)) := by
  rcases doubleForms_cases hi with hi | hi
  · obtain ⟨g, hg⟩ := exists_writingComputation hi
    obtain ⟨reads, hreads, e⟩ := exec_writingComputation hg s
    rw [e, twoOperand_of_dst_guard hs hl h fun hr => ⟨rfl, hreads hr ▸ fun _ _ _ => rfl⟩]
    rfl
  · obtain ⟨g, e⟩ := exec_comparing hi s
    rw [e, twoOperand_of_dst_guard (reads := true) hs hl h nofun]
    rfl

/-- Settles O34: the guard of the destination stops the instruction once the source is read. -/
theorem aBadDestinationAddressKeepsThePostIncrement :
    Obligations.ABadDestinationAddressKeepsThePostIncrement := by
  intro src dst s a hs hl i hi
  exact guard_outcomes fun f h => exec_of_dst_guard hi hs hl h

theorem pushValue_of_guard {w : Width} {v : Word} {s : State} {f : State → Fault}
    (h : accessGuard s.params w (s.regs.sp - 2#16) = some f) :
    pushValue w v s = .fault (f (s.setReg .sp (s.regs.sp - 2#16))) := store_of_guard h

/-- Settles O35: the guard of the push stops the instruction once SP is moved. -/
theorem aBadStackAddressLeavesTheStackPointerMoved :
    Obligations.ABadStackAddressLeavesTheStackPointerMoved := by
  intro pre bw src s hp hs s1 a i hi
  refine guard_outcomes fun f h => ?_
  have hpush : ∀ v, pushValue .word v s1 = .fault (f (s1.setReg .sp a)) := fun v =>
    pushValue_of_guard (by rwa [postIncrement_params])
  rcases List.mem_pair.mp hi with rfl | rfl
  · rw [exec_push, singleOperand_plain hp hs, Res.ok_andThen, hpush]
    rfl
  · rw [exec_call, singleOperand_plain hp hs, Res.ok_andThen, hpush]
    rfl

/-! ## Where bits 12:10 or a missing location stop an instruction (R63, R104) -/

theorem singleOperand_refused {pre : BitVec 3} {s : State} (h : s.params.sopPrefix = .strict)
    (hpre : pre ≠ 0b100#3) (w0 : Word) (w : Width) (src : SrcOperand) :
    singleOperand w0 pre w src s = .fault (.unsupported w0 s) := by
  have hrefused : prefixRefused pre s.params = true := by simp [prefixRefused, h, hpre]
  rw [singleOperand, hrefused]
  rfl

/-- The single-operand forms are those that read their operand and the two unimplemented ones. -/
theorem singleForms_cases {i : Instr} {pre : BitVec 3} {bw : Width} {src : SrcOperand}
    (h : i ∈ singleForms pre bw src) :
    (∃ w, (i, w) ∈ rewritingForms pre bw src) ∨ (∃ w, (i, w) ∈ stackForms pre bw src)
      ∨ i = .reti pre bw src ∨ i = .reserved7 pre bw src := by
  simp only [singleForms, List.mem_cons, List.not_mem_nil, or_false] at h
  rcases h with rfl | rfl | rfl | rfl | rfl | rfl | rfl | rfl
  · exact .inl ⟨bw, by simp [rewritingForms]⟩
  · exact .inl ⟨.word, by simp [rewritingForms]⟩
  · exact .inl ⟨bw, by simp [rewritingForms]⟩
  · exact .inl ⟨.word, by simp [rewritingForms]⟩
  · exact .inr (.inl ⟨bw, by simp [stackForms]⟩)
  · exact .inr (.inl ⟨.word, by simp [stackForms]⟩)
  · exact .inr (.inr (.inl rfl))
  · exact .inr (.inr (.inr rfl))

theorem firstWord_singleForms {i : Instr} {pre : BitVec 3} {bw : Width} {src : SrcOperand}
    (h : i ∈ singleForms pre bw src) : ∃ opc, firstWord i = singleWord opc pre bw src := by
  simp only [singleForms, List.mem_cons, List.not_mem_nil, or_false] at h
  rcases h with rfl | rfl | rfl | rfl | rfl | rfl | rfl | rfl <;> exact ⟨_, rfl⟩

/-- Settles O31: bits 12:10 are tested before the operand, and two of the forms fault in any case. -/
theorem aStrictPrefixViolationRaisesUnsupported :
    Obligations.AStrictPrefixViolationRaisesUnsupported := by
  intro pre bw src s hstrict hpre i hi
  constructor
  · obtain ⟨opc, e⟩ := firstWord_singleForms hi
    obtain ⟨-, hfield, -⟩ := singleWord_fields opc pre bw src
    rw [e]
    exact hfield
  · rcases singleForms_cases hi with ⟨w, h⟩ | ⟨w, h⟩ | rfl | rfl
    · obtain ⟨f, e⟩ := exec_rewriting h s
      rw [e, rewriteOperand, singleOperand_refused hstrict hpre]
      rfl
    · rcases List.mem_pair.mp h with h | h <;> cases h
      · rw [exec_push, singleOperand_refused hstrict hpre]
        rfl
      · rw [exec_call, singleOperand_refused hstrict hpre]
        rfl
    · exact exec_reti pre bw src s
    · exact exec_reserved7 pre bw src s

/-- A result for an operand with no location is not stored, the flags written (R104, R108). -/
theorem twoOperand_noLoc {w0 : Word} {reads : Bool} {w : Width} {src : SrcOperand} {dst : DstOperand}
    {f : Word → Word → Flags → Alu} {s : State} {k : Word} (hs : SrcReady w src s)
    (hl : dstLoc w src dst s = .noLoc k) (hr : reads = false → f = aluMov) :
    twoOperand w0 reads true w src dst f s = .fault (.badOperand w0 ((postIncrement src w s).setFlags
      (f (srcValue w src s) (k &&& mask w) (postIncrement src w s).flags).flags)) := by
  have hl' : locateDst dst (postIncrement src w s) = .noLoc k := hl
  rw [twoOperand, readSrc_plain hs, Res.ok_andThen, hl']
  cases reads with
  | true => rfl
  | false => rw [hr rfl]; rfl

/-- An operand with no location is a constant or an immediate, and has no post-increment. -/
theorem postIncrement_noLoc {src : SrcOperand} {s : State} {k : Word} (h : srcLoc src s = .noLoc k)
    (w : Width) : postIncrement src w s = s := by
  cases src with
  | immediate x => rfl
  | const c => rfl
  | reg r => cases h
  | indexed r x => cases h
  | absolute x => cases h
  | indirect r => cases h
  | indirectInc r => cases h

theorem rewriteOperand_noLoc {w0 : Word} {pre : BitVec 3} {w : Width} {src : SrcOperand}
    {f : Word → Flags → Alu} {s : State} {k : Word} (hp : PrefixOk pre s)
    (hl : srcLoc src s = .noLoc k) :
    rewriteOperand w0 pre w src f s
      = .fault (.badOperand w0 (s.setFlags (f (k &&& mask w) s.flags).flags)) := by
  have hread : singleOperand w0 pre w src s = .ok (k &&& mask w) s := by
    rw [singleOperand, prefixRefused_of_ok hp, if_neg nofun, readSrc, hl, readLoc, Res.ok_andThen,
      postIncrement_noLoc hl]
  rw [rewriteOperand, hread, hl]
  rfl

/-- Settles O32: the write is the last access, so all before it is kept. -/
theorem writingAConstantRaisesBadOperand : Obligations.WritingAConstantRaisesBadOperand := by
  constructor
  · intro w src c s hs s1 p hp
    obtain ⟨reads, hr, e⟩ := exec_writingComputation hp s
    rw [e, twoOperand_noLoc (k := constValue c) hs rfl hr]
    rfl
  · intro pre bw src k s hpre hl p hp
    rw [exec_rewritingComputation hp, rewriteOperand_noLoc hpre hl]
    rfl

/-! ## MOV with and without the read of its destination (R103, D10) -/

/-- `s` with `P_MOV_READS_DST` set to `b`. -/
def State.movReads (b : Bool) (s : State) : State :=
  { s with params := { s.params with movReadsDst := b } }

section
variable (b : Bool) (s : State)

theorem accessGuard_movReads (w : Width) (a : Word) :
    accessGuard (s.movReads b).params w a = accessGuard s.params w a := by cases w <;> rfl

theorem postIncrement_movReads (o : SrcOperand) (w : Width) :
    postIncrement o w (s.movReads b) = (postIncrement o w s).movReads b := by cases o <;> rfl

theorem srcLoc_movReads (o : SrcOperand) : srcLoc o (s.movReads b) = srcLoc o s := by
  cases o <;> rfl

theorem dstLoc_movReads (w : Width) (src : SrcOperand) (dst : DstOperand) :
    dstLoc w src dst (s.movReads b) = dstLoc w src dst s := by
  rw [dstLoc, postIncrement_movReads]
  cases dst <;> rfl

theorem valueAt_movReads (l : Loc) (w : Width) : valueAt l w (s.movReads b) = valueAt l w s := by
  cases l <;> cases w <;> rfl

theorem putAt_movReads (l : Loc) (w : Width) (v : Word) :
    putAt l w v (s.movReads b) = (putAt l w v s).movReads b := by
  cases l <;> cases w <;> rfl

theorem readable_movReads (l : Loc) (w : Width) : Readable l w (s.movReads b) ↔ Readable l w s := by
  cases l <;> exact Iff.rfl

theorem writable_movReads (l : Loc) (w : Width) : Writable l w (s.movReads b) ↔ Writable l w s := by
  cases l <;> exact Iff.rfl

end

/-- Where nothing is bound, a location has its guard's fault, no storage, or can be read and written. -/
theorem loc_cases_of_unbound {w : Width} {s : State}
    (h : ∀ a, s.env.bindsLoad w a = false ∧ s.env.bindsStore w a = false) (l : Loc) :
    (∃ a f, l = .mem a ∧ accessGuard s.params w a = some f)
      ∨ (Readable l w s ∧ ((∃ k, l = .noLoc k) ∨ Writable l w s)) := by
  cases l with
  | reg r => exact .inr ⟨trivial, .inr trivial⟩
  | noLoc k => exact .inr ⟨trivial, .inl ⟨k, rfl⟩⟩
  | mem a =>
    cases hg : accessGuard s.params w a with
    | some f => exact .inl ⟨a, f, rfl, hg⟩
    | none =>
      exact .inr ⟨⟨accessGuard_none.mp hg, (h a).1⟩, .inr ⟨accessGuard_none.mp hg, (h a).2⟩⟩

/-- A fault of one kind, for every state it may leave. -/
def FaultKind (f : State → Fault) : Prop := ∀ x, (f x).left = x ∧ ∀ y, (f x).code = (f y).code

theorem faultKind_of_accessGuard {p : Params} {w : Width} {a : Word} {f : State → Fault}
    (h : accessGuard p w a = some f) : FaultKind f := by
  rcases accessGuard_cases h with rfl | rfl <;> exact fun x => ⟨rfl, fun y => rfl⟩

/-- Where nothing is bound, MOV ends in one way for both settings. -/
theorem exec_mov_unbound {w : Width} {s : State}
    (h : ∀ a, s.env.bindsLoad w a = false ∧ s.env.bindsStore w a = false) (src : SrcOperand)
    (dst : DstOperand) :
    (∃ t : State, ∀ b, exec (.mov w src dst) (s.movReads b) = .next (t.movReads b))
      ∨ ∃ f u, FaultKind f ∧
          ∀ b, exec (.mov w src dst) (s.movReads b) = .fault (f (State.movReads b u)) := by
  rcases loc_cases_of_unbound h (srcLoc src s) with ⟨a, f, hl, hg⟩ | ⟨hs, -⟩
  · refine .inr ⟨f, s, faultKind_of_accessGuard hg, fun b => ?_⟩
    have hrun := twoOperand_of_src_guard (w0 := firstWord (.mov w src dst)) (dst := dst) (reads := b)
      (writes := true) (g := aluMov) ((srcLoc_movReads b s src).trans hl)
      ((accessGuard_movReads b s w a).trans hg)
    exact congrArg Res.outcome hrun
  have hready : ∀ b, SrcReady w src (s.movReads b) := fun b => by
    rw [SrcReady, srcLoc_movReads]
    exact (readable_movReads b s _ w).mpr hs
  have hunbound : ∀ a, (postIncrement src w s).env.bindsLoad w a = false
      ∧ (postIncrement src w s).env.bindsStore w a = false := by rwa [postIncrement_env]
  rcases loc_cases_of_unbound hunbound (dstLoc w src dst s) with ⟨a, f, hl, hg⟩ | ⟨hd, ⟨k, hl⟩ | hw⟩
  · refine .inr ⟨f, postIncrement src w s, faultKind_of_accessGuard hg, fun b => ?_⟩
    rw [postIncrement_params] at hg
    rw [← postIncrement_movReads]
    exact exec_of_dst_guard (by simp) (hready b) ((dstLoc_movReads b s w src dst).trans hl)
      ((accessGuard_movReads b s w a).trans hg)
  · refine .inr ⟨Fault.badOperand (firstWord (.mov w src dst)), postIncrement src w s,
      fun x => ⟨rfl, fun y => rfl⟩, fun b => ?_⟩
    have hrun := twoOperand_noLoc (w0 := firstWord (.mov w src dst)) (reads := b) (hready b)
      ((dstLoc_movReads b s w src dst).trans hl) (f := aluMov) (fun _ => rfl)
    rw [aluMov, State.setFlags_flags, postIncrement_movReads] at hrun
    exact congrArg Res.outcome hrun
  · refine .inl ⟨putAt (dstLoc w src dst s) w (srcValue w src s) (postIncrement src w s), fun b => ?_⟩
    have hread : Readable (dstLoc w src dst (s.movReads b)) w (postIncrement src w (s.movReads b)) := by
      rw [dstLoc_movReads, postIncrement_movReads]
      exact (readable_movReads b _ _ w).mpr hd
    have hwrite : DstWritable w src dst (s.movReads b) := by
      rw [DstWritable, dstLoc_movReads, postIncrement_movReads]
      exact (writable_movReads b _ _ w).mpr hw
    have hrun := movCopiesTheSource w src dst (s.movReads b) (hready b) (fun _ => ⟨hready b, hread⟩) hwrite
    rwa [dstLoc_movReads, srcValue, srcLoc_movReads, valueAt_movReads, postIncrement_movReads,
      putAt_movReads] at hrun

/-- Settles O46: MOV's one way of ending does not tell the setting. -/
theorem whetherMovReadsItsDestinationIsInvisible :
    Obligations.WhetherMovReadsItsDestinationIsInvisible := by
  intro w src dst s h set
  have hset : ∀ b x, set b x = State.movReads b x := fun _ _ => rfl
  have htwice : ∀ b c x, State.movReads b (State.movReads c x) = State.movReads b x :=
    fun _ _ _ => rfl
  simp only [hset]
  rcases exec_mov_unbound h src dst with ⟨u, hu⟩ | ⟨f, u, hf, hu⟩
  · refine ⟨fun t ht => ?_, fun g hg => ?_⟩
    · cases (hu true).symm.trans ht
      rw [hu, htwice]
    · cases (hu true).symm.trans hg
  · refine ⟨fun t ht => ?_, fun g hg => ?_⟩
    · cases (hu true).symm.trans ht
    · cases (hu true).symm.trans hg
      refine ⟨_, hu false, (hf _).2 _, ?_⟩
      rw [(hf _).1, (hf _).1, htwice]

end Sys2Proof.Machine

/-! ## Loads and stores of the flat store (R42 to R44, R51) -/

namespace Sys2Proof.Machine

/-- Addresses less than the whole space apart differ. -/
theorem add_ofNat_ne {a : Word} {k : Nat} (h0 : 0 < k) (h : k < 65536) : a ≠ a + BitVec.ofNat 16 k := by
  intro e
  have hzero := congrArg BitVec.toNat (left_eq_add.mp e)
  rw [BitVec.toNat_ofNat, Nat.mod_eq_of_lt h] at hzero
  exact absurd hzero (Nat.ne_of_gt h0)

theorem ne_add_one (a : Word) : a ≠ a + 1#16 := add_ofNat_ne (k := 1) (by decide) (by decide)

/-- A store puts the low byte at the address (R42). -/
theorem byteAt_putStored_low {s : State} (w : Width) (a v : Word) (h : Memory.wf s.mem) :
    (s.putStored w a v).byteAt a = lowByte v := by
  cases w with
  | byte => exact State.byteAt_setByte_same a _ h
  | word =>
    exact (State.byteAt_setByte_other _ _ (ne_add_one a)).trans (State.byteAt_setByte_same a _ h)

/-- A word store puts the high byte at the next address (R42). -/
theorem byteAt_putStored_high {s : State} (a v : Word) (h : Memory.wf s.mem) :
    (s.putStored .word a v).byteAt (a + 1#16) = highByte v :=
  State.byteAt_setByte_same _ _ (State.wf_setByte a _ h)

/-- A stored value reads back at its width (R51). -/
theorem stored_putStored {s : State} (w : Width) (a v : Word) (h : Memory.wf s.mem) :
    (s.putStored w a v).stored w a = v &&& mask w := by
  cases w with
  | word =>
    rw [State.stored, byteAt_putStored_low .word a v h, byteAt_putStored_high a v h,
      wordOfBytes_low_high]
    exact BitVec.and_allOnes.symm
  | byte =>
    apply BitVec.eq_of_toNat_eq
    rw [State.stored, byteAt_putStored_low .byte a v h, toNat_and_mask,
      BitVec.toNat_setWidth_of_le (by decide), lowByte_toNat]
    rfl

/-- What can be loaded does not depend on what is stored. -/
theorem plainLoad_putStored {w : Width} {a v : Word} {s : State} (h : PlainLoad w a s) :
    PlainLoad w a (s.putStored w a v) :=
  (readable_congr (l := .mem a) (State.putStored_env ..) (State.putStored_params ..)).mpr h

/-- Settles O47: a store that nothing answers is `putStored`. -/
theorem aLoadReturnsTheLastStore : Obligations.ALoadReturnsTheLastStore := by
  intro w a v s hwf hs
  refine ⟨s.putStored w a v, store_plain hs, State.putStored_regs .., fun hl => ?_,
    byteAt_putStored_low w a v hwf, fun hw => ?_, fun b hb => byteAt_putStored_other s v hb⟩
  · rw [load_plain (plainLoad_putStored hl), stored_putStored w a v hwf]
  · subst hw
    exact byteAt_putStored_high a v hwf

/-- Settles O48: the guard is the first test of both accesses. -/
theorem theWordGuardsStopLoadsAndStores : Obligations.TheWordGuardsStopLoadsAndStores := by
  intro a v s
  exact ⟨fun hodd => ⟨load_of_guard (accessGuard_odd hodd _), store_of_guard (accessGuard_odd hodd _)⟩,
    fun heven hhigh => ⟨load_of_guard (accessGuard_high heven hhigh),
      store_of_guard (accessGuard_high heven hhigh)⟩⟩

/-- A byte access covers a console address only by being at it. -/
theorem atConsole_byte {e : Env} {a : Word} (h : a ∉ e.console) :
    e.atConsole a (size .byte).toNat = false := by
  rw [Env.atConsole, List.any_eq_false]
  intro c hc hlt
  have hzero : c - a = 0#16 := BitVec.eq_of_toNat_eq (Nat.lt_one_iff.mp (of_decide_eq_true hlt))
  exact h (sub_eq_zero.mp hzero ▸ hc)

theorem load_byte_unhooked {a : Word} {s : State} (h : a ∉ s.env.readHooks) :
    load .byte a s = flatLoad .byte a s := by
  have hb : s.env.hooksLoad a = false := by simpa [Env.hooksLoad] using h
  simp only [load, accessGuard_byte, hb]
  rfl

theorem store_byte_unhooked {a v : Word} {s : State} (h : a ∉ s.env.writeHooks) :
    store .byte a v s = flatStore .byte a v s := by
  have hb : s.env.hooksStore a = false := by simpa [Env.hooksStore] using h
  simp only [store, accessGuard_byte, hb]
  rfl

/-- Settles O49: a byte access has no guard, and the flat store never faults. -/
theorem byteAccessesNeverFault : Obligations.ByteAccessesNeverFault := by
  intro a v s
  refine ⟨fun h => ?_, fun h => ?_⟩
  · rw [load_byte_unhooked h]
    rcases flatLoad_cases .byte a s with ⟨-, e⟩ | ⟨hc, e⟩ <;> rw [e]
    · exact ⟨_, _, rfl, rfl, rfl, fun _ => ⟨rfl, rfl⟩⟩
    · refine ⟨_, _, rfl, rfl, rfl, fun hn => ?_⟩
      rw [atConsole_byte hn] at hc
      cases hc
  · rw [store_byte_unhooked h]
    rcases flatStore_cases .byte a v s with ⟨-, e⟩ | ⟨hc, e⟩ <;> rw [e]
    · exact ⟨_, rfl, rfl, fun b hb => State.byteAt_setByte_other s _ hb, fun _ => rfl⟩
    · refine ⟨_, rfl, rfl, fun b hb => State.byteAt_setByte_other _ _ hb, fun hn => ?_⟩
      rw [atConsole_byte hn] at hc
      cases hc

/-! ## Hooks (R47, R49, R198) -/

theorem asksOnce (q : Request) (s : State) : AsksOnce q s := by
  constructor
  · intro x rest h
    simp [State.answer, State.sent, Env.ask, h]
  · intro h
    simp [State.answer, State.sent, Env.ask, h]

/-- Settles O50: past its guard, a hooked store is the hook's answer. -/
theorem aWriteHookReplacesTheStore : Obligations.AWriteHookReplacesTheStore := by
  intro w a v s hmem hguard q
  have hg := accessGuard_none.mpr hguard
  have hb : s.env.hooksStore a = true := List.contains_iff_mem.mpr hmem
  refine ⟨asksOnce q s, fun x l h => ?_, fun e l h => ?_, fun l h => ?_⟩ <;>
    simp only [store, hg, hb, if_true, raise, q] at h ⊢ <;> rw [h]

theorem load_ne_collaborator (w : Width) (a : Word) (s : State) (e : CollabError) (t : State) :
    load w a s ≠ .fault (.collaborator e t) := by
  intro h
  rcases load_cases w a s with ⟨f, hg, e'⟩ | ⟨-, -, e'⟩ | ⟨-, -, ⟨x, l, -, e'⟩ | ⟨x, l, -, e'⟩ | ⟨l, -, e'⟩⟩
    <;> rw [e'] at h
  · rcases accessGuard_cases hg with rfl | rfl <;> cases h
  · obtain ⟨v, u, hf, -⟩ := flatLoad_ok w a s
    rw [hf] at h
    cases h
  · cases h
  · obtain ⟨v, u, hf, -⟩ := flatLoad_ok w a (s.sent (.load a w))
    rw [hf] at h
    cases h
  · cases h

/-- Asking a hook leaves the console addresses as they were. -/
theorem atConsole_sent (s : State) (q : Request) (a : Word) (n : Nat) :
    (s.sent q).env.atConsole a n = s.env.atConsole a n := by
  obtain ⟨hc, -⟩ := Env.ask_bindings s.env q
  rw [Env.atConsole, State.sent_env, hc, Env.atConsole]

/-- Settles O51: past its guard, a hooked load is the hook's value, or the flat store's for its error. -/
theorem aReadHookNeverFailsALoad : Obligations.AReadHookNeverFailsALoad := by
  intro w a s
  refine ⟨load_ne_collaborator w a s, ?_⟩
  intro hmem hguard q
  have hg := accessGuard_none.mpr hguard
  have hb : s.env.hooksLoad a = true := List.contains_iff_mem.mpr hmem
  have herror : ∀ e l, s.answer q = .error e l → load w a s = flatLoad w a (s.sent q) :=
    fun e l h => by simp only [load, hg, hb, if_true, q] at h ⊢; rw [h]
  refine ⟨asksOnce q s, fun v l h => ?_, fun e l h => ⟨herror e l h, fun hc => ?_, fun hc => ?_⟩,
    fun l h => ?_⟩
  · simp only [load, hg, hb, if_true, q] at h ⊢
    rw [h]
  · rw [herror e l h, flatLoad, atConsole_sent, hc]
    rfl
  · refine ⟨(s.sent q).consoleValue.setWidth 16 &&& mask w, ?_⟩
    rw [herror e l h, flatLoad, atConsole_sent, if_pos hc]
  · simp only [load, hg, hb, if_true, raise, q] at h ⊢
    rw [h]

/-! ## Stores into the instruction stream (R54) -/

/-- The words of a window after its first. -/
theorem wordAt_windowAt (s : State) (a : Word) :
    wordAt (s.windowAt a) 1 = wordOfBytes (s.byteAt (a + 2#16)) (s.byteAt (a + 3#16))
      ∧ wordAt (s.windowAt a) 2 = wordOfBytes (s.byteAt (a + 4#16)) (s.byteAt (a + 5#16)) := by
  simp [wordAt, State.windowAt, windowBytes, List.range_succ]

/-- The bytes of a window after a word stored at its start. -/
theorem not_covers_add {a k : Word} (h0 : k ≠ 0#16) (h1 : k ≠ 1#16) : ¬ Covers .word a (a + k) := by
  rintro (h | h)
  · exact h0 (left_eq_add.mp h.symm)
  · exact h1 (add_left_cancel h)

/-- A window once a word is stored at its start (R42, R54). -/
theorem decode_windowAt_putStored {s : State} (a v : Word) (h : Memory.wf s.mem) :
    decode ((s.putStored .word a v).windowAt a)
      = .ok (decodeWords v (wordAt (s.windowAt a) 1) (wordAt (s.windowAt a) 2)) := by
  have hkept : ∀ k : Word, k ≠ 0#16 → k ≠ 1#16 →
      (s.putStored .word a v).byteAt (a + k) = s.byteAt (a + k) :=
    fun k h0 h1 => byteAt_putStored_other s v (not_covers_add h0 h1)
  have hfirst : wordAt ((s.putStored .word a v).windowAt a) 0 = v := by
    rw [wordAt_windowAt_zero, byteAt_putStored_low .word a v h, byteAt_putStored_high a v h,
      wordOfBytes_low_high]
  obtain ⟨h1, h2⟩ := wordAt_windowAt s a
  obtain ⟨h1', h2'⟩ := wordAt_windowAt (s.putStored .word a v) a
  rw [decode_six (windowAt_length _ a), hfirst, h1, h2, h1', h2', hkept 2#16 (by decide) (by decide),
    hkept 3#16 (by decide) (by decide), hkept 4#16 (by decide) (by decide),
    hkept 5#16 (by decide) (by decide)]

/-- Settles O52: the store is in the window that the next fetch reads. -/
theorem aStepSeesAStoreIntoItsInstruction : Obligations.AStepSeesAStoreIntoItsInstruction := by
  intro v s hwf hs hg hb
  refine ⟨s.putStored .word s.regs.pc v, store_plain hs, ?_⟩
  intro i
  have hpc : (s.putStored .word s.regs.pc v).regs.pc = s.regs.pc := by rw [State.putStored_regs]
  have hstep := step_plain (s := s.putStored .word s.regs.pc v) (i := i)
    (by rwa [State.putStored_params, hpc]) (by rwa [State.putStored_env, hpc])
    (by rw [hpc]; exact decode_windowAt_putStored s.regs.pc v hwf)
  rwa [hpc] at hstep

/-! ## Memory initialisation (R222) -/

/-- The address `k` bytes after the next one. -/
theorem add_one_add_ofNat (a : Word) (k : Nat) :
    a + 1#16 + BitVec.ofNat 16 k = a + BitVec.ofNat 16 (k + 1) := by
  rw [BitVec.add_assoc, ← BitVec.ofNat_add, Nat.add_comm]

/-- Placing bytes changes no byte elsewhere. -/
theorem byteAt_placeBytes_other {bytes : List Byte} {a x : Word} (s : State)
    (h : ∀ k, k < bytes.length → x ≠ a + BitVec.ofNat 16 k) :
    (placeBytes a bytes s).byteAt x = s.byteAt x := by
  induction bytes generalizing a s with
  | nil => rfl
  | cons b rest ih =>
    have hx : x ≠ a := fun e => h 0 (Nat.succ_pos _) (e.trans (BitVec.add_zero a).symm)
    refine (ih _ fun k hk => ?_).trans (State.byteAt_setByte_other s b hx)
    rw [add_one_add_ofNat]
    exact h (k + 1) (Nat.succ_lt_succ hk)

/-- Placed bytes read back, the address space being long enough (log 9). -/
theorem byteAt_placeBytes {bytes : List Byte} {a : Word} {s : State} (hwf : Memory.wf s.mem)
    (hlen : bytes.length ≤ 65536) {k : Nat} (hk : k < bytes.length) :
    (placeBytes a bytes s).byteAt (a + BitVec.ofNat 16 k) = bytes[k] := by
  induction bytes generalizing a s k with
  | nil => cases hk
  | cons b rest ih =>
    rw [List.length_cons] at hlen
    cases k with
    | zero =>
      have hkept : (placeBytes (a + 1#16) rest (s.setByte a b)).byteAt a = (s.setByte a b).byteAt a :=
        byteAt_placeBytes_other _ fun j hj => by
          rw [add_one_add_ofNat]
          exact add_ofNat_ne (Nat.succ_pos j) (by omega)
      have hzero : a + BitVec.ofNat 16 0 = a := BitVec.add_zero a
      rw [hzero]
      exact hkept.trans (State.byteAt_setByte_same a b hwf)
    | succ k =>
      rw [← add_one_add_ofNat]
      exact ih (State.wf_setByte a b hwf) (by omega) (Nat.lt_of_succ_lt_succ hk)

/-- Settles O53: an image is placed byte after byte, and reset-to-zero lists no byte. -/
theorem anImageReadsBackInOrder : Obligations.AnImageReadsBackInOrder := by
  refine ⟨fun s a => rfl, fun base bytes s hwf hlen => ?_⟩
  apply List.ext_getElem
  · simp [readRange]
  · intro k h1 h2
    simp only [readRange, List.getElem_map, List.getElem_range]
    exact byteAt_placeBytes hwf hlen h2

/-! ## Canonical memories (R41) -/

/-- A byte that differs from an unlisted one is listed. -/
theorem Memory.mem_of_read_ne {m : Memory} {a : Nat} (h : m.read a ≠ Config.unlistedByte) :
    ∃ c ∈ m, c.1 = a := by
  induction m with
  | nil => exact absurd rfl h
  | cons c rest ih =>
    obtain ⟨k, v⟩ := c
    by_cases hk : k = a
    · exact ⟨(k, v), List.mem_cons_self, hk⟩
    · rw [Memory.read_cons, if_neg hk] at h
      obtain ⟨c, hc, hca⟩ := ih h
      exact ⟨c, List.mem_cons_of_mem _ hc, hca⟩

/-- Two memories read alike over the whole space. -/
def ReadAlike (m n : Memory) : Prop := ∀ a, a < 65536 → m.read a = n.read a

/-- The first address listed in one of two alike memories is listed in the other. -/
theorem ReadAlike.mem_head {k : Nat} {v : Byte} {m n : Memory} (h : ReadAlike ((k, v) :: m) n)
    (hwf : Memory.wf ((k, v) :: m)) : ∃ c ∈ n, c.1 = k := by
  obtain ⟨-, -, hk, hv⟩ := Memory.wf_cons hwf
  refine Memory.mem_of_read_ne ?_
  rwa [← h k hk, Memory.read_cons, if_pos rfl]

/-- No listed address is below the first. -/
theorem Memory.head_le {k : Nat} {v : Byte} {m : Memory} (hwf : Memory.wf ((k, v) :: m))
    {c : Host.Cell} (hc : c ∈ (k, v) :: m) : k ≤ c.1 := by
  obtain ⟨hlt, -⟩ := Memory.wf_cons hwf
  rcases List.mem_cons.mp hc with rfl | hc
  · exact le_refl _
  · exact le_of_lt (hlt c hc)

/-- Past one first address, alike memories have alike rests. -/
theorem ReadAlike.tail {k : Nat} {v u : Byte} {m n : Memory}
    (h : ReadAlike ((k, v) :: m) ((k, u) :: n)) (hm : Memory.wf ((k, v) :: m))
    (hn : Memory.wf ((k, u) :: n)) : ReadAlike m n := by
  intro a ha
  by_cases hk : k = a
  · subst hk
    rw [Memory.read_of_lt (Memory.wf_cons hm).1, Memory.read_of_lt (Memory.wf_cons hn).1]
  · have := h a ha
    rwa [Memory.read_cons, Memory.read_cons, if_neg hk, if_neg hk] at this

/-- Settles O54: by induction on both lists, whose first cells are alike. -/
theorem memoriesThatReadAlikeAreEqual : Obligations.MemoriesThatReadAlikeAreEqual := by
  intro m n hm hn h
  induction m generalizing n with
  | nil =>
    cases n with
    | nil => rfl
    | cons d n =>
      obtain ⟨c, hc, -⟩ := ReadAlike.mem_head (fun a ha => (h a ha).symm) hn
      cases hc
  | cons c m ih =>
    obtain ⟨k, v⟩ := c
    obtain ⟨c, hc, hck⟩ := ReadAlike.mem_head h hm
    cases n with
    | nil => cases hc
    | cons d n =>
      obtain ⟨k', u⟩ := d
      obtain ⟨d, hd, hdk⟩ := ReadAlike.mem_head (fun a ha => (h a ha).symm) hn
      have hkk : k' = k := le_antisymm (hck ▸ Memory.head_le hn hc) (hdk ▸ Memory.head_le hm hd)
      subst hkk
      obtain ⟨-, hmwf, hk, -⟩ := Memory.wf_cons hm
      have hvu := h k' hk
      rw [Memory.read_cons, Memory.read_cons, if_pos rfl, if_pos rfl] at hvu
      rw [hvu, ih n hmwf (Memory.wf_cons hn).2.1 (ReadAlike.tail h hm hn)]

end Sys2Proof.Machine

/-! ## Reset (R32, R221, R222) -/

namespace Sys2Proof.Machine

/-- Settles O56: the memory after reset lists nothing, and nothing is hooked. -/
theorem theResetStateMeetsTheInvariant : Obligations.TheResetStateMeetsTheInvariant :=
  ⟨⟨Memory.wf_nil, List.nodup_nil, List.nodup_nil, le_refl 2⟩,
    fun _ _ _ _ hm hr hw hc => ⟨hm, hr, hw, hc⟩⟩

/-- Settles O58: each register is created with `Config.regInit`, and no byte is listed. -/
theorem everythingIsZeroAfterReset : Obligations.EverythingIsZeroAfterReset :=
  ⟨fun r => by cases r <;> rfl, fun _ => rfl, rfl⟩

/-! ## The actor (R205 to R208) -/

section
variable {x : Actor} {t : State} {f : Fault}

theorem Actor.blockStep_next (h : step x.cpu = .next t) :
    x.blockStep = { x with cpu := t, run := if t.cpuOff then .stopped else x.run } := by
  rw [Actor.blockStep, h]

theorem Actor.blockStep_fault (h : step x.cpu = .fault f) :
    x.blockStep
      = { x with cpu := f.left, run := .fault, lastFault := some f, frozen := f.hangs } := by
  rw [Actor.blockStep, h]

/-- A Stop breakpoint suspends before the instruction (R207). -/
theorem Actor.runStep_stop (h : x.breakpoint = some .stop) :
    x.runStep = { x with run := .stopped } := by
  rw [Actor.runStep, h]

/-- Any other breakpoint lets one step be executed, after which a Step breakpoint suspends (R207). -/
theorem Actor.runStep_not_stop (h : x.breakpoint ≠ some .stop) :
    x.runStep = if x.breakpoint = some .step then x.blockStep.suspend else x.blockStep := by
  rw [Actor.runStep]
  cases hbp : x.breakpoint with
  | none => rfl
  | some k =>
    cases k with
    | stop => exact absurd hbp h
    | step => rfl
    | trace => rfl

/-- A step that faults ends in Fault, at a Step breakpoint too (log 13). -/
theorem Actor.runStep_fault (h : x.breakpoint ≠ some .stop) (hs : step x.cpu = .fault f) :
    x.runStep
      = { x with cpu := f.left, run := .fault, lastFault := some f, frozen := f.hangs } := by
  rw [Actor.runStep_not_stop h, Actor.blockStep_fault hs]
  split <;> rfl

/-- A step that completes while Running or Stepping: Halted and a Step breakpoint stop it (R206, R207). -/
theorem Actor.runStep_next (h : x.breakpoint ≠ some .stop) (hs : step x.cpu = .next t)
    (hrun : x.run = .running ∨ x.run = .stepping) :
    x.runStep = { x with
      cpu := t
      run := if t.regs.sr.getLsbD 4 = true ∨ x.breakpoint = some .step then .stopped else x.run } := by
  rw [Actor.runStep_not_stop h, Actor.blockStep_next hs, State.cpuOff]
  generalize t.regs.sr.getLsbD 4 = off
  by_cases hbp : x.breakpoint = some .step <;> rcases hrun with hrun | hrun <;> cases off <;>
    simp [Actor.suspend, hbp, hrun]

theorem Actor.turn_running (hf : x.frozen = false) (hm : x.mailbox = []) (hr : x.run = .running) :
    x.turn = x.runStep := by
  simp [Actor.turn, hf, hm, hr]

theorem Actor.turn_message {m : Message} {rest : List Message} (hf : x.frozen = false)
    (hm : x.mailbox = m :: rest) : x.turn = Actor.service m { x with mailbox := rest } := by
  simp [Actor.turn, hf, hm]

end

/-- What an actor does in its turn while Running, continue does from every run state (R205). -/
theorem Actor.turn_eq_continueRun {x : Actor} (hf : x.frozen = false) (hm : x.mailbox = [])
    (hr : x.run = .running) : x.turn = Actor.service .continueRun x := by
  rw [Actor.turn_running hf hm hr, Actor.service, ← hr]

/-- A Trace breakpoint changes nothing (R207). -/
theorem Actor.turn_trace {x : Actor} (hf : x.frozen = false) (hm : x.mailbox = [])
    (hr : x.run = .running) (h : x.breakpoint = some .trace) :
    x.turn = { Actor.turn { x with breakpoints := [] } with breakpoints := x.breakpoints } := by
  have hstep : x.runStep = x.blockStep := by rw [Actor.runStep, h]
  have hnone : Actor.turn { x with breakpoints := [] }
      = Actor.blockStep { x with breakpoints := [] } :=
    Actor.turn_running (x := { x with breakpoints := [] }) hf hm hr
  rw [Actor.turn_running hf hm hr, hstep, hnone]
  unfold Actor.blockStep
  cases step x.cpu <;> rfl

/-- Settles O59: a turn of free-running is the step of continue, and step suspends after its own. -/
theorem breakpointsSuspendBeforeOrAfterTheStep :
    Obligations.BreakpointsSuspendBeforeOrAfterTheStep := by
  intro x hf bp freeRuns
  refine ⟨fun hbp => ?_, fun hbp t ht => ?_, fun hbp f hs => ?_, fun hbp hfree => ?_⟩
  · have hcontinue : Actor.service .continueRun x = { x with run := .stopped } :=
      Actor.runStep_stop (x := { x with run := .running }) hbp
    refine ⟨fun hfree => (Actor.turn_eq_continueRun hf hfree.1 hfree.2).trans hcontinue, hcontinue, ?_⟩
    exact congrArg Actor.suspend (Actor.runStep_stop (x := { x with run := .stepping }) hbp)
  · intro after y
    have hcontinue : Actor.service .continueRun x = y :=
      Actor.runStep_next (x := { x with run := .running }) hbp ht (.inl rfl)
    refine ⟨fun hfree => (Actor.turn_eq_continueRun hf hfree.1 hfree.2).trans hcontinue, hcontinue, ?_⟩
    refine (congrArg Actor.suspend
      (Actor.runStep_next (x := { x with run := .stepping }) hbp ht (.inr rfl))).trans ?_
    split <;> rfl
  · intro y
    have hcontinue : Actor.service .continueRun x = y :=
      Actor.runStep_fault (x := { x with run := .running }) hbp hs
    refine ⟨fun hfree => (Actor.turn_eq_continueRun hf hfree.1 hfree.2).trans hcontinue, hcontinue, ?_⟩
    exact congrArg Actor.suspend (Actor.runStep_fault (x := { x with run := .stepping }) hbp hs)
  · exact Actor.turn_trace hf hfree.1 hfree.2 hbp

/-- A step is Halted when it completes with SR[4] set (R109). -/
theorem next_of_stepStatus_halted {s : State} (h : stepStatus s = .halted) :
    ∃ t, step s = .next t ∧ t.regs.sr.getLsbD 4 = true := by
  cases hs : step s with
  | next t =>
    rw [stepStatus_of_next hs] at h
    by_cases hoff : t.regs.sr.getLsbD 4 = true
    · exact ⟨t, rfl, hoff⟩
    · rw [if_neg hoff] at h
      cases h
  | fault f =>
    rw [stepStatus, hs] at h
    cases h
  | refused r =>
    rw [stepStatus, hs] at h
    cases h

/-- A Halted step stops free-running, whatever breakpoint stands (R206, R207). -/
theorem Actor.turn_halted {x : Actor} (hf : x.frozen = false) (hm : x.mailbox = [])
    (hr : x.run = .running) (h : stepStatus x.cpu = .halted) :
    x.turn.run = .stopped ∧ x.turn.lastFault = x.lastFault := by
  obtain ⟨t, ht, hoff⟩ := next_of_stepStatus_halted h
  rw [Actor.turn_running hf hm hr]
  by_cases hbp : x.breakpoint = some .stop
  · rw [Actor.runStep_stop hbp]
    exact ⟨rfl, rfl⟩
  · rw [Actor.runStep_next hbp ht (.inl hr)]
    exact ⟨if_pos (.inl hoff), rfl⟩

/-- Settles O60: a turn services a message, or takes a step while Running, or does nothing. -/
theorem onlyARunningInstanceSteps : Obligations.OnlyARunningInstanceSteps := by
  intro x
  refine ⟨fun hm hr => ?_, fun hf => ?_, Actor.turn_halted, fun m rest hf hm => ?_⟩
  · unfold Actor.turn
    rw [hm]
    cases hrun : x.run with
    | running => exact absurd hrun hr
    | stopped => exact ite_self x
    | fault => exact ite_self x
    | stepping => exact ite_self x
  · rw [Actor.turn, if_pos hf]
  · have hturn := Actor.turn_message hf hm
    refine ⟨hturn, fun h => ?_, fun a n h => ?_⟩
    · rw [hturn, h]
      rfl
    · refine ⟨readRange a n x.cpu, by simp [readRange], ?_, fun k hk => ?_⟩
      · rw [hturn, h]
        rfl
      · simp [readRange, hk]

end Sys2Proof.Machine
